-- ==== Sys2Proof/Word.lean ====
section
/-! DEFINITION. The word types of the block and the one way a truth value becomes a register byte.

All values are unsigned and every widening is a zero-extension (rule R8). -/

namespace Sys2Proof

/-- A register, timer or memory byte: 8 bits, unsigned (R8, R21). -/
abbrev Byte := BitVec 8

/-- `I`, `pc`, an opcode or a return address: 16 bits, unsigned (R8, R24, R26, R28, R70). -/
abbrev Word := BitVec 16

/-- The byte a flag is written as: 1 when the condition holds, 0 when not (R22). -/
def bitByte (b : Bool) : Byte := if b then 1 else 0

end Sys2Proof
end

