-- ==== Sys2Proof/Config.lean ====
section
/-! DEFINITION. The parameters of rule R6, the default font of rule R33, and the one free value of the model.

Everything here is fixed for a run. `rndByte` has no body on purpose: the spec leaves the random byte open (R100, D12). -/

namespace Sys2Proof.Config

/-- `MEM_SIZE`: addresses 0x000..0xFFF (R6, R50). -/
def memSize : Nat := 4096

/-- `FONT_SIZE`: 16 glyphs of 5 bytes at 0x000..0x04F (R6, R33). -/
def fontSize : Nat := 80

/-- Bytes per glyph: glyph g is at `5 * g` (R33, R152). -/
def glyphSize : Nat := 5

/-- `PROG_BASE`: the first address instructions may write and fetch from (R6, R51, R54, R91). -/
def progBase : Nat := 0x200

/-- `PROG_MAX`: the longest program image (R6, R201). -/
def progMax : Nat := 3584

/-- The highest address an opcode can be fetched from (R91). -/
def lastFetch : Nat := 0xFFE

/-- `RESET_PC` (R6, R40). -/
def resetPc : Word := 0x200

/-- `DISP_W`: columns of the framebuffer (R6, R34). -/
def dispW : Nat := 64

/-- `DISP_H`: rows of the framebuffer (R6, R34). -/
def dispH : Nat := 32

/-- The number of framebuffer cells, `DISP_W * DISP_H` (R6, R34). -/
def dispCells : Nat := 2048

/-- `NUM_KEYS`: the key latches (R6, R35). -/
def numKeys : Nat := 16

/-- The default of the OPEN parameter `FONT` (R33).
PRESUMED (unsafe, log entry 2): the spec itself marks these bytes as general knowledge, not in its source. -/
def defaultFont : Vector Byte 80 :=
  #v[0xF0, 0x90, 0x90, 0x90, 0xF0,   -- 0
     0x20, 0x60, 0x20, 0x20, 0x70,   -- 1
     0xF0, 0x10, 0xF0, 0x80, 0xF0,   -- 2
     0xF0, 0x10, 0xF0, 0x10, 0xF0,   -- 3
     0x90, 0x90, 0xF0, 0x10, 0x10,   -- 4
     0xF0, 0x80, 0xF0, 0x10, 0xF0,   -- 5
     0xF0, 0x80, 0xF0, 0x90, 0xF0,   -- 6
     0xF0, 0x10, 0x20, 0x40, 0x40,   -- 7
     0xF0, 0x90, 0xF0, 0x90, 0xF0,   -- 8
     0xF0, 0x90, 0xF0, 0x10, 0xF0,   -- 9
     0xF0, 0x90, 0xF0, 0x90, 0x90,   -- A
     0xE0, 0x90, 0xE0, 0x90, 0xE0,   -- B
     0xF0, 0x80, 0x80, 0x80, 0xF0,   -- C
     0xE0, 0x90, 0x90, 0x90, 0xE0,   -- D
     0xF0, 0x80, 0xF0, 0x80, 0xF0,   -- E
     0xF0, 0x80, 0xF0, 0x80, 0x80]   -- F

/-- The random byte presented for the `n`-th Cxnn after construction: a FREE VALUE, any byte, with no relation between
draws (R100, D12, U8).  DESIGN CHOICE of the form only (safe, log entry 1): nothing can be proved of any value of it. -/
opaque rndByte (n : Nat) : Byte

end Sys2Proof.Config
end

