-- ==== Sys2Proof/Machine/State.lean ====
section
/-! DEFINITION. The state of the block (R20), its fault records (R180), its reset value (R40), and the reasons a step stops.

State is plain data.  `rnd` and `rndDraws` are the MODEL's own two fields: they hold the step's random-byte input (R100). -/

namespace Sys2Proof.Machine

/-- The kinds of fault (R180). -/
inductive FaultKind where
  | unknownOpcode
  | fetchFault
  | stackOverflow
  | stackUnderflow
  | memoryOutOfRange
  | reservedWrite
  | displayOutOfRange
  | keyIndexOutOfRange
deriving DecidableEq, Repr

/-- The spec's number of each kind (R180). -/
def FaultKind.code : FaultKind → Nat
  | .unknownOpcode => 1
  | .fetchFault => 2
  | .stackOverflow => 3
  | .stackUnderflow => 4
  | .memoryOutOfRange => 5
  | .reservedWrite => 6
  | .displayOutOfRange => 7
  | .keyIndexOutOfRange => 8

/-- The fault record `(kind, pc, info)` of rule R180; `info` is an exact integer (R9). -/
structure FaultRecord where
  kind : FaultKind
  pc : Word
  info : Nat
deriving DecidableEq, Repr

/-- `mem[0..4095]` in one canonical form: the 80 font bytes at 0x000..0x04F (the parameter `FONT`, R33), and the
other bytes as a list of cells that lists no byte equal to 0, which is what an unlisted address holds at reset (R40). -/
structure Memory where
  font : Vector Byte 80
  cells : List Host.Cell
deriving DecidableEq, Repr

/-- The architectural state of rule R20, and the model's own holding of the step's random-byte input (R100). -/
structure State where
  /-- `mem[0..4095]`, bytes (R20, R32, R50) -/
  mem : Memory
  /-- `V[0..15]`, 8 bits each (R20, R21) -/
  V : Vector Byte 16
  /-- the index register (R20, R26) -/
  I : Word
  /-- the program counter (R20, R24) -/
  pc : Word
  /-- `stack[0..15]`, 16 bits each (R20, R28) -/
  stack : Vector Word 16
  /-- the stack pointer, 0..15 (R20, R29, D23) -/
  sp : Fin 16
  /-- the delay timer (R20, R30) -/
  DT : Byte
  /-- the sound timer (R20, R31) -/
  ST : Byte
  /-- `disp[0..2047]`, one bit each: bit c is cell c (R20, R34) -/
  disp : BitVec 2048
  /-- `keys[0..15]`, one bit each: bit k is latch k, 1 pressed (R20, R35) -/
  keys : BitVec 16
  /-- the redraw request (R20, R36) -/
  needDraw : Bool
  /-- the beep request (R20, R37) -/
  playBeep : Bool
  /-- `none` while the block runs, or the record of the fault that stopped it (R20, R38) -/
  fault : Option FaultRecord
  /-- MODEL's own: the random byte the host presents to the next Cxnn (R100) -/
  rnd : Byte
  /-- MODEL's own: how many random bytes have been drawn since construction (log entry 1) -/
  rndDraws : Nat
deriving DecidableEq, Repr

/-- Why the machine has no next state. -/
inductive Fault where
  /-- The block is stopped: `fault` is not `none`, so no step is enabled (R38, R90, R184).  Raised by `step` only.
  Safe: the spec says that the block takes no further step until reset. -/
  | halted (r : FaultRecord)
deriving DecidableEq, Repr

/-- Why an instruction is not run. -/
inductive Refusal where
  /-- An instruction with no meaning yet.  Raised by a refused arm of `exec` only, and no arm is refused.  Safe. -/
  | notModelled (mnemonic : String)
deriving DecidableEq, Repr

/-- Reset with the OPEN parameter `FONT` given (R33, R40, R200, D13).
The random input is a free value; holding it from draw 0 on is a DESIGN CHOICE (log entry 1). -/
def State.resetWith (font : Vector Byte 80) : State where
  mem := ⟨font, []⟩
  V := Vector.replicate 16 0
  I := 0
  pc := Config.resetPc
  stack := Vector.replicate 16 0
  sp := 0
  DT := 0
  ST := 0
  disp := 0
  keys := 0
  needDraw := false
  playBeep := false
  fault := none
  rnd := Config.rndByte 0
  rndDraws := 0

/-- The machine right after reset (R40, R200), with `FONT` at its default (R33; PRESUMED, log entry 2). -/
def State.reset : State := State.resetWith Config.defaultFont

end Sys2Proof.Machine
end

