-- ==== Sys2Proof/Syntax.lean ====
section
/-! DEFINITION. The instruction type, one constructor per row of spec/opcode_table.json, and the assembler lines of rule R79.

The operand types carry the operand ranges of rule R73: a register number is a `Fin 16`, `n` 4 bits, `nn` 8 bits,
`nnn` 12 bits.  `SHR` and `SHL` keep the `y` field that is encoded and not read (R140, R142), so no bit of a word is lost. -/

namespace Sys2Proof

/-- A general register number, V0..VF (R21). -/
abbrev Reg := Fin 16

/-- `VF`, the register that doubles as the flag (R22). -/
abbrev VF : Reg := 15

/-- A 12-bit address operand `nnn` (R71, R73). -/
abbrev Addr12 := BitVec 12

/-- A 4-bit count operand `n` (R71, R73). -/
abbrev Nibble := BitVec 4

/-- The 34 instructions of the block (R2, R74), in the order of the opcode table. -/
inductive Instr where
  /-- 00E0 `CLS` (R160) -/
  | cls
  /-- 00EE `RET` (R110) -/
  | ret
  /-- 1nnn `JP nnn` (R111) -/
  | jp (nnn : Addr12)
  /-- 2nnn `CALL nnn` (R112) -/
  | call (nnn : Addr12)
  /-- 3xnn `SE Vx, nn` (R121) -/
  | seImm (x : Reg) (nn : Byte)
  /-- 4xnn `SNE Vx, nn` (R122) -/
  | sneImm (x : Reg) (nn : Byte)
  /-- 5xy0 `SE Vx, Vy` (R123) -/
  | seReg (x y : Reg)
  /-- 6xnn `LD Vx, nn` (R132) -/
  | ldImm (x : Reg) (nn : Byte)
  /-- 7xnn `ADD Vx, nn` (R133) -/
  | addImm (x : Reg) (nn : Byte)
  /-- 8xy0 `LD Vx, Vy` (R134) -/
  | ldReg (x y : Reg)
  /-- 8xy1 `OR Vx, Vy` (R135) -/
  | or (x y : Reg)
  /-- 8xy2 `AND Vx, Vy` (R136) -/
  | and (x y : Reg)
  /-- 8xy3 `XOR Vx, Vy` (R137) -/
  | xor (x y : Reg)
  /-- 8xy4 `ADD Vx, Vy` (R138) -/
  | addReg (x y : Reg)
  /-- 8xy5 `SUB Vx, Vy` (R139) -/
  | sub (x y : Reg)
  /-- 8xy6 `SHR Vx`; `y` is encoded and not read (R140) -/
  | shr (x y : Reg)
  /-- 8xy7 `SUBN Vx, Vy` (R141) -/
  | subn (x y : Reg)
  /-- 8xyE `SHL Vx`; `y` is encoded and not read (R142) -/
  | shl (x y : Reg)
  /-- 9xy0 `SNE Vx, Vy` (R124) -/
  | sneReg (x y : Reg)
  /-- Annn `LD I, nnn` (R150) -/
  | ldI (nnn : Addr12)
  /-- Bnnn `JP V0, nnn` (R113) -/
  | jpV0 (nnn : Addr12)
  /-- Cxnn `RND Vx, nn` (R143) -/
  | rnd (x : Reg) (nn : Byte)
  /-- Dxyn `DRW Vx, Vy, n` (R161) -/
  | drw (x y : Reg) (n : Nibble)
  /-- Ex9E `SKP Vx` (R170) -/
  | skp (x : Reg)
  /-- ExA1 `SKNP Vx` (R171) -/
  | sknp (x : Reg)
  /-- Fx07 `LD Vx, DT` (R172) -/
  | ldVDt (x : Reg)
  /-- Fx0A `LD Vx, K` (R173) -/
  | ldVK (x : Reg)
  /-- Fx15 `LD DT, Vx` (R174) -/
  | ldDtV (x : Reg)
  /-- Fx18 `LD ST, Vx` (R175) -/
  | ldStV (x : Reg)
  /-- Fx1E `ADD I, Vx` (R151) -/
  | addIV (x : Reg)
  /-- Fx29 `LD F, Vx` (R152) -/
  | ldFV (x : Reg)
  /-- Fx33 `LD B, Vx` (R153) -/
  | ldBV (x : Reg)
  /-- Fx55 `LD [I], Vx` (R154) -/
  | ldMemV (x : Reg)
  /-- Fx65 `LD Vx, [I]` (R155) -/
  | ldVMem (x : Reg)
deriving DecidableEq, Repr

/-- The mnemonics and data directives of the assembler syntax (R79, D18). -/
inductive Mnemonic where
  | cls | ret | jp | call | se | sne | ld | add | or | and | xor | sub | shr | subn | shl | rnd | drw | skp | sknp
  | db | dw
deriving DecidableEq, Repr

/-- An operand as an assembler line writes it: a register, a number, or one of the fixed operand keywords (R79).
Numbers are not bounded here: `Sys2Proof.AsmLine.item?` checks them. -/
inductive Operand where
  | v (k : Nat)
  | num (k : Nat)
  | i | dt | st | k | f | b | atI
deriving DecidableEq, Repr

/-- One assembler line (R79). -/
structure AsmLine where
  mnemonic : Mnemonic
  operands : List Operand
deriving DecidableEq, Repr

/-- What a well-formed line stands for: one opcode, or the raw data of `DB` and `DW` (R79, R80). -/
inductive AsmItem where
  | instr (i : Instr)
  | byte (b : Byte)
  | word (w : Word)
deriving DecidableEq, Repr

end Sys2Proof
end

