-- ==== Sys2Proof/Machine/Ops.lean ====
section
/-! DEFINITION. The operations every meaning is built from: registers, memory (R50 to R55), raising a fault (R180, R183), the
epilogue (R97), and the end of a step by its outcome (R95, R96). -/

namespace Sys2Proof.Machine

/-! ### Memory -/

/-- The byte a list of cells holds at an address; an unlisted address holds 0, its reset content (R40). -/
def cellsRead : List Host.Cell → Nat → Byte
  | [], _ => 0
  | (b, w) :: t, a => if b = a then w else cellsRead t a

/-- Put a nonzero byte into a list of cells at its place. -/
def cellsInsert : List Host.Cell → Nat → Byte → List Host.Cell
  | [], a, v => [(a, v)]
  | (b, w) :: t, a, v =>
    if a < b then (a, v) :: (b, w) :: t
    else if a = b then (a, v) :: t
    else (b, w) :: cellsInsert t a v

/-- Set the byte at an address; a byte equal to an unlisted one is not listed. -/
def cellsWrite (c : List Host.Cell) (a : Nat) (v : Byte) : List Host.Cell :=
  if v = 0 then c.filter (fun p => p.1 != a) else cellsInsert c a v

/-- `mem[a]`, read as data, with no check (R10, R32). -/
def Memory.read (m : Memory) (a : Nat) : Byte :=
  if h : a < 80 then m.font[a] else cellsRead m.cells a

/-- `mem[a] <- v`, with no check (R10, R32). -/
def Memory.write (m : Memory) (a : Nat) (v : Byte) : Memory :=
  if h : a < 80 then { m with font := m.font.set a v } else { m with cells := cellsWrite m.cells a v }

/-- Write consecutive bytes from an address up. -/
def Memory.writeBytes (m : Memory) (a : Nat) : List Byte → Memory
  | [] => m
  | b :: bs => (m.write a b).writeBytes (a + 1) bs

/-- Listed addresses rise strictly. -/
def cellsSorted : List Host.Cell → Bool
  | [] => true
  | [_] => true
  | p :: q :: t => p.1 < q.1 && cellsSorted (q :: t)

/-- The canonical form: the listed addresses rise strictly, lie in 0x050..0xFFF, and hold no 0. -/
def Memory.wf (m : Memory) : Bool :=
  cellsSorted m.cells && m.cells.all (fun p => 80 ≤ p.1 && p.1 < Config.memSize && p.2 != 0)

/-! ### Fields -/

/-- `V[x]` (R10, R21). -/
def State.getV (s : State) (x : Reg) : Byte := s.V[x]

/-- `V[x] <- v` (R10, R21); no register is hardwired. -/
def State.setV (s : State) (x : Reg) (v : Byte) : State := { s with V := s.V.set x v }

/-- `I <- v` (R10, R26). -/
def State.setI (s : State) (v : Word) : State := { s with I := v }

/-- `pc <- v`, unchecked (R10, R25). -/
def State.setPc (s : State) (v : Word) : State := { s with pc := v }

/-- `stack[j]` (R10, R28). -/
def State.getStack (s : State) (j : Fin 16) : Word := s.stack[j]

/-- `stack[j] <- v` (R10, R28). -/
def State.setStack (s : State) (j : Fin 16) (v : Word) : State := { s with stack := s.stack.set j v }

/-- `sp <- v` (R10, R29). -/
def State.setSp (s : State) (v : Fin 16) : State := { s with sp := v }

/-- `DT <- v` (R10, R30). -/
def State.setDT (s : State) (v : Byte) : State := { s with DT := v }

/-- `ST <- v` (R10, R31). -/
def State.setST (s : State) (v : Byte) : State := { s with ST := v }

/-- `disp[c]`, for c in 0..2047 (R10, R34). -/
def State.cell (s : State) (c : Nat) : Bool := s.disp.getLsbD c

/-- `disp[c] <- disp[c] ^ 1` (R34, R161). -/
def State.toggleCell (s : State) (c : Nat) : State := { s with disp := s.disp ^^^ BitVec.twoPow 2048 c }

/-- `disp[c] <- 0` for every cell (R34, R160). -/
def State.clearDisp (s : State) : State := { s with disp := 0 }

/-- `keys[k]` (R10, R35). -/
def State.key (s : State) (k : Nat) : Bool := s.keys.getLsbD k

/-- `need_draw <- 1` (R36). -/
def State.requestDraw (s : State) : State := { s with needDraw := true }

/-- `play_beep <- 1` (R37). -/
def State.requestBeep (s : State) : State := { s with playBeep := true }

/-- `mem[a] <- v`, with no check. -/
def State.setByte (s : State) (a : Nat) (v : Byte) : State := { s with mem := s.mem.write a v }

/-- The random byte is used up: what the host presents next is a free value (R100, D12). -/
def State.drawRnd (s : State) : State :=
  { s with rnd := Config.rndByte (s.rndDraws + 1), rndDraws := s.rndDraws + 1 }

/-! ### Faults (R180, R183) -/

/-- What a failing check raises: a kind and the value the kind records (R10, R180). -/
structure Raise where
  kind : FaultKind
  info : Nat
deriving DecidableEq, Repr

/-- TAKING A FAULT: the state before the step with nothing changed but `fault`, which records the kind, the `pc` at the
start of the step and the info (R180, R183, R184).  `s` is the state before the step. -/
def State.takeFault (s : State) (r : Raise) : State :=
  { s with fault := some { kind := r.kind, pc := s.pc, info := r.info } }

/-- `MemRead(a, 1)` (R53, R55). -/
def State.memRead (s : State) (a : Nat) : Except Raise Byte :=
  if a > 0xFFF then .error ⟨.memoryOutOfRange, a⟩ else .ok (s.mem.read a)

/-- `MemWrite(a, 1, v)` (R53, R54, R55). -/
def State.memWrite (s : State) (a : Nat) (v : Byte) : Except Raise State :=
  if a > 0xFFF then .error ⟨.memoryOutOfRange, a⟩
  else if a < 0x200 then .error ⟨.reservedWrite, a⟩
  else .ok (s.setByte a v)

/-- `for j = i to i + k - 1`: the loop of the pseudocode, ascending, ended by the first fault (R11, R186). -/
def forUp (f : Nat → State → Except Raise State) : Nat → Nat → State → Except Raise State
  | 0, _, s => .ok s
  | k + 1, i, s =>
    match f i s with
    | .ok s' => forUp f k (i + 1) s'
    | .error e => .error e

/-! ### Outcomes and the epilogue (R95 to R97) -/

/-- The outcomes of the execute stage (R95). -/
inductive ExecOutcome where
  | advanced (s : State)
  | jumped (s : State)
  | waiting (s : State)
deriving DecidableEq, Repr

/-- The delay timer's part of the epilogue (R97). -/
def State.tickDT (s : State) : State := if s.DT.toNat > 0 then s.setDT (s.DT - 1) else s

/-- The sound timer's part of the epilogue (R97). -/
def State.tickST (s : State) : State :=
  if s.ST.toNat > 0 then
    (if s.ST = 1 then s.requestBeep else s).setST (s.ST - 1)
  else s

/-- `pc <- (pc + 2) mod 65536` (R97, R120). -/
def State.advancePc (s : State) : State := s.setPc (s.pc + 2)

/-- The epilogue (R97). -/
def State.epilogue (s : State) : State := s.tickDT.tickST.advancePc

/-- The end of a step by what execute gave (R95, R96, R97, R99): Advanced runs the epilogue, Jumped and Waiting end the step,
and a fault discards every write of the step (R183).  `s₀` is the state before the step. -/
def finish (s₀ : State) : Except Raise ExecOutcome → Host.Outcome State Fault Refusal
  | .ok (.advanced s) => .next s.epilogue
  | .ok (.jumped s) => .next s
  | .ok (.waiting s) => .next s
  | .error r => .next (s₀.takeFault r)

/-- `skip_if(cond)`: a taken skip adds 2 to `pc` before the epilogue; the outcome is Advanced either way (R120). -/
def skipIf (s : State) (cond : Bool) : ExecOutcome := .advanced (if cond then s.advancePc else s)

end Sys2Proof.Machine
end

