-- ==== Sys2Proof/Machine/Operands.lean ====
section
/-! DEFINITION. The operand forms: addresses, the one addressing mode `I + k`, glyph addresses, decimal digits, register lists,
and the cell a sprite pixel lands in.  Addresses and cell indices are exact integers (R9). -/

namespace Sys2Proof.Machine

/-- `zext_16(nnn)` (R8, R73). -/
def addrWord (nnn : Addr12) : Word := nnn.setWidth 16

/-- `zext_16(V[x])` (R8). -/
def byteWord (v : Byte) : Word := v.setWidth 16

/-- The effective address `I + k`, an exact integer that never wraps (R9, R53). -/
def effectiveAddr (s : State) (k : Nat) : Nat := s.I.toNat + k

/-- `I <- (I + k) mod 65536`, the post-increment of Fx55 and Fx65 (R154, R155). -/
def State.bumpI (s : State) (k : Nat) : State := s.setI (s.I + BitVec.ofNat 16 k)

/-- The address of the glyph a byte names, `zext_16(v) * 5`, unmasked (R152). -/
def glyphAddr (v : Byte) : Word := byteWord v * BitVec.ofNat 16 Config.glyphSize

/-- The hundreds digit (R153). -/
def hundreds (v : Byte) : Byte := BitVec.ofNat 8 (v.toNat / 100)

/-- The tens digit (R153). -/
def tens (v : Byte) : Byte := BitVec.ofNat 8 (v.toNat / 10 % 10)

/-- The ones digit (R153). -/
def ones (v : Byte) : Byte := BitVec.ofNat 8 (v.toNat % 10)

/-- Register k of a register list `V[0..x]` (R154, R155): a loop index below 16 is a register number. -/
def listReg (k : Nat) : Reg := Fin.ofNat 16 k

/-- The target of Bnnn, `(zext_16(V[0]) + zext_16(nnn)) mod 65536` (R113). -/
def offsetTarget (v0 : Byte) (nnn : Addr12) : Word := byteWord v0 + addrWord nnn

/-- The cell of sprite row Y, column X, `(V[y] + Y) * 64 + V[x] + X`, an exact integer (R161, R163). -/
def cellIndex (vx vy : Byte) (Y X : Nat) : Nat := (vy.toNat + Y) * Config.dispW + vx.toNat + X

/-- Column X of a sprite byte is its bit `7 - X`: most-significant bit first (R161, C9). -/
def spriteBit (row : Byte) (X : Nat) : Bool := row.getLsbD (7 - X)

/-- The row of a cell (R34). -/
def cellRow (c : Nat) : Nat := c / Config.dispW

/-- The column of a cell (R34). -/
def cellCol (c : Nat) : Nat := c % Config.dispW

/-- The lowest pressed key from `k` on, of `m` latches (R173, D22). -/
def firstKeyFrom (s : State) : Nat → Nat → Option Nat
  | 0, _ => none
  | m + 1, k => if s.key k then some k else firstKeyFrom s m (k + 1)

/-- The lowest pressed key of the sixteen (R173, D22). -/
def firstKey (s : State) : Option Nat := firstKeyFrom s 16 0

end Sys2Proof.Machine
end

