-- ==== Sys2Proof/Machine/Flags.lean ====
section
/-! DEFINITION. Every flag the block computes into `VF` (R22, R130, R144), from the exact operands (R9). -/

namespace Sys2Proof.Machine

/-- 8xy4: carry, the exact sum exceeds 255 (R138). -/
def carryFlag (a b : Byte) : Byte := bitByte (a.toNat + b.toNat > 255)

/-- 8xy5 and 8xy7: not-borrow of `a - b`, `a > b` strictly (R139, R141). -/
def notBorrowFlag (a b : Byte) : Byte := bitByte (a.toNat > b.toNat)

/-- 8xy6: the bit shifted out, bit 0 (R140). -/
def shiftOutLow (a : Byte) : Byte := a &&& 1

/-- 8xyE: the bit shifted out, bit 7 (R142). -/
def shiftOutHigh (a : Byte) : Byte := a >>> 7

/-- Fx1E: the exact sum passes 0xFFF (R151). -/
def indexOverflowFlag (i : Word) (v : Byte) : Byte := bitByte (i.toNat + v.toNat > 0xFFF)

/-- Dxyn: the value the cell held before the XOR (R161, R162). -/
def collisionFlag (s : State) (c : Nat) : Byte := bitByte (s.cell c)

end Sys2Proof.Machine
end

