-- ==== Sys2Proof/Machine/Alu.lean ====
section
/-! DEFINITION. Register loads, the 8-bit ALU and the random byte: 6xnn, 7xnn, 8xy0 to 8xyE, Cxnn (R130 to R144).

An instruction that writes a flag writes it FIRST, and the statement after it reads the state the flag write left
(R11, R131, D2); only the sum of 8xy4 is computed before the flag (R138). -/

namespace Sys2Proof.Machine

/-- LD Vx, nn (R132). -/
def executeLdImm (x : Reg) (nn : Byte) (s : State) : Except Raise ExecOutcome :=
  .ok (.advanced (s.setV x nn))

/-- ADD Vx, nn, no flag (R133). -/
def executeAddImm (x : Reg) (nn : Byte) (s : State) : Except Raise ExecOutcome :=
  .ok (.advanced (s.setV x (s.getV x + nn)))

/-- LD Vx, Vy (R134). -/
def executeLdReg (x y : Reg) (s : State) : Except Raise ExecOutcome :=
  .ok (.advanced (s.setV x (s.getV y)))

/-- OR Vx, Vy; `VF` is not reset (R135). -/
def executeOr (x y : Reg) (s : State) : Except Raise ExecOutcome :=
  .ok (.advanced (s.setV x (s.getV x ||| s.getV y)))

/-- AND Vx, Vy; `VF` is not reset (R136). -/
def executeAnd (x y : Reg) (s : State) : Except Raise ExecOutcome :=
  .ok (.advanced (s.setV x (s.getV x &&& s.getV y)))

/-- XOR Vx, Vy; `VF` is not reset (R137). -/
def executeXor (x y : Reg) (s : State) : Except Raise ExecOutcome :=
  .ok (.advanced (s.setV x (s.getV x ^^^ s.getV y)))

/-- ADD Vx, Vy: the sum is taken from the operands before the flag is written (R138). -/
def executeAddReg (x y : Reg) (s : State) : Except Raise ExecOutcome :=
  let sum := s.getV x + s.getV y
  let f := s.setV VF (carryFlag (s.getV x) (s.getV y))
  .ok (.advanced (f.setV x sum))

/-- SUB Vx, Vy: the difference is taken after the flag is written (R139). -/
def executeSub (x y : Reg) (s : State) : Except Raise ExecOutcome :=
  let f := s.setV VF (notBorrowFlag (s.getV x) (s.getV y))
  .ok (.advanced (f.setV x (f.getV x - f.getV y)))

/-- SHR Vx, in place; `y` is not read (R140). -/
def executeShr (x _y : Reg) (s : State) : Except Raise ExecOutcome :=
  let f := s.setV VF (shiftOutLow (s.getV x))
  .ok (.advanced (f.setV x (f.getV x >>> 1)))

/-- SUBN Vx, Vy: the difference is taken after the flag is written (R141). -/
def executeSubn (x y : Reg) (s : State) : Except Raise ExecOutcome :=
  let f := s.setV VF (notBorrowFlag (s.getV y) (s.getV x))
  .ok (.advanced (f.setV x (f.getV y - f.getV x)))

/-- SHL Vx, in place; `y` is not read (R142). -/
def executeShl (x _y : Reg) (s : State) : Except Raise ExecOutcome :=
  let f := s.setV VF (shiftOutHigh (s.getV x))
  .ok (.advanced (f.setV x (f.getV x <<< 1)))

/-- RND Vx, nn: the step's random byte, masked (R100, R143). -/
def executeRnd (x : Reg) (nn : Byte) (s : State) : Except Raise ExecOutcome :=
  .ok (.advanced (s.setV x (s.rnd &&& nn)).drawRnd)

/-- 6xnn (R132). -/
def execLdImm (x : Reg) (nn : Byte) (s : State) : Host.Outcome State Fault Refusal := finish s (executeLdImm x nn s)

/-- 7xnn (R133). -/
def execAddImm (x : Reg) (nn : Byte) (s : State) : Host.Outcome State Fault Refusal := finish s (executeAddImm x nn s)

/-- 8xy0 (R134). -/
def execLdReg (x y : Reg) (s : State) : Host.Outcome State Fault Refusal := finish s (executeLdReg x y s)

/-- 8xy1 (R135). -/
def execOr (x y : Reg) (s : State) : Host.Outcome State Fault Refusal := finish s (executeOr x y s)

/-- 8xy2 (R136). -/
def execAnd (x y : Reg) (s : State) : Host.Outcome State Fault Refusal := finish s (executeAnd x y s)

/-- 8xy3 (R137). -/
def execXor (x y : Reg) (s : State) : Host.Outcome State Fault Refusal := finish s (executeXor x y s)

/-- 8xy4 (R138). -/
def execAddReg (x y : Reg) (s : State) : Host.Outcome State Fault Refusal := finish s (executeAddReg x y s)

/-- 8xy5 (R139). -/
def execSub (x y : Reg) (s : State) : Host.Outcome State Fault Refusal := finish s (executeSub x y s)

/-- 8xy6 (R140). -/
def execShr (x y : Reg) (s : State) : Host.Outcome State Fault Refusal := finish s (executeShr x y s)

/-- 8xy7 (R141). -/
def execSubn (x y : Reg) (s : State) : Host.Outcome State Fault Refusal := finish s (executeSubn x y s)

/-- 8xyE (R142). -/
def execShl (x y : Reg) (s : State) : Host.Outcome State Fault Refusal := finish s (executeShl x y s)

/-- Cxnn (R143). -/
def execRnd (x : Reg) (nn : Byte) (s : State) : Host.Outcome State Fault Refusal := finish s (executeRnd x nn s)

end Sys2Proof.Machine
end

