-- ==== Sys2Proof/Machine/Control.lean ====
section
/-! DEFINITION. Control transfer: 00EE, 1nnn, 2nnn, Bnnn (R110 to R115).

`execute…` is the execute stage of an instruction (R94); `exec…` is its meaning, the execute stage and the end of the step. -/

namespace Sys2Proof.Machine

/-- RET (R110): underflow at `sp = 0`; else `pc` takes the saved address of the call, and the epilogue moves it past the call. -/
def executeRet (s : State) : Except Raise ExecOutcome :=
  if s.sp = 0 then .error ⟨.stackUnderflow, s.sp.val⟩
  else .ok (.advanced ((s.setPc (s.getStack s.sp)).setSp (s.sp - 1)))

/-- JP nnn (R111). -/
def executeJp (nnn : Addr12) (s : State) : Except Raise ExecOutcome :=
  .ok (.jumped (s.setPc (addrWord nnn)))

/-- Pre-increment `sp` and store the address of the executing instruction (R24, R112). -/
def State.pushPc (s : State) : State := (s.setSp (s.sp + 1)).setStack (s.sp + 1) s.pc

/-- CALL nnn (R112): overflow at `sp = 15`. -/
def executeCall (nnn : Addr12) (s : State) : Except Raise ExecOutcome :=
  if s.sp = 15 then .error ⟨.stackOverflow, s.sp.val⟩
  else .ok (.jumped (s.pushPc.setPc (addrWord nnn)))

/-- JP V0, nnn (R113): always `V[0]`. -/
def executeJpV0 (nnn : Addr12) (s : State) : Except Raise ExecOutcome :=
  .ok (.jumped (s.setPc (offsetTarget (s.getV 0) nnn)))

/-- 00EE (R110). -/
def execRet (s : State) : Host.Outcome State Fault Refusal := finish s (executeRet s)

/-- 1nnn (R111). -/
def execJp (nnn : Addr12) (s : State) : Host.Outcome State Fault Refusal := finish s (executeJp nnn s)

/-- 2nnn (R112). -/
def execCall (nnn : Addr12) (s : State) : Host.Outcome State Fault Refusal := finish s (executeCall nnn s)

/-- Bnnn (R113). -/
def execJpV0 (nnn : Addr12) (s : State) : Host.Outcome State Fault Refusal := finish s (executeJpV0 nnn s)

end Sys2Proof.Machine
end

