-- ==== Sys2Proof/Machine/Display.lean ====
section
/-! DEFINITION. The display engine: 00E0 and Dxyn (R160 to R166). -/

namespace Sys2Proof.Machine

/-- CLS (R160). -/
def executeCls (s : State) : Except Raise ExecOutcome := .ok (.advanced s.clearDisp.requestDraw)

/-- Draw one set pixel: the collision value into `VF`, then the XOR (R161).  The cell is computed from `V[x]` and `V[y]` as
they are NOW, so a `VF` operand is the one the pixel before wrote (R165). -/
def drawPixel (x y : Reg) (Y X : Nat) (s : State) : Except Raise State :=
  let c := cellIndex (s.getV x) (s.getV y) Y X
  if c > 2047 then .error ⟨.displayOutOfRange, c⟩
  else .ok ((s.setV VF (collisionFlag s c)).toggleCell c)

/-- One column of a sprite row: a clear bit neither reads nor writes anything (R161). -/
def drawColumn (x y : Reg) (Y : Nat) (row : Byte) (X : Nat) (s : State) : Except Raise State :=
  if spriteBit row X then drawPixel x y Y X s else .ok s

/-- One sprite row: the row byte is read first, then its eight columns ascending (R161, R186). -/
def drawRow (x y : Reg) (Y : Nat) (s : State) : Except Raise State := do
  let row ← s.memRead (effectiveAddr s Y)
  forUp (drawColumn x y Y row) 8 0 s

/-- DRW Vx, Vy, n: `VF` is not cleared at the start (R161, R162, D25). -/
def executeDrw (x y : Reg) (n : Nibble) (s : State) : Except Raise ExecOutcome := do
  let s' ← forUp (drawRow x y) n.toNat 0 s
  return .advanced s'.requestDraw

/-- 00E0 (R160). -/
def execCls (s : State) : Host.Outcome State Fault Refusal := finish s (executeCls s)

/-- Dxyn (R161). -/
def execDrw (x y : Reg) (n : Nibble) (s : State) : Host.Outcome State Fault Refusal := finish s (executeDrw x y n s)

end Sys2Proof.Machine
end

