-- ==== Sys2Proof/Machine/IndexMemory.lean ====
section
/-! DEFINITION. The index register and memory transfers: Annn, Fx1E, Fx29, Fx33, Fx55, Fx65 (R150 to R156).

A transfer is all-or-nothing because `finish` discards every write of a faulting step (R156, R183). -/

namespace Sys2Proof.Machine

/-- LD I, nnn (R150). -/
def executeLdI (nnn : Addr12) (s : State) : Except Raise ExecOutcome :=
  .ok (.advanced (s.setI (addrWord nnn)))

/-- ADD I, Vx: the flag first, then `I` advances by the `V[x]` the flag write left (R151). -/
def executeAddIV (x : Reg) (s : State) : Except Raise ExecOutcome :=
  let f := s.setV VF (indexOverflowFlag s.I (s.getV x))
  .ok (.advanced (f.setI (f.I + byteWord (f.getV x))))

/-- LD F, Vx (R152). -/
def executeLdFV (x : Reg) (s : State) : Except Raise ExecOutcome :=
  .ok (.advanced (s.setI (glyphAddr (s.getV x))))

/-- LD B, Vx: hundreds, tens, ones in ascending addresses (R153). -/
def executeLdBV (x : Reg) (s : State) : Except Raise ExecOutcome := do
  let v := s.getV x
  let s₁ ← s.memWrite (effectiveAddr s 0) (hundreds v)
  let s₂ ← s₁.memWrite (effectiveAddr s₁ 1) (tens v)
  let s₃ ← s₂.memWrite (effectiveAddr s₂ 2) (ones v)
  return .advanced s₃

/-- One store of Fx55: `MemWrite(I + k, 1, V[k])` (R154). -/
def storeReg (k : Nat) (s : State) : Except Raise State :=
  s.memWrite (effectiveAddr s k) (s.getV (listReg k))

/-- LD [I], Vx (R154). -/
def executeLdMemV (x : Reg) (s : State) : Except Raise ExecOutcome := do
  let s' ← forUp storeReg (x.val + 1) 0 s
  return .advanced (s'.bumpI (x.val + 1))

/-- One load of Fx65: `V[k] <- MemRead(I + k, 1)` (R155). -/
def loadReg (k : Nat) (s : State) : Except Raise State := do
  let b ← s.memRead (effectiveAddr s k)
  return s.setV (listReg k) b

/-- LD Vx, [I] (R155). -/
def executeLdVMem (x : Reg) (s : State) : Except Raise ExecOutcome := do
  let s' ← forUp loadReg (x.val + 1) 0 s
  return .advanced (s'.bumpI (x.val + 1))

/-- Annn (R150). -/
def execLdI (nnn : Addr12) (s : State) : Host.Outcome State Fault Refusal := finish s (executeLdI nnn s)

/-- Fx1E (R151). -/
def execAddIV (x : Reg) (s : State) : Host.Outcome State Fault Refusal := finish s (executeAddIV x s)

/-- Fx29 (R152). -/
def execLdFV (x : Reg) (s : State) : Host.Outcome State Fault Refusal := finish s (executeLdFV x s)

/-- Fx33 (R153). -/
def execLdBV (x : Reg) (s : State) : Host.Outcome State Fault Refusal := finish s (executeLdBV x s)

/-- Fx55 (R154). -/
def execLdMemV (x : Reg) (s : State) : Host.Outcome State Fault Refusal := finish s (executeLdMemV x s)

/-- Fx65 (R155). -/
def execLdVMem (x : Reg) (s : State) : Host.Outcome State Fault Refusal := finish s (executeLdVMem x s)

end Sys2Proof.Machine
end

