-- ==== Sys2Proof/Machine/KeysTimers.lean ====
section
/-! DEFINITION. Keys and timers: Ex9E, ExA1, Fx07, Fx0A, Fx15, Fx18 (R170 to R175). -/

namespace Sys2Proof.Machine

/-- `keys[V[x]]`, checked: a value above 15 is KeyIndexOutOfRange (R170, R171, D9). -/
def State.keyOf (s : State) (v : Byte) : Except Raise Bool :=
  if v.toNat > 15 then .error ⟨.keyIndexOutOfRange, v.toNat⟩ else .ok (s.key v.toNat)

/-- SKP Vx (R170). -/
def executeSkp (x : Reg) (s : State) : Except Raise ExecOutcome := do
  let pressed ← s.keyOf (s.getV x)
  return skipIf s pressed

/-- SKNP Vx (R171). -/
def executeSknp (x : Reg) (s : State) : Except Raise ExecOutcome := do
  let pressed ← s.keyOf (s.getV x)
  return skipIf s (!pressed)

/-- LD Vx, DT (R172). -/
def executeLdVDt (x : Reg) (s : State) : Except Raise ExecOutcome := .ok (.advanced (s.setV x s.DT))

/-- LD Vx, K: the lowest pressed key, or Waiting with nothing changed (R173). -/
def executeLdVK (x : Reg) (s : State) : Except Raise ExecOutcome :=
  match firstKey s with
  | some k => .ok (.advanced (s.setV x (BitVec.ofNat 8 k)))
  | none => .ok (.waiting s)

/-- LD DT, Vx (R174). -/
def executeLdDtV (x : Reg) (s : State) : Except Raise ExecOutcome := .ok (.advanced (s.setDT (s.getV x)))

/-- LD ST, Vx (R175). -/
def executeLdStV (x : Reg) (s : State) : Except Raise ExecOutcome := .ok (.advanced (s.setST (s.getV x)))

/-- Ex9E (R170). -/
def execSkp (x : Reg) (s : State) : Host.Outcome State Fault Refusal := finish s (executeSkp x s)

/-- ExA1 (R171). -/
def execSknp (x : Reg) (s : State) : Host.Outcome State Fault Refusal := finish s (executeSknp x s)

/-- Fx07 (R172). -/
def execLdVDt (x : Reg) (s : State) : Host.Outcome State Fault Refusal := finish s (executeLdVDt x s)

/-- Fx0A (R173). -/
def execLdVK (x : Reg) (s : State) : Host.Outcome State Fault Refusal := finish s (executeLdVK x s)

/-- Fx15 (R174). -/
def execLdDtV (x : Reg) (s : State) : Host.Outcome State Fault Refusal := finish s (executeLdDtV x s)

/-- Fx18 (R175). -/
def execLdStV (x : Reg) (s : State) : Host.Outcome State Fault Refusal := finish s (executeLdStV x s)

end Sys2Proof.Machine
end

