-- ==== Sys2Proof/Machine/Skip.lean ====
section
/-! DEFINITION. Conditional skips: 3xnn, 4xnn, 5xy0, 9xy0 (R120 to R124). -/

namespace Sys2Proof.Machine

/-- SE Vx, nn (R121). -/
def executeSeImm (x : Reg) (nn : Byte) (s : State) : Except Raise ExecOutcome :=
  .ok (skipIf s (s.getV x == nn))

/-- SNE Vx, nn (R122). -/
def executeSneImm (x : Reg) (nn : Byte) (s : State) : Except Raise ExecOutcome :=
  .ok (skipIf s (s.getV x != nn))

/-- SE Vx, Vy (R123). -/
def executeSeReg (x y : Reg) (s : State) : Except Raise ExecOutcome :=
  .ok (skipIf s (s.getV x == s.getV y))

/-- SNE Vx, Vy (R124). -/
def executeSneReg (x y : Reg) (s : State) : Except Raise ExecOutcome :=
  .ok (skipIf s (s.getV x != s.getV y))

/-- 3xnn (R121). -/
def execSeImm (x : Reg) (nn : Byte) (s : State) : Host.Outcome State Fault Refusal := finish s (executeSeImm x nn s)

/-- 4xnn (R122). -/
def execSneImm (x : Reg) (nn : Byte) (s : State) : Host.Outcome State Fault Refusal := finish s (executeSneImm x nn s)

/-- 5xy0 (R123). -/
def execSeReg (x y : Reg) (s : State) : Host.Outcome State Fault Refusal := finish s (executeSeReg x y s)

/-- 9xy0 (R124). -/
def execSneReg (x y : Reg) (s : State) : Host.Outcome State Fault Refusal := finish s (executeSneReg x y s)

end Sys2Proof.Machine
end

