-- ==== Sys2Proof/WellFormed.lean ====
section
/-! DEFINITION. The checks on what is written for the block: assembler lines (R79) and program images (R201).

A term of `Instr` needs no check of its own: the types of its operands are the ranges of rule R73, so `Instr.wf` has no way
to fail and none is defined.  What CAN be ill-formed is text that names a register, a number or an operand form the
encoding has no field for, and an image the program area cannot hold. -/

namespace Sys2Proof

/-- A register operand is V0..VF (R79). -/
def reg? (k : Nat) : Option Reg := if h : k < 16 then some ⟨k, h⟩ else none

/-- `n` is a 4-bit number (R73, R79). -/
def nibble? (k : Nat) : Option Nibble := if k < 16 then some (BitVec.ofNat 4 k) else none

/-- `nn` is an 8-bit number (R73, R79). -/
def byte? (k : Nat) : Option Byte := if k < 256 then some (BitVec.ofNat 8 k) else none

/-- `nnn` is a 12-bit number (R73, R79). -/
def addr? (k : Nat) : Option Addr12 := if k < 4096 then some (BitVec.ofNat 12 k) else none

/-- `DW` places a 16-bit number (R79). -/
def word? (k : Nat) : Option Word := if k < 65536 then some (BitVec.ofNat 16 k) else none

/-- An instruction with one register operand. -/
def asmX (f : Reg → Instr) (x : Nat) : Option AsmItem :=
  (reg? x).map (fun x => .instr (f x))

/-- An instruction with two register operands. -/
def asmXY (f : Reg → Reg → Instr) (x y : Nat) : Option AsmItem :=
  (reg? x).bind fun x => (reg? y).map fun y => .instr (f x y)

/-- An instruction with a register and a byte operand. -/
def asmXNN (f : Reg → Byte → Instr) (x nn : Nat) : Option AsmItem :=
  (reg? x).bind fun x => (byte? nn).map fun nn => .instr (f x nn)

/-- An instruction with an address operand. -/
def asmA (f : Addr12 → Instr) (nnn : Nat) : Option AsmItem :=
  (addr? nnn).map (fun a => .instr (f a))

/-- What an assembler line stands for, by the syntax table of rule R79; `none` for a line whose operands are not those of
its mnemonic or are out of range.  `SHR Vx` and `SHL Vx` set y = 0, the two-operand forms set y (R79). -/
def AsmLine.item? (l : AsmLine) : Option AsmItem :=
  match l.mnemonic, l.operands with
  | .cls, [] => some (.instr .cls)
  | .ret, [] => some (.instr .ret)
  | .jp, [.num a] => asmA .jp a
  | .jp, [.v 0, .num a] => asmA .jpV0 a
  | .call, [.num a] => asmA .call a
  | .se, [.v x, .num nn] => asmXNN .seImm x nn
  | .se, [.v x, .v y] => asmXY .seReg x y
  | .sne, [.v x, .num nn] => asmXNN .sneImm x nn
  | .sne, [.v x, .v y] => asmXY .sneReg x y
  | .ld, [.v x, .num nn] => asmXNN .ldImm x nn
  | .ld, [.v x, .v y] => asmXY .ldReg x y
  | .ld, [.i, .num a] => asmA .ldI a
  | .ld, [.v x, .dt] => asmX .ldVDt x
  | .ld, [.v x, .k] => asmX .ldVK x
  | .ld, [.dt, .v x] => asmX .ldDtV x
  | .ld, [.st, .v x] => asmX .ldStV x
  | .ld, [.f, .v x] => asmX .ldFV x
  | .ld, [.b, .v x] => asmX .ldBV x
  | .ld, [.atI, .v x] => asmX .ldMemV x
  | .ld, [.v x, .atI] => asmX .ldVMem x
  | .add, [.v x, .num nn] => asmXNN .addImm x nn
  | .add, [.v x, .v y] => asmXY .addReg x y
  | .add, [.i, .v x] => asmX .addIV x
  | .or, [.v x, .v y] => asmXY .or x y
  | .and, [.v x, .v y] => asmXY .and x y
  | .xor, [.v x, .v y] => asmXY .xor x y
  | .sub, [.v x, .v y] => asmXY .sub x y
  | .shr, [.v x] => asmXY .shr x 0
  | .shr, [.v x, .v y] => asmXY .shr x y
  | .subn, [.v x, .v y] => asmXY .subn x y
  | .shl, [.v x] => asmXY .shl x 0
  | .shl, [.v x, .v y] => asmXY .shl x y
  | .rnd, [.v x, .num nn] => asmXNN .rnd x nn
  | .drw, [.v x, .v y, .num n] =>
    (reg? x).bind fun x => (reg? y).bind fun y => (nibble? n).map fun n => .instr (.drw x y n)
  | .skp, [.v x] => asmX .skp x
  | .sknp, [.v x] => asmX .sknp x
  | .db, [.num b] => (byte? b).map .byte
  | .dw, [.num w] => (word? w).map .word
  | _, _ => none

/-- A line is well-formed when it stands for something (R79). -/
def AsmLine.wf (l : AsmLine) : Bool := l.item?.isSome

/-- The line that writes an instruction (R79); the two-operand forms of `SHR` and `SHL`, which keep `y`. -/
def Instr.asm : Instr → AsmLine
  | .cls => ⟨.cls, []⟩
  | .ret => ⟨.ret, []⟩
  | .jp a => ⟨.jp, [.num a.toNat]⟩
  | .call a => ⟨.call, [.num a.toNat]⟩
  | .seImm x nn => ⟨.se, [.v x, .num nn.toNat]⟩
  | .sneImm x nn => ⟨.sne, [.v x, .num nn.toNat]⟩
  | .seReg x y => ⟨.se, [.v x, .v y]⟩
  | .ldImm x nn => ⟨.ld, [.v x, .num nn.toNat]⟩
  | .addImm x nn => ⟨.add, [.v x, .num nn.toNat]⟩
  | .ldReg x y => ⟨.ld, [.v x, .v y]⟩
  | .or x y => ⟨.or, [.v x, .v y]⟩
  | .and x y => ⟨.and, [.v x, .v y]⟩
  | .xor x y => ⟨.xor, [.v x, .v y]⟩
  | .addReg x y => ⟨.add, [.v x, .v y]⟩
  | .sub x y => ⟨.sub, [.v x, .v y]⟩
  | .shr x y => ⟨.shr, [.v x, .v y]⟩
  | .subn x y => ⟨.subn, [.v x, .v y]⟩
  | .shl x y => ⟨.shl, [.v x, .v y]⟩
  | .sneReg x y => ⟨.sne, [.v x, .v y]⟩
  | .ldI a => ⟨.ld, [.i, .num a.toNat]⟩
  | .jpV0 a => ⟨.jp, [.v 0, .num a.toNat]⟩
  | .rnd x nn => ⟨.rnd, [.v x, .num nn.toNat]⟩
  | .drw x y n => ⟨.drw, [.v x, .v y, .num n.toNat]⟩
  | .skp x => ⟨.skp, [.v x]⟩
  | .sknp x => ⟨.sknp, [.v x]⟩
  | .ldVDt x => ⟨.ld, [.v x, .dt]⟩
  | .ldVK x => ⟨.ld, [.v x, .k]⟩
  | .ldDtV x => ⟨.ld, [.dt, .v x]⟩
  | .ldStV x => ⟨.ld, [.st, .v x]⟩
  | .addIV x => ⟨.add, [.i, .v x]⟩
  | .ldFV x => ⟨.ld, [.f, .v x]⟩
  | .ldBV x => ⟨.ld, [.b, .v x]⟩
  | .ldMemV x => ⟨.ld, [.atI, .v x]⟩
  | .ldVMem x => ⟨.ld, [.v x, .atI]⟩

/-- A program image fits the program area: at most 3584 bytes (R201, D24, U16). -/
def imageFits (image : List Byte) : Bool := image.length ≤ Config.progMax

end Sys2Proof
end

