-- ==== Sys2Proof/Decode.lean ====
section
/-! DEFINITION. The decoder (R70 to R78), the encoder, the opcode table as data (R76), and the assembler (R79, R80).

The decoder is rule R74 as it stands: a case on `group`, with a second case on `n` or `nn`.  Words it does not select are
rejected by name with the opcode recorded (R77); bytes that do not hold two bytes are rejected as truncated (R70). -/

namespace Sys2Proof

/-! ### Fields (R71) -/

/-- `group = op[15:12]` (R71). -/
def group (op : Word) : BitVec 4 := op.extractLsb' 12 4

/-- `x = op[11:8]` as bits (R71). -/
def xBits (op : Word) : BitVec 4 := op.extractLsb' 8 4

/-- `y = op[7:4]` as bits (R71). -/
def yBits (op : Word) : BitVec 4 := op.extractLsb' 4 4

/-- `n = op[3:0]` (R71). -/
def nField (op : Word) : Nibble := op.extractLsb' 0 4

/-- `nn = op[7:0]` (R71). -/
def nnField (op : Word) : Byte := op.extractLsb' 0 8

/-- `nnn = op[11:0]` (R71). -/
def nnnField (op : Word) : Addr12 := op.extractLsb' 0 12

/-- A 4-bit field read as a register number (R73). -/
def regOfBits (b : BitVec 4) : Reg := ⟨b.toNat, b.isLt⟩

/-- A register number as the 4-bit field that names it (R73). -/
def regBits (r : Reg) : BitVec 4 := BitVec.ofNat 4 r.val

/-- `x` as a register number (R71, R73). -/
def xField (op : Word) : Reg := regOfBits (xBits op)

/-- `y` as a register number (R71, R73). -/
def yField (op : Word) : Reg := regOfBits (yBits op)

/-! ### The decoder (R74) -/

/-- Why bytes are no instruction: an UNKNOWN opcode, with its value (R77), or fewer than two bytes (R70). -/
inductive DecodeError where
  | unknownOpcode (op : Word)
  | truncated (bytes : List Byte)
deriving DecidableEq, Repr

/-- Group 0: only the two exact words (R74, R75, R77). -/
def decodeGroup0 (op : Word) : Except DecodeError Instr :=
  if op = 0x00E0 then .ok .cls
  else if op = 0x00EE then .ok .ret
  else .error (.unknownOpcode op)

/-- Group 8: dispatch on `n` (R74). -/
def decodeGroup8 (op : Word) : Except DecodeError Instr :=
  let x := xField op
  let y := yField op
  match (nField op).toNat with
  | 0x0 => .ok (.ldReg x y)
  | 0x1 => .ok (.or x y)
  | 0x2 => .ok (.and x y)
  | 0x3 => .ok (.xor x y)
  | 0x4 => .ok (.addReg x y)
  | 0x5 => .ok (.sub x y)
  | 0x6 => .ok (.shr x y)
  | 0x7 => .ok (.subn x y)
  | 0xE => .ok (.shl x y)
  | _ => .error (.unknownOpcode op)

/-- Group E: dispatch on `nn` (R74). -/
def decodeGroupE (op : Word) : Except DecodeError Instr :=
  let x := xField op
  match (nnField op).toNat with
  | 0x9E => .ok (.skp x)
  | 0xA1 => .ok (.sknp x)
  | _ => .error (.unknownOpcode op)

/-- Group F: dispatch on `nn` (R74). -/
def decodeGroupF (op : Word) : Except DecodeError Instr :=
  let x := xField op
  match (nnField op).toNat with
  | 0x07 => .ok (.ldVDt x)
  | 0x0A => .ok (.ldVK x)
  | 0x15 => .ok (.ldDtV x)
  | 0x18 => .ok (.ldStV x)
  | 0x1E => .ok (.addIV x)
  | 0x29 => .ok (.ldFV x)
  | 0x33 => .ok (.ldBV x)
  | 0x55 => .ok (.ldMemV x)
  | 0x65 => .ok (.ldVMem x)
  | _ => .error (.unknownOpcode op)

/-- The decoder of rule R74, a total function of the 16-bit opcode. -/
def decode (op : Word) : Except DecodeError Instr :=
  let x := xField op
  let y := yField op
  let nn := nnField op
  let nnn := nnnField op
  match (group op).toNat with
  | 0x0 => decodeGroup0 op
  | 0x1 => .ok (.jp nnn)
  | 0x2 => .ok (.call nnn)
  | 0x3 => .ok (.seImm x nn)
  | 0x4 => .ok (.sneImm x nn)
  | 0x5 => if nField op = 0 then .ok (.seReg x y) else .error (.unknownOpcode op)
  | 0x6 => .ok (.ldImm x nn)
  | 0x7 => .ok (.addImm x nn)
  | 0x8 => decodeGroup8 op
  | 0x9 => if nField op = 0 then .ok (.sneReg x y) else .error (.unknownOpcode op)
  | 0xA => .ok (.ldI nnn)
  | 0xB => .ok (.jpV0 nnn)
  | 0xC => .ok (.rnd x nn)
  | 0xD => .ok (.drw x y (nField op))
  | 0xE => decodeGroupE op
  | _ => decodeGroupF op

/-- The opcode of two bytes, big-endian: the byte at the lower address is bits 15..8 (R52, R92). -/
def wordOfBytes (hi lo : Byte) : Word := (hi.setWidth 16 <<< 8) ||| lo.setWidth 16

/-- The byte of an opcode stored at the lower address (R52). -/
def hiByte (op : Word) : Byte := op.extractLsb' 8 8

/-- The byte of an opcode stored at the higher address (R52). -/
def loByte (op : Word) : Byte := op.extractLsb' 0 8

/-- Decode the instruction at the front of a byte list and give the rest: exactly two bytes are consumed (R70). -/
def decodeBytes : List Byte → Except DecodeError (Instr × List Byte)
  | hi :: lo :: rest =>
    match decode (wordOfBytes hi lo) with
    | .ok i => .ok (i, rest)
    | .error e => .error e
  | bytes => .error (.truncated bytes)

/-! ### The encoder -/

/-- Shape A: `group nnn` (R72). -/
def encA (g : BitVec 4) (nnn : Addr12) : Word := g ++ nnn

/-- Shape XNN: `group x nn` (R72). -/
def encXNN (g : BitVec 4) (x : Reg) (nn : Byte) : Word := g ++ regBits x ++ nn

/-- Shapes XY and XYN: `group x y n` (R72). -/
def encXYN (g : BitVec 4) (x y : Reg) (n : Nibble) : Word := g ++ regBits x ++ regBits y ++ n

/-- The word of an instruction, by the shapes of rule R72 and the map of rule R76. -/
def encode : Instr → Word
  | .cls => 0x00E0
  | .ret => 0x00EE
  | .jp nnn => encA 0x1 nnn
  | .call nnn => encA 0x2 nnn
  | .seImm x nn => encXNN 0x3 x nn
  | .sneImm x nn => encXNN 0x4 x nn
  | .seReg x y => encXYN 0x5 x y 0x0
  | .ldImm x nn => encXNN 0x6 x nn
  | .addImm x nn => encXNN 0x7 x nn
  | .ldReg x y => encXYN 0x8 x y 0x0
  | .or x y => encXYN 0x8 x y 0x1
  | .and x y => encXYN 0x8 x y 0x2
  | .xor x y => encXYN 0x8 x y 0x3
  | .addReg x y => encXYN 0x8 x y 0x4
  | .sub x y => encXYN 0x8 x y 0x5
  | .shr x y => encXYN 0x8 x y 0x6
  | .subn x y => encXYN 0x8 x y 0x7
  | .shl x y => encXYN 0x8 x y 0xE
  | .sneReg x y => encXYN 0x9 x y 0x0
  | .ldI nnn => encA 0xA nnn
  | .jpV0 nnn => encA 0xB nnn
  | .rnd x nn => encXNN 0xC x nn
  | .drw x y n => encXYN 0xD x y n
  | .skp x => encXNN 0xE x 0x9E
  | .sknp x => encXNN 0xE x 0xA1
  | .ldVDt x => encXNN 0xF x 0x07
  | .ldVK x => encXNN 0xF x 0x0A
  | .ldDtV x => encXNN 0xF x 0x15
  | .ldStV x => encXNN 0xF x 0x18
  | .addIV x => encXNN 0xF x 0x1E
  | .ldFV x => encXNN 0xF x 0x29
  | .ldBV x => encXNN 0xF x 0x33
  | .ldMemV x => encXNN 0xF x 0x55
  | .ldVMem x => encXNN 0xF x 0x65

/-- The two bytes of an instruction in memory order (R52, R70). -/
def encodeBytes (i : Instr) : List Byte := [hiByte (encode i), loByte (encode i)]

/-- The bytes an assembler line places: an opcode big-endian, a raw byte, or a raw big-endian word (R52, R79). -/
def assemble (l : AsmLine) : Option (List Byte) :=
  l.item?.map fun
    | .instr i => encodeBytes i
    | .byte b => [b]
    | .word w => [hiByte w, loByte w]

/-! ### The opcode table (R76) -/

/-- One row of the opcode map: the words `op` with `op &&& mask = pattern`. -/
structure OpcodeRow where
  mnemonic : String
  pattern : Word
  mask : Word
deriving DecidableEq, Repr

/-- A row selects a word (R76). -/
def OpcodeRow.selects (r : OpcodeRow) (op : Word) : Bool := op &&& r.mask == r.pattern

/-- The row an instruction belongs to (R76; spec/opcode_table.json). -/
def Instr.row : Instr → OpcodeRow
  | .cls => ⟨"CLS", 0x00E0, 0xFFFF⟩
  | .ret => ⟨"RET", 0x00EE, 0xFFFF⟩
  | .jp _ => ⟨"JP", 0x1000, 0xF000⟩
  | .call _ => ⟨"CALL", 0x2000, 0xF000⟩
  | .seImm _ _ => ⟨"SE_IMM", 0x3000, 0xF000⟩
  | .sneImm _ _ => ⟨"SNE_IMM", 0x4000, 0xF000⟩
  | .seReg _ _ => ⟨"SE_REG", 0x5000, 0xF00F⟩
  | .ldImm _ _ => ⟨"LD_IMM", 0x6000, 0xF000⟩
  | .addImm _ _ => ⟨"ADD_IMM", 0x7000, 0xF000⟩
  | .ldReg _ _ => ⟨"LD_REG", 0x8000, 0xF00F⟩
  | .or _ _ => ⟨"OR", 0x8001, 0xF00F⟩
  | .and _ _ => ⟨"AND", 0x8002, 0xF00F⟩
  | .xor _ _ => ⟨"XOR", 0x8003, 0xF00F⟩
  | .addReg _ _ => ⟨"ADD_REG", 0x8004, 0xF00F⟩
  | .sub _ _ => ⟨"SUB", 0x8005, 0xF00F⟩
  | .shr _ _ => ⟨"SHR", 0x8006, 0xF00F⟩
  | .subn _ _ => ⟨"SUBN", 0x8007, 0xF00F⟩
  | .shl _ _ => ⟨"SHL", 0x800E, 0xF00F⟩
  | .sneReg _ _ => ⟨"SNE_REG", 0x9000, 0xF00F⟩
  | .ldI _ => ⟨"LD_I", 0xA000, 0xF000⟩
  | .jpV0 _ => ⟨"JP_V0", 0xB000, 0xF000⟩
  | .rnd _ _ => ⟨"RND", 0xC000, 0xF000⟩
  | .drw _ _ _ => ⟨"DRW", 0xD000, 0xF000⟩
  | .skp _ => ⟨"SKP", 0xE09E, 0xF0FF⟩
  | .sknp _ => ⟨"SKNP", 0xE0A1, 0xF0FF⟩
  | .ldVDt _ => ⟨"LD_V_DT", 0xF007, 0xF0FF⟩
  | .ldVK _ => ⟨"LD_V_K", 0xF00A, 0xF0FF⟩
  | .ldDtV _ => ⟨"LD_DT_V", 0xF015, 0xF0FF⟩
  | .ldStV _ => ⟨"LD_ST_V", 0xF018, 0xF0FF⟩
  | .addIV _ => ⟨"ADD_I_V", 0xF01E, 0xF0FF⟩
  | .ldFV _ => ⟨"LD_F_V", 0xF029, 0xF0FF⟩
  | .ldBV _ => ⟨"LD_B_V", 0xF033, 0xF0FF⟩
  | .ldMemV _ => ⟨"LD_MEM_V", 0xF055, 0xF0FF⟩
  | .ldVMem _ => ⟨"LD_V_MEM", 0xF065, 0xF0FF⟩

/-- The 34 rows, in the table's order (R2, R76). -/
def opcodeTable : List OpcodeRow :=
  [Instr.cls, .ret, .jp 0, .call 0, .seImm 0 0, .sneImm 0 0, .seReg 0 0, .ldImm 0 0, .addImm 0 0, .ldReg 0 0,
   .or 0 0, .and 0 0, .xor 0 0, .addReg 0 0, .sub 0 0, .shr 0 0, .subn 0 0, .shl 0 0, .sneReg 0 0, .ldI 0,
   .jpV0 0, .rnd 0 0, .drw 0 0 0, .skp 0, .sknp 0, .ldVDt 0, .ldVK 0, .ldDtV 0, .ldStV 0, .addIV 0,
   .ldFV 0, .ldBV 0, .ldMemV 0, .ldVMem 0].map Instr.row

/-! ### The host's view of a table word -/

/-- The instruction the decoder reads from an instruction whose bits are `w`: bits at and above `nbits` are 0, and the word is
laid out big-endian (R52). -/
def decodeTableWord (nbits w : Nat) : Option Instr :=
  let op : Word := BitVec.ofNat 16 (w % 2 ^ nbits)
  match decodeBytes [hiByte op, loByte op] with
  | .ok (i, _) => some i
  | .error _ => none

end Sys2Proof
end

