-- ==== Sys2Proof/Machine/Fetch.lean ====
section
/-! DEFINITION. Fetch and decode: the first two stages of a step (R90 to R93), and the two bytes of a word in memory. -/

namespace Sys2Proof.Machine

/-- The fetch accepts `pc`: even, and within 0x200..0xFFE (R91). -/
def fetchable (pc : Word) : Bool := pc.toNat % 2 == 0 && 0x200 ≤ pc.toNat && pc.toNat ≤ Config.lastFetch

/-- The fetch: FetchFault with `pc` recorded, or the big-endian opcode at `pc` (R52, R91, R92). -/
def State.fetch (s : State) : Except Raise Word :=
  if fetchable s.pc then do
    let hi ← s.memRead s.pc.toNat
    let lo ← s.memRead (s.pc.toNat + 1)
    return wordOfBytes hi lo
  else .error ⟨.fetchFault, s.pc.toNat⟩

/-- Decode of a fetched opcode: UnknownOpcode with the opcode recorded (R93, R181). -/
def decodeOrRaise (op : Word) : Except Raise Instr :=
  match decode op with
  | .ok i => .ok i
  | .error _ => .error ⟨.unknownOpcode, op.toNat⟩

/-- Fetch, then decode (R90, R99, R186). -/
def State.fetchDecode (s : State) : Except Raise Instr := do
  let op ← s.fetch
  decodeOrRaise op

/-- Place a word in memory, big-endian (R52). -/
def Memory.writeWord (m : Memory) (a : Nat) (w : Word) : Memory := m.writeBytes a [hiByte w, loByte w]

end Sys2Proof.Machine
end

