-- ==== Sys2Proof/Machine/Step.lean ====
section
/-! DEFINITION. The step (R90, R99), and the word placed where the next step fetches. -/

namespace Sys2Proof.Machine

/-- One step (R99): not enabled when the block has faulted (R38, R90); a fetch or decode fault is taken like any other (R183);
else the decoded instruction runs. -/
def step (s : State) : Host.Outcome State Fault Refusal :=
  match s.fault with
  | some r => .fault (.halted r)
  | none =>
    match s.fetchDecode with
    | .ok i => exec i s
    | .error r => .next (s.takeFault r)

/-- The state with the instruction whose bits are `w` stored at `pc`, big-endian (R52); nothing else changes. -/
def State.withFetchWord (s : State) (nbits w : Nat) : State :=
  { s with mem := s.mem.writeWord s.pc.toNat (BitVec.ofNat 16 (w % 2 ^ nbits)) }

end Sys2Proof.Machine
end

