-- ==== Sys2Proof/Machine/HostPort.lean ====
section
/-! DEFINITION. The host interface: boot, the host's actions and when each is allowed, and schedules of actions and steps (R200, R201,
R209 to R212).

The host writes `keys`, clears `need_draw` and `play_beep`, supplies the random byte, resets, and loads an image between a reset and
the first step after it (R41, R210, D20).  That last "when" is kept beside the block, in `Session`, since the block has no field
for it (R20, R39). -/

namespace Sys2Proof.Machine

/-- Copy a program image to 0x200 (R201). -/
def State.placeImage (s : State) (image : List Byte) : State :=
  { s with mem := s.mem.writeBytes Config.progBase image }

/-- Load a program image; one over 3584 bytes is the loader's ProgramTooLarge and the block is never started (R201, D24, U16). -/
def State.loadImage (s : State) (image : List Byte) : Option State :=
  if imageFits image then some (s.placeImage image) else none

/-- Boot: reset, then the image (R201); the launch state of a claim, with every key released (R203). -/
def boot (font : Vector Byte 80) (image : List Byte) : Option State := (State.resetWith font).loadImage image

/-- What the host may do between two steps (R41, R210, R211).  Reading an output changes nothing and is no action. -/
inductive HostAction where
  /-- reset, the only way out of a fault (R185, R200) -/
  | reset
  /-- load a program image, between a reset and the first step (R41, R201) -/
  | loadImage (image : List Byte)
  /-- write latch `k`: pressed or released (R35, R211) -/
  | setKey (k : Fin 16) (pressed : Bool)
  /-- clear `need_draw` after consuming the display (R36) -/
  | consumeRedraw
  /-- clear `play_beep` after consuming it (R37) -/
  | consumeBeep
  /-- supply the random byte of the next Cxnn, any byte (R100, R211) -/
  | supplyRnd (b : Byte)
deriving DecidableEq, Repr

/-- `keys[k] <- pressed` (R35). -/
def State.setKey (s : State) (k : Fin 16) (pressed : Bool) : State :=
  { s with keys := if pressed then s.keys ||| BitVec.twoPow 16 k else s.keys &&& ~~~BitVec.twoPow 16 k }

/-- The effect of a host action on the block (R210).  Reset gives every field of the block its reset value, with the block's own
`FONT`; the random input is the host's and keeps its place (log entry 6). -/
def HostAction.apply (a : HostAction) (s : State) : State :=
  match a with
  | .reset => { State.resetWith s.mem.font with rnd := s.rnd, rndDraws := s.rndDraws }
  | .loadImage image => s.placeImage image
  | .setKey k p => s.setKey k p
  | .consumeRedraw => { s with needDraw := false }
  | .consumeBeep => { s with playBeep := false }
  | .supplyRnd b => { s with rnd := b }

/-- The "when" column of rule R210, for a host that knows whether a step has run since the last reset: an image that fits is loaded
before the first step; every other action is allowed between any two steps. -/
def HostAction.allowed (a : HostAction) (fresh : Bool) : Bool :=
  match a with
  | .loadImage image => fresh && imageFits image
  | .reset | .setKey _ _ | .consumeRedraw | .consumeBeep | .supplyRnd _ => true

/-- After a reset no step has run; the other actions run none either. -/
def HostAction.freshAfter (a : HostAction) (fresh : Bool) : Bool :=
  match a with
  | .reset => true
  | .loadImage _ | .setKey _ _ | .consumeRedraw | .consumeBeep | .supplyRnd _ => fresh

/-- The block as its host drives it (R209): the block, and what the host knows of where it is in rule R201's order.  The second is
the host's knowledge and no field of the block (log entry 7). -/
structure Session where
  block : State
  /-- no step has run since the last reset -/
  fresh : Bool
deriving DecidableEq, Repr

/-- A block just constructed (R200). -/
def Session.start (font : Vector Byte 80) : Session := { block := State.resetWith font, fresh := true }

/-- An event at the block: a step, or a host action between steps (R58, R209). -/
inductive Event where
  | step
  | host (a : HostAction)
deriving DecidableEq, Repr

/-- A step from a session: the block's own, and the first step is then past. -/
def Session.step (c : Session) : Host.Outcome Session Fault Refusal :=
  match Sys2Proof.Machine.step c.block with
  | .next s => .next { block := s, fresh := false }
  | .fault e => .fault e
  | .refused r => .refused r

/-- The effect of one event; `none` when rule R210 does not let the host do it here. -/
def Event.apply (e : Event) (c : Session) : Option (Host.Outcome Session Fault Refusal) :=
  match e with
  | .step => some c.step
  | .host a =>
    if a.allowed c.fresh then some (.next { block := a.apply c.block, fresh := a.freshAfter c.fresh }) else none

/-- A run under a schedule: the events in order, ended by the first that has no next state (R203, R211); `none` for a schedule in
which the host does what it may not. -/
def runSchedule : List Event → Session → Option (Host.Outcome Session Fault Refusal)
  | [], c => some (.next c)
  | e :: es, c =>
    match e.apply c with
    | some (.next d) => runSchedule es d
    | stopped => stopped

/-- The spec's `step(s, rnd)`: the step with the random byte given (R99, R100). -/
def stepWith (s : State) (rnd : Byte) : Host.Outcome State Fault Refusal := step { s with rnd := rnd }

end Sys2Proof.Machine
end

