-- ==== Sys2Proof/Safety.lean ====
section
/-! DEFINITION. The terms claims are stated in: the fields of a state and frames over them, what the epilogue leaves (R97, R191),
the read and write columns of rule R23, the stopping points of rule R213, the invariant of the machine, and what is reachable.

Nothing here says what a step does: these are yardsticks held against the machine, written from the rules and not from it. -/

namespace Sys2Proof.Machine

/-! ### Fields and frames -/

/-- A field of the state record (R20), down to one byte, register, stack entry, cell or latch. -/
inductive Field where
  | mem (a : Nat)
  | V (r : Reg)
  | I
  | pc
  | stack (j : Fin 16)
  | sp
  | DT
  | ST
  | disp (c : Nat)
  | key (k : Nat)
  | needDraw
  | playBeep
  | fault
  | rnd
  | rndDraws
deriving DecidableEq, Repr

/-- Two states hold the same in a field. -/
def Field.same (f : Field) (s t : State) : Prop :=
  match f with
  | .mem a => t.mem.read a = s.mem.read a
  | .V r => t.getV r = s.getV r
  | .I => t.I = s.I
  | .pc => t.pc = s.pc
  | .stack j => t.getStack j = s.getStack j
  | .sp => t.sp = s.sp
  | .DT => t.DT = s.DT
  | .ST => t.ST = s.ST
  | .disp c => t.cell c = s.cell c
  | .key k => t.key k = s.key k
  | .needDraw => t.needDraw = s.needDraw
  | .playBeep => t.playBeep = s.playBeep
  | .fault => t.fault = s.fault
  | .rnd => t.rnd = s.rnd
  | .rndDraws => t.rndDraws = s.rndDraws

/-- From `s` to `t`, every field outside `changed` is as it was. -/
def Frame (changed : Field → Prop) (s t : State) : Prop := ∀ f, ¬ changed f → f.same s t

/-- The fields the epilogue may write (R23, R97). -/
def epilogueField (f : Field) : Prop := f = .DT ∨ f = .ST ∨ f = .playBeep ∨ f = .pc

/-- `pc` moved on by `k`, mod 65536 (R97, R120). -/
def State.pcPlus (s : State) (k : Nat) : Nat := (s.pc.toNat + k) % 65536

/-- What an Advanced step leaves when its epilogue began with the timers at `dt` and `st`, by the table of rule R191:
each nonzero timer is one less, `play_beep` is set exactly when `st` was 1, `pc` ends at `pc'`, and of the other fields only
`changed` may differ. -/
def AdvancedTo (s t : State) (pc' : Nat) (dt st : Byte) (changed : Field → Prop) : Prop :=
  t.pc.toNat = pc' ∧
  t.DT.toNat = dt.toNat - 1 ∧
  t.ST.toNat = st.toNat - 1 ∧
  t.playBeep = (s.playBeep || st.toNat == 1) ∧
  Frame (fun f => changed f ∨ epilogueField f) s t

/-- The plain case: the instruction leaves the timers alone and execution goes on at the next instruction. -/
def Advanced (s t : State) (changed : Field → Prop) : Prop := AdvancedTo s t (s.pcPlus 2) s.DT s.ST changed

/-- What a fault leaves: the record, and nothing else changed (R180, R183). -/
def FaultedWith (s : State) (kind : FaultKind) (info : Nat) : State :=
  { s with fault := some { kind := kind, pc := s.pc, info := info } }

/-- A skip: `pc` moves by 4 exactly when the condition holds, else by 2, and the epilogue runs either way (R120). -/
def SkipsWhen (i : Instr) (cond : State → Prop) : Prop :=
  ∀ s : State, ∃ t, exec i s = .next t ∧
    (cond s → AdvancedTo s t (s.pcPlus 4) s.DT s.ST (fun _ => False)) ∧
    (¬ cond s → AdvancedTo s t (s.pcPlus 2) s.DT s.ST (fun _ => False))

/-! ### The sprite -/

/-- Sprite row Y's byte, `mem[I + Y]` (R161). -/
def State.spriteRow (s : State) (Y : Nat) : Byte := s.mem.read (s.I.toNat + Y)

/-- The set bit of sprite row Y and column X of an n-row sprite, most-significant bit first (R161). -/
def State.spriteSet (s : State) (n : Nibble) (Y X : Nat) : Prop :=
  Y < n.toNat ∧ X < 8 ∧ (s.spriteRow Y).getMsbD X = true

/-- The cell of sprite row Y and column X for a sprite at `V[x]`, `V[y]` as the state has them (R161, R163). -/
def State.pixelCell (s : State) (x y : Reg) (Y X : Nat) : Nat :=
  ((s.getV y).toNat + Y) * 64 + (s.getV x).toNat + X

/-- Some set bit of the sprite lands in cell c. -/
def State.spriteHits (s : State) (x y : Reg) (n : Nibble) (c : Nat) : Prop :=
  ∃ Y X, s.spriteSet n Y X ∧ c = s.pixelCell x y Y X

/-- The whole sprite can be drawn: every row byte is in memory and every set bit lands in the framebuffer (R161, R164). -/
def State.spriteFits (s : State) (x y : Reg) (n : Nibble) : Prop :=
  (∀ Y, Y < n.toNat → s.I.toNat + Y ≤ 0xFFF) ∧ ∀ Y X, s.spriteSet n Y X → s.pixelCell x y Y X ≤ 2047

/-- The last set bit, in the order rows ascending then columns ascending, is at row Y and column X (R162). -/
def State.lastSet (s : State) (n : Nibble) (Y X : Nat) : Prop :=
  s.spriteSet n Y X ∧ ∀ Y' X', s.spriteSet n Y' X' → Y' < Y ∨ Y' = Y ∧ X' ≤ X

/-- The set bits of the first `rows` sprite rows, as (row, column), rows ascending, then columns ascending (R161). -/
def State.rasterPixels (s : State) (rows : Nat) : List (Nat × Nat) :=
  (List.range rows).flatMap fun Y => ((List.range 8).filter fun X => (s.spriteRow Y).getMsbD X).map fun X => (Y, X)

/-- Drawing a list of set bits one after the other, each at the cell `V[x]` and `V[y]` give when its turn comes (R11, R161, R165);
the first cell past 2047 ends it (R164). -/
def drawPixels (x y : Reg) : List (Nat × Nat) → State → Except Nat State
  | [], s => .ok s
  | (Y, X) :: ps, s =>
    let c := s.pixelCell x y Y X
    if c > 2047 then .error c
    else drawPixels x y ps ((s.setV VF (if s.cell c then 1 else 0)).toggleCell c)

/-! ### Stopping points (R213) -/

/-- The opcode stored at `pc`, big-endian, with no check (R52, R92). -/
def State.opcodeAt (s : State) : Word :=
  BitVec.ofNat 16 ((s.mem.read s.pc.toNat).toNat * 256 + (s.mem.read (s.pc.toNat + 1)).toNat)

/-- The fetch's own condition, in the words of rule R91. -/
def State.fetchPasses (s : State) : Prop := s.pc.toNat % 2 = 0 ∧ 0x200 ≤ s.pc.toNat ∧ s.pc.toNat ≤ 0xFFE

/-- Faulted: no further step; not a successful end (R213). -/
def State.faulted (s : State) : Prop := s.fault ≠ none

/-- Spinning: the instruction at `pc` is a jump to itself; the spec's successful end (R213). -/
def State.spinning (s : State) : Prop :=
  s.fault = none ∧ s.fetchPasses ∧ ∃ nnn : Addr12, s.opcodeAt = 0x1#4 ++ nnn ∧ nnn.toNat = s.pc.toNat

/-- Waiting: the instruction at `pc` is Fx0A and every key is released (R213). -/
def State.waiting (s : State) : Prop :=
  s.fault = none ∧ s.fetchPasses ∧ (∃ x : BitVec 4, s.opcodeAt = 0xF#4 ++ x ++ 0x0A#8) ∧ ∀ k, s.key k = false

/-- A run of `k` steps is safe when it takes no fault. -/
def State.safeFor (s : State) (k : Nat) : Prop := ∃ t, Host.Core.run Sys2Proof.core k s = .next t ∧ t.fault = none

/-! ### The invariant -/

/-- What a fault record of each kind can hold (R180). -/
def FaultRecord.legal (r : FaultRecord) : Prop :=
  match r.kind with
  | .unknownOpcode => fetchable r.pc = true ∧ ∃ op : Word, op.toNat = r.info ∧ decode op = .error (.unknownOpcode op)
  | .fetchFault => fetchable r.pc = false ∧ r.info = r.pc.toNat
  | .stackOverflow => fetchable r.pc = true ∧ r.info = 15
  | .stackUnderflow => fetchable r.pc = true ∧ r.info = 0
  | .memoryOutOfRange => fetchable r.pc = true ∧ 0xFFF < r.info ∧ r.info ≤ 0xFFFF
  | .reservedWrite => fetchable r.pc = true ∧ r.info < 0x200
  | .displayOutOfRange => fetchable r.pc = true ∧ 2047 < r.info ∧ r.info ≤ 17478
  | .keyIndexOutOfRange => fetchable r.pc = true ∧ 15 < r.info ∧ r.info ≤ 255

/-- The invariant of the machine: memory is in its canonical form; `pc` is at most 0x10FE (R25); every stack entry in use is the
address of a call the fetch accepted (R24, R112); and a fault record is legal and was made at this `pc` (R180, R183). -/
structure State.Inv (s : State) : Prop where
  memCanonical : s.mem.wf = true
  pcBound : s.pc.toNat ≤ 0x10FE
  stackOfCalls : ∀ j : Fin 16, 1 ≤ j.val → j ≤ s.sp → fetchable (s.getStack j) = true
  faultLegal : ∀ r, s.fault = some r → r.pc = s.pc ∧ r.legal

/-- What the block and its host can reach: construction with any font, then any events the host may bring about, the image load, a
reset and a load after it among them (R201, R209 to R211). -/
inductive Session.Reachable : Session → Prop where
  | start (font : Vector Byte 80) : Session.Reachable (Session.start font)
  | event {c d : Session} (e : Event) (h : Session.Reachable c) (hd : e.apply c = some (.next d)) : Session.Reachable d

end Sys2Proof.Machine

namespace Sys2Proof
open Sys2Proof.Machine

/-! ### The table of rule R23 -/

/-- The "writes" column of rule R23, with the exact bytes and entries the rules of the instructions give; the epilogue's fields
are `epilogueField`.  Cxnn also uses up the random byte (the model's own fields). -/
def Instr.writes (i : Instr) (s : State) (f : Field) : Prop :=
  match i with
  | .cls => f = .needDraw ∨ ∃ c, f = .disp c
  | .ret => f = .pc ∨ f = .sp
  | .jp _ => f = .pc
  | .call _ => f = .pc ∨ f = .sp ∨ f = .stack (s.sp + 1)
  | .seImm _ _ | .sneImm _ _ | .seReg _ _ | .sneReg _ _ => f = .pc
  | .ldImm x _ | .addImm x _ => f = .V x
  | .ldReg x _ | .or x _ | .and x _ | .xor x _ => f = .V x
  | .addReg x _ | .sub x _ | .shr x _ | .subn x _ | .shl x _ => f = .V VF ∨ f = .V x
  | .ldI _ => f = .I
  | .jpV0 _ => f = .pc
  | .rnd x _ => f = .V x ∨ f = .rnd ∨ f = .rndDraws
  | .drw _ _ _ => f = .V VF ∨ f = .needDraw ∨ ∃ c, f = .disp c
  | .skp _ | .sknp _ => f = .pc
  | .ldVDt x | .ldVK x => f = .V x
  | .ldDtV _ => f = .DT
  | .ldStV _ => f = .ST
  | .addIV _ => f = .V VF ∨ f = .I
  | .ldFV _ => f = .I
  | .ldBV _ => ∃ k, k < 3 ∧ f = .mem (s.I.toNat + k)
  | .ldMemV x => f = .I ∨ ∃ k, k ≤ x.val ∧ f = .mem (s.I.toNat + k)
  | .ldVMem x => f = .I ∨ ∃ r : Reg, r ≤ x ∧ f = .V r

/-- The instructions whose outcome is always Jumped (R95). -/
def Instr.jumps : Instr → Prop
  | .jp _ | .call _ | .jpV0 _ => True
  | _ => False

/-- The "reads" column of rule R23; the epilogue's fields are `epilogueField`. -/
def Instr.reads (i : Instr) (s : State) (f : Field) : Prop :=
  match i with
  | .cls | .jp _ | .ldImm _ _ | .ldI _ => False
  | .ret => f = .sp ∨ f = .stack s.sp
  | .call _ => f = .pc ∨ f = .sp
  | .seImm x _ | .sneImm x _ | .addImm x _ => f = .V x
  | .ldReg _ y => f = .V y
  | .seReg x y | .sneReg x y | .or x y | .and x y | .xor x y | .addReg x y | .sub x y | .subn x y => f = .V x ∨ f = .V y
  | .shr x _ | .shl x _ => f = .V x
  | .jpV0 _ => f = .V 0
  | .rnd _ _ => f = .rnd ∨ f = .rndDraws
  | .drw x y n => f = .I ∨ f = .V x ∨ f = .V y ∨ (∃ k, k < n.toNat ∧ f = .mem (s.I.toNat + k)) ∨ ∃ c, f = .disp c
  | .skp x | .sknp x => f = .V x ∨ ∃ k, f = .key k
  | .ldVDt _ => f = .DT
  | .ldVK _ => ∃ k, f = .key k
  | .ldDtV x | .ldStV x | .ldFV x => f = .V x
  | .addIV x | .ldBV x => f = .I ∨ f = .V x
  | .ldMemV x => f = .I ∨ ∃ r : Reg, r ≤ x ∧ f = .V r
  | .ldVMem x => f = .I ∨ ∃ k, k ≤ x.val ∧ f = .mem (s.I.toNat + k)

end Sys2Proof
end

