-- ==== Sys2Proof/Certificates/Slice0/Obligations.lean ====
section
/-! DEFINITION. The statements for the provers, from the numbered rules of the spec.

Every statement about an instruction gives, in one place, its encoding, the next state `exec` answers, and the frame.
The yardsticks (`Frame`, `Advanced`, `FaultedWith`, …) are in Sys2Proof/Safety.lean. -/

open Sys2Proof Sys2Proof.Machine

/-! ### The step, decoding and encoding -/

/-- R91, R92, R93: the fetch check, the big-endian opcode, and the decoded instruction or the UnknownOpcode fault. -/
def Obligations.StepFetchesDecodesExecutes : Prop :=
  ∀ s : State, s.fault = none →
    (¬ s.fetchPasses → step s = .next (FaultedWith s .fetchFault s.pc.toNat)) ∧
    (s.fetchPasses →
      (∀ i, decode s.opcodeAt = .ok i → step s = exec i s) ∧
      (∀ e, decode s.opcodeAt = .error e → step s = .next (FaultedWith s .unknownOpcode s.opcodeAt.toNat)))

/-- R38, R90, R185, R200: a faulted block has no step, keeps its record under every host action but reset, and reset clears it. -/
def Obligations.FaultedBlockStepsOnlyAfterReset : Prop :=
  ∀ (s : State) (r : FaultRecord), s.fault = some r →
    step s = .fault (.halted r) ∧
    (∀ a : HostAction, a ≠ .reset → (a.apply s).fault = some r) ∧
    (HostAction.reset.apply s).fault = none

/-- R90, R180, R184: a running block always has a next state, whatever the instruction: a step stops only when the block has
faulted before it, and no instruction is refused. -/
def Obligations.RunningBlockAlwaysSteps : Prop :=
  ∀ s : State, (s.fault = none → ∃ t, step s = .next t) ∧ ∀ i, ∃ t, exec i s = .next t

/-- R70, R74: no bit of an encoding is dropped: every instruction decodes back from its word and from its two bytes. -/
def Obligations.DecodeOfEncode : Prop :=
  ∀ (i : Instr) (rest : List Byte),
    decode (encode i) = .ok i ∧ decodeBytes (encodeBytes i ++ rest) = .ok (i, rest)

/-- R74, R77: a word that decodes is the word of what it decodes to; any other word is UNKNOWN, with itself recorded. -/
def Obligations.EncodeOfDecode : Prop :=
  ∀ op : Word, (∃ i, decode op = .ok i ∧ encode i = op) ∨ decode op = .error (.unknownOpcode op)

/-- R76: a word decodes exactly when a row of the opcode table selects it; that row is the instruction's own, and the only one. -/
def Obligations.DecoderSelectsByTheTable : Prop :=
  ∀ op : Word,
    (∀ i, decode op = .ok i → i.row ∈ opcodeTable ∧ i.row.selects op = true) ∧
    (∀ r ∈ opcodeTable, r.selects op = true → ∃ i, decode op = .ok i ∧ i.row = r)

/-- R75, R77: the words that are no instruction, group by group. -/
def Obligations.UnknownWordsByGroup : Prop :=
  (∀ nnn : Addr12, nnn ≠ 0x0E0 → nnn ≠ 0x0EE → decode (0x0#4 ++ nnn) = .error (.unknownOpcode (0x0#4 ++ nnn))) ∧
  (∀ x y n : BitVec 4, n ≠ 0 →
    decode (0x5#4 ++ x ++ y ++ n) = .error (.unknownOpcode (0x5#4 ++ x ++ y ++ n)) ∧
    decode (0x9#4 ++ x ++ y ++ n) = .error (.unknownOpcode (0x9#4 ++ x ++ y ++ n))) ∧
  (∀ x y n : BitVec 4, 8 ≤ n.toNat → n ≠ 0xE →
    decode (0x8#4 ++ x ++ y ++ n) = .error (.unknownOpcode (0x8#4 ++ x ++ y ++ n))) ∧
  (∀ (x : BitVec 4) (nn : Byte), nn ≠ 0x9E → nn ≠ 0xA1 →
    decode (0xE#4 ++ x ++ nn) = .error (.unknownOpcode (0xE#4 ++ x ++ nn))) ∧
  (∀ (x : BitVec 4) (nn : Byte), nn.toNat ∉ [0x07, 0x0A, 0x15, 0x18, 0x1E, 0x29, 0x33, 0x55, 0x65] →
    decode (0xF#4 ++ x ++ nn) = .error (.unknownOpcode (0xF#4 ++ x ++ nn)))

/-- R79, R80: every instruction has an assembler line, well-formed, that assembles to its two bytes. -/
def Obligations.AssemblerLineOfEveryInstruction : Prop :=
  ∀ i : Instr, i.asm.wf = true ∧ assemble i.asm = some (encodeBytes i)

/-- R74: a word of each of the sixteen groups, written out from the encodings, and a word that is none. -/
def Obligations.WordsOfEachGroupDecode : Prop :=
  decode 0x00E0 = .ok .cls ∧ decode 0x00EE = .ok .ret ∧ decode 0x1234 = .ok (.jp 0x234) ∧ decode 0x2300 = .ok (.call 0x300) ∧
  decode 0x3342 = .ok (.seImm 3 0x42) ∧ decode 0x4541 = .ok (.sneImm 5 0x41) ∧ decode 0x5120 = .ok (.seReg 1 2) ∧
  decode 0x6A2F = .ok (.ldImm 10 0x2F) ∧ decode 0x7220 = .ok (.addImm 2 0x20) ∧ decode 0x8456 = .ok (.shr 4 5) ∧
  decode 0x9120 = .ok (.sneReg 1 2) ∧ decode 0xA2F0 = .ok (.ldI 0x2F0) ∧ decode 0xB5FE = .ok (.jpV0 0x5FE) ∧
  decode 0xC30F = .ok (.rnd 3 0x0F) ∧ decode 0xDF01 = .ok (.drw 15 0 1) ∧ decode 0xE1A1 = .ok (.sknp 1) ∧
  decode 0xF533 = .ok (.ldBV 5) ∧ decode 0x01E0 = .error (.unknownOpcode 0x01E0)

/-! ### Control transfer -/

/-- R110: RET. -/
def Obligations.RetPopsAndRunsTheEpilogue : Prop :=
  decode 0x00EE = .ok .ret ∧
  ∀ s : State,
    (s.sp = 0 → exec .ret s = .next (FaultedWith s .stackUnderflow 0)) ∧
    (s.sp ≠ 0 → ∃ t, exec .ret s = .next t ∧
      t.sp.val = s.sp.val - 1 ∧
      AdvancedTo s t (((s.getStack s.sp).toNat + 2) % 65536) s.DT s.ST (fun f => f = .sp))

/-- R111: JP nnn; a target the fetch does not accept faults at the next fetch. -/
def Obligations.JpJumpsWithNoEpilogue : Prop :=
  ∀ nnn : Addr12,
    decode (0x1#4 ++ nnn) = .ok (.jp nnn) ∧
    ∀ s : State, ∃ t, exec (.jp nnn) s = .next t ∧ t.pc.toNat = nnn.toNat ∧ Frame (fun f => f = .pc) s t ∧
      (s.fault = none → ¬ t.fetchPasses → step t = .next (FaultedWith t .fetchFault t.pc.toNat))

/-- R112: CALL nnn; the address pushed is the call's own. -/
def Obligations.CallPushesItsOwnAddress : Prop :=
  ∀ nnn : Addr12,
    decode (0x2#4 ++ nnn) = .ok (.call nnn) ∧
    ∀ s : State,
      (s.sp.val = 15 → exec (.call nnn) s = .next (FaultedWith s .stackOverflow 15)) ∧
      (∀ j : Fin 16, j.val = s.sp.val + 1 → ∃ t, exec (.call nnn) s = .next t ∧
        t.sp = j ∧ t.getStack j = s.pc ∧ t.pc.toNat = nnn.toNat ∧
        Frame (fun f => f = .sp ∨ f = .stack j ∨ f = .pc) s t ∧
        (s.fault = none → ¬ t.fetchPasses → step t = .next (FaultedWith t .fetchFault t.pc.toNat)))

/-- R113: JP V0, nnn: always `V[0]`, and the target is at most 0x10FE. -/
def Obligations.JpV0AddsV0 : Prop :=
  ∀ nnn : Addr12,
    decode (0xB#4 ++ nnn) = .ok (.jpV0 nnn) ∧
    ∀ s : State, ∃ t, exec (.jpV0 nnn) s = .next t ∧
      t.pc.toNat = (s.getV 0).toNat + nnn.toNat ∧ t.pc.toNat ≤ 0x10FE ∧ Frame (fun f => f = .pc) s t ∧
      (s.fault = none → ¬ t.fetchPasses → step t = .next (FaultedWith t .fetchFault t.pc.toNat))

/-- R115: a jump completes whatever its target, and its own writes stand: `pc` is the target as it is, and a call's `sp` and stack
entry are written.  A target the fetch does not accept faults one step late, with that target recorded. -/
def Obligations.BadJumpTargetFaultsOneStepLate : Prop :=
  ∀ (i : Instr) (s : State), i.jumps → s.fault = none → ((∃ nnn, i = .call nnn) → s.sp.val < 15) →
    ∃ t, exec i s = .next t ∧ t.fault = none ∧ Frame (i.writes s) s t ∧
      (∀ nnn, i = .jp nnn → t.pc.toNat = nnn.toNat) ∧
      (∀ nnn, i = .call nnn → t.pc.toNat = nnn.toNat ∧ t.sp.val = s.sp.val + 1 ∧ t.getStack t.sp = s.pc) ∧
      (∀ nnn, i = .jpV0 nnn → t.pc.toNat = (s.getV 0).toNat + nnn.toNat) ∧
      (¬ t.fetchPasses → step t = .next (FaultedWith t .fetchFault t.pc.toNat))

/-- R110, R112, R206: call then return goes on after the call, with the stack pointer back, and one timer decrement in all. -/
def Obligations.CallThenReturnIsSequential : Prop :=
  ∀ (nnn p : Addr12) (s : State), s.sp.val < 15 →
    ∃ t, exec (.call nnn) s = .next t ∧
      ∃ u, exec .ret (t.setPc (p.setWidth 16)) = .next u ∧
        AdvancedTo s u (s.pcPlus 2) s.DT s.ST (fun f => ∃ j : Fin 16, j.val = s.sp.val + 1 ∧ f = .stack j)

/-- R121, R122, R123, R124: the four comparison skips. -/
def Obligations.ComparisonSkips : Prop :=
  (∀ (x : Reg) (nn : Byte),
    decode (0x3#4 ++ regBits x ++ nn) = .ok (.seImm x nn) ∧ SkipsWhen (.seImm x nn) (fun s => (s.getV x).toNat = nn.toNat) ∧
    decode (0x4#4 ++ regBits x ++ nn) = .ok (.sneImm x nn) ∧ SkipsWhen (.sneImm x nn) (fun s => (s.getV x).toNat ≠ nn.toNat)) ∧
  (∀ x y : Reg,
    decode (0x5#4 ++ regBits x ++ regBits y ++ 0x0#4) = .ok (.seReg x y) ∧
    SkipsWhen (.seReg x y) (fun s => (s.getV x).toNat = (s.getV y).toNat) ∧
    decode (0x9#4 ++ regBits x ++ regBits y ++ 0x0#4) = .ok (.sneReg x y) ∧
    SkipsWhen (.sneReg x y) (fun s => (s.getV x).toNat ≠ (s.getV y).toNat))

/-- R170, R171: the two key skips, and the fault on a value above 15. -/
def Obligations.KeySkips : Prop :=
  ∀ x : Reg,
    decode (0xE#4 ++ regBits x ++ 0x9E#8) = .ok (.skp x) ∧ decode (0xE#4 ++ regBits x ++ 0xA1#8) = .ok (.sknp x) ∧
    ∀ s : State,
      (15 < (s.getV x).toNat →
        exec (.skp x) s = .next (FaultedWith s .keyIndexOutOfRange (s.getV x).toNat) ∧
        exec (.sknp x) s = .next (FaultedWith s .keyIndexOutOfRange (s.getV x).toNat)) ∧
      ((s.getV x).toNat ≤ 15 → ∃ t u, exec (.skp x) s = .next t ∧ exec (.sknp x) s = .next u ∧
        (s.key (s.getV x).toNat = true →
          AdvancedTo s t (s.pcPlus 4) s.DT s.ST (fun _ => False) ∧ AdvancedTo s u (s.pcPlus 2) s.DT s.ST (fun _ => False)) ∧
        (s.key (s.getV x).toNat = false →
          AdvancedTo s t (s.pcPlus 2) s.DT s.ST (fun _ => False) ∧ AdvancedTo s u (s.pcPlus 4) s.DT s.ST (fun _ => False)))

/-! ### Loads and ALU -/

/-- R132, R134: the two loads. -/
def Obligations.RegisterLoads : Prop :=
  (∀ (x : Reg) (nn : Byte), decode (0x6#4 ++ regBits x ++ nn) = .ok (.ldImm x nn) ∧
    ∀ s : State, ∃ t, exec (.ldImm x nn) s = .next t ∧ t.getV x = nn ∧ Advanced s t (fun f => f = .V x)) ∧
  (∀ x y : Reg, decode (0x8#4 ++ regBits x ++ regBits y ++ 0x0#4) = .ok (.ldReg x y) ∧
    ∀ s : State, ∃ t, exec (.ldReg x y) s = .next t ∧ t.getV x = s.getV y ∧ Advanced s t (fun f => f = .V x))

/-- R133: ADD Vx, nn wraps and writes no flag. -/
def Obligations.AddImmediateWrapsWithNoFlag : Prop :=
  ∀ (x : Reg) (nn : Byte), decode (0x7#4 ++ regBits x ++ nn) = .ok (.addImm x nn) ∧
    ∀ s : State, ∃ t, exec (.addImm x nn) s = .next t ∧
      (t.getV x).toNat = ((s.getV x).toNat + nn.toNat) % 256 ∧ Advanced s t (fun f => f = .V x)

/-- R135, R136, R137: the bitwise instructions, bit by bit; `VF` is not reset. -/
def Obligations.BitwiseInstructions : Prop :=
  ∀ x y : Reg,
    decode (0x8#4 ++ regBits x ++ regBits y ++ 0x1#4) = .ok (.or x y) ∧
    decode (0x8#4 ++ regBits x ++ regBits y ++ 0x2#4) = .ok (.and x y) ∧
    decode (0x8#4 ++ regBits x ++ regBits y ++ 0x3#4) = .ok (.xor x y) ∧
    ∀ s : State,
      (∃ t, exec (.or x y) s = .next t ∧ Advanced s t (fun f => f = .V x) ∧
        ∀ k, (t.getV x).getLsbD k = ((s.getV x).getLsbD k || (s.getV y).getLsbD k)) ∧
      (∃ t, exec (.and x y) s = .next t ∧ Advanced s t (fun f => f = .V x) ∧
        ∀ k, (t.getV x).getLsbD k = ((s.getV x).getLsbD k && (s.getV y).getLsbD k)) ∧
      (∃ t, exec (.xor x y) s = .next t ∧ Advanced s t (fun f => f = .V x) ∧
        ∀ k, (t.getV x).getLsbD k = ((s.getV x).getLsbD k ^^ (s.getV y).getLsbD k))

/-- R138: ADD Vx, Vy: the wrapped sum, and the carry unless x is `VF`. -/
def Obligations.AddSetsCarry : Prop :=
  ∀ x y : Reg, decode (0x8#4 ++ regBits x ++ regBits y ++ 0x4#4) = .ok (.addReg x y) ∧
    ∀ s : State, ∃ t, exec (.addReg x y) s = .next t ∧
      (t.getV x).toNat = ((s.getV x).toNat + (s.getV y).toNat) % 256 ∧
      (x ≠ VF → (t.getV VF).toNat = if (s.getV x).toNat + (s.getV y).toNat > 255 then 1 else 0) ∧
      Advanced s t (fun f => f = .V x ∨ f = .V VF)

/-- R139: SUB Vx, Vy: `f` is the strict comparison; the difference reads what the flag write left. -/
def Obligations.SubSetsNotBorrowFirst : Prop :=
  ∀ x y : Reg, decode (0x8#4 ++ regBits x ++ regBits y ++ 0x5#4) = .ok (.sub x y) ∧
    ∀ s : State, ∃ t, exec (.sub x y) s = .next t ∧
      Advanced s t (fun f => f = .V x ∨ f = .V VF) ∧
      ∀ a b f : Nat, a = (s.getV x).toNat → b = (s.getV y).toNat → f = (if a > b then 1 else 0) →
        (x ≠ VF → (t.getV VF).toNat = f) ∧
        (x = y → (t.getV x).toNat = 0) ∧
        (x ≠ y → x ≠ VF → y ≠ VF → (t.getV x).toNat = (a + (256 - b)) % 256) ∧
        (x ≠ y → x = VF → (t.getV x).toNat = (f + (256 - b)) % 256) ∧
        (x ≠ y → y = VF → (t.getV x).toNat = (a + (256 - f)) % 256)

/-- R141: SUBN Vx, Vy, the other way round. -/
def Obligations.SubnSetsNotBorrowFirst : Prop :=
  ∀ x y : Reg, decode (0x8#4 ++ regBits x ++ regBits y ++ 0x7#4) = .ok (.subn x y) ∧
    ∀ s : State, ∃ t, exec (.subn x y) s = .next t ∧
      Advanced s t (fun f => f = .V x ∨ f = .V VF) ∧
      ∀ a b f : Nat, a = (s.getV x).toNat → b = (s.getV y).toNat → f = (if b > a then 1 else 0) →
        (x ≠ VF → (t.getV VF).toNat = f) ∧
        (x = y → (t.getV x).toNat = 0) ∧
        (x ≠ y → x ≠ VF → y ≠ VF → (t.getV x).toNat = (b + (256 - a)) % 256) ∧
        (x ≠ y → x = VF → (t.getV x).toNat = (b + (256 - f)) % 256) ∧
        (x ≠ y → y = VF → (t.getV x).toNat = (f + (256 - a)) % 256)

/-- R140: SHR Vx, in place; `y` plays no part; `VF` shifts itself to 0. -/
def Obligations.ShrShiftsInPlace : Prop :=
  ∀ x y : Reg, decode (0x8#4 ++ regBits x ++ regBits y ++ 0x6#4) = .ok (.shr x y) ∧
    ∀ s : State, ∃ t, exec (.shr x y) s = .next t ∧
      (x ≠ VF → (t.getV x).toNat = (s.getV x).toNat / 2 ∧ (t.getV VF).toNat = (s.getV x).toNat % 2) ∧
      (x = VF → (t.getV VF).toNat = 0) ∧
      Advanced s t (fun f => f = .V x ∨ f = .V VF)

/-- R142: SHL Vx, in place; `y` plays no part; `VF` ends 0 or 2. -/
def Obligations.ShlShiftsInPlace : Prop :=
  ∀ x y : Reg, decode (0x8#4 ++ regBits x ++ regBits y ++ 0xE#4) = .ok (.shl x y) ∧
    ∀ s : State, ∃ t, exec (.shl x y) s = .next t ∧
      (x ≠ VF → (t.getV x).toNat = (s.getV x).toNat * 2 % 256 ∧ (t.getV VF).toNat = (s.getV x).toNat / 128) ∧
      (x = VF → (t.getV VF).toNat = (s.getV x).toNat / 128 * 2) ∧
      Advanced s t (fun f => f = .V x ∨ f = .V VF)

/-- R143: RND Vx, nn, for every random byte the state may hold; the byte is used up (the model's own fields). -/
def Obligations.RndMasksTheRandomByte : Prop :=
  ∀ (x : Reg) (nn : Byte), decode (0xC#4 ++ regBits x ++ nn) = .ok (.rnd x nn) ∧
    ∀ (s : State) (b : Byte), ∃ t, exec (.rnd x nn) { s with rnd := b } = .next t ∧
      (∀ k, (t.getV x).getLsbD k = (b.getLsbD k && nn.getLsbD k)) ∧
      Advanced s t (fun f => f = .V x ∨ f = .rnd ∨ f = .rndDraws)

/-- R100: no other instruction reads the random byte: with another byte presented the next state is the same but for that byte. -/
def Obligations.OnlyRndReadsTheRandomByte : Prop :=
  ∀ (i : Instr) (s t : State) (b : Byte), (∀ x nn, i ≠ .rnd x nn) → exec i s = .next t →
    exec i { s with rnd := b } = .next { t with rnd := b }

/-! ### Index register and memory -/

/-- R150, R152: the two loads of `I`: an address, and the address of the glyph a register's value names, unmasked. -/
def Obligations.IndexLoads : Prop :=
  (∀ nnn : Addr12, decode (0xA#4 ++ nnn) = .ok (.ldI nnn) ∧
    ∀ s : State, ∃ t, exec (.ldI nnn) s = .next t ∧ t.I.toNat = nnn.toNat ∧ Advanced s t (fun f => f = .I)) ∧
  (∀ x : Reg, decode (0xF#4 ++ regBits x ++ 0x29#8) = .ok (.ldFV x) ∧
    ∀ s : State, ∃ t, exec (.ldFV x) s = .next t ∧ t.I.toNat = (s.getV x).toNat * 5 ∧ Advanced s t (fun f => f = .I))

/-- R151: ADD I, Vx: the flag from the exact sum; with x = VF, `I` advances by the flag. -/
def Obligations.AddIndexFlagsPast0xFFF : Prop :=
  ∀ x : Reg, decode (0xF#4 ++ regBits x ++ 0x1E#8) = .ok (.addIV x) ∧
    ∀ s : State, ∃ t, exec (.addIV x) s = .next t ∧
      Advanced s t (fun f => f = .V VF ∨ f = .I) ∧
      ∀ f : Nat, f = (if s.I.toNat + (s.getV x).toNat > 0xFFF then 1 else 0) →
        (t.getV VF).toNat = f ∧
        (x ≠ VF → t.I.toNat = (s.I.toNat + (s.getV x).toNat) % 65536) ∧
        (x = VF → t.I.toNat = (s.I.toNat + f) % 65536)

/-- R153: LD B, Vx: the three digits, or the fault of the first access that fails. -/
def Obligations.BcdStoresThreeDigits : Prop :=
  ∀ x : Reg, decode (0xF#4 ++ regBits x ++ 0x33#8) = .ok (.ldBV x) ∧
    ∀ s : State,
      (s.I.toNat < 0x200 → exec (.ldBV x) s = .next (FaultedWith s .reservedWrite s.I.toNat)) ∧
      (0xFFF < s.I.toNat + 2 → exec (.ldBV x) s = .next (FaultedWith s .memoryOutOfRange (max s.I.toNat 0x1000))) ∧
      (0x200 ≤ s.I.toNat → s.I.toNat + 2 ≤ 0xFFF → ∃ t, exec (.ldBV x) s = .next t ∧
        (t.mem.read (effectiveAddr s 0)).toNat = (s.getV x).toNat / 100 ∧
        (t.mem.read (effectiveAddr s 1)).toNat = (s.getV x).toNat / 10 % 10 ∧
        (t.mem.read (effectiveAddr s 2)).toNat = (s.getV x).toNat % 10 ∧
        Advanced s t (fun f => ∃ k, k < 3 ∧ f = .mem (effectiveAddr s k)))

/-- R154: LD [I], Vx: the registers in ascending addresses and `I` past them, or the fault of the first access that fails. -/
def Obligations.StoreRegistersAscending : Prop :=
  ∀ x : Reg, decode (0xF#4 ++ regBits x ++ 0x55#8) = .ok (.ldMemV x) ∧
    ∀ s : State,
      (s.I.toNat < 0x200 → exec (.ldMemV x) s = .next (FaultedWith s .reservedWrite s.I.toNat)) ∧
      (0xFFF < s.I.toNat + x.val → exec (.ldMemV x) s = .next (FaultedWith s .memoryOutOfRange (max s.I.toNat 0x1000))) ∧
      (0x200 ≤ s.I.toNat → s.I.toNat + x.val ≤ 0xFFF → ∃ t, exec (.ldMemV x) s = .next t ∧
        (∀ r : Reg, r ≤ x → t.mem.read (effectiveAddr s r.val) = s.getV r) ∧
        t.I.toNat = s.I.toNat + x.val + 1 ∧
        Advanced s t (fun f => f = .I ∨ ∃ k, k ≤ x.val ∧ f = .mem (effectiveAddr s k)))

/-- R155: LD Vx, [I]: the bytes in ascending registers and `I` past them, or the fault of the first access that fails. -/
def Obligations.LoadRegistersAscending : Prop :=
  ∀ x : Reg, decode (0xF#4 ++ regBits x ++ 0x65#8) = .ok (.ldVMem x) ∧
    ∀ s : State,
      (0xFFF < s.I.toNat + x.val → exec (.ldVMem x) s = .next (FaultedWith s .memoryOutOfRange (max s.I.toNat 0x1000))) ∧
      (s.I.toNat + x.val ≤ 0xFFF → ∃ t, exec (.ldVMem x) s = .next t ∧
        (∀ r : Reg, r ≤ x → t.getV r = s.mem.read (effectiveAddr s r.val)) ∧
        t.I.toNat = s.I.toNat + x.val + 1 ∧
        Advanced s t (fun f => f = .I ∨ ∃ r : Reg, r ≤ x ∧ f = .V r))

/-! ### Memory -/

/-- R53, R54: the checks of every access, and what an access that passes them reads or leaves. -/
def Obligations.MemoryAccessChecks : Prop :=
  ∀ (s : State) (a : Nat) (v : Byte),
    (0xFFF < a →
      s.memRead a = .error ⟨.memoryOutOfRange, a⟩ ∧ s.memWrite a v = .error ⟨.memoryOutOfRange, a⟩) ∧
    (a < 0x200 → s.memWrite a v = .error ⟨.reservedWrite, a⟩) ∧
    (a ≤ 0xFFF → s.memRead a = .ok (s.mem.read a)) ∧
    (0x200 ≤ a → a ≤ 0xFFF → ∃ t, s.memWrite a v = .ok t ∧ t.mem.read a = v ∧ Frame (fun f => f = .mem a) s t)

/-- R61, R205: a write is seen by the next fetch of that address: the fetched opcode has the new byte in its place. -/
def Obligations.WriteSeenByNextFetch : Prop :=
  ∀ (s t : State) (a : Nat) (v : Byte), s.memWrite a v = .ok t → s.fetchPasses →
    (a = s.pc.toNat → t.fetch = .ok (v ++ s.mem.read (s.pc.toNat + 1))) ∧
    (a = s.pc.toNat + 1 → t.fetch = .ok (s.mem.read s.pc.toNat ++ v)) ∧
    (a ≠ s.pc.toNat → a ≠ s.pc.toNat + 1 → t.fetch = s.fetch)

/-- R51, R54: no step writes a byte below 0x200: the font and the bytes under the program stay as they are. -/
def Obligations.LowMemoryIsNeverWritten : Prop :=
  ∀ s t : State, step s = .next t → ∀ a, a < 0x200 → t.mem.read a = s.mem.read a

/-- The model's own form (log entry 3): two canonical memories that read alike are equal. -/
def Obligations.EqualReadsAreEqualMemories : Prop :=
  ∀ m m' : Memory, m.wf = true → m'.wf = true → (∀ a, m.read a = m'.read a) → m = m'

/-! ### Display -/

/-- R160: CLS. -/
def Obligations.ClsClearsTheDisplay : Prop :=
  decode 0x00E0 = .ok .cls ∧
  ∀ s : State, ∃ t, exec .cls s = .next t ∧ (∀ c, c < 2048 → t.cell c = false) ∧ t.needDraw = true ∧
    Advanced s t (fun f => f = .needDraw ∨ ∃ c, f = .disp c)

/-- R161, R164, R165, R186, for every form: DRW is the drawing of its set bits one by one in raster order, over the rows that can
be read; the first cell past 2047, or else the first row past 0xFFF, is the fault. -/
def Obligations.DrwDrawsSetBitsInRasterOrder : Prop :=
  ∀ (x y : Reg) (n : Nibble), decode (0xD#4 ++ regBits x ++ regBits y ++ n) = .ok (.drw x y n) ∧
    ∀ (s : State) (rows : Nat), rows = min n.toNat (0x1000 - s.I.toNat) →
      (∀ c, drawPixels x y (s.rasterPixels rows) s = .error c →
        exec (.drw x y n) s = .next (FaultedWith s .displayOutOfRange c)) ∧
      (∀ u, drawPixels x y (s.rasterPixels rows) s = .ok u →
        (rows < n.toNat → exec (.drw x y n) s = .next (FaultedWith s .memoryOutOfRange (s.I.toNat + rows))) ∧
        (rows = n.toNat → ∃ t, exec (.drw x y n) s = .next t ∧
          (∀ r, t.getV r = u.getV r) ∧ (∀ c, t.cell c = u.cell c) ∧ t.needDraw = true ∧
          Advanced s t (fun f => f = .V VF ∨ f = .needDraw ∨ ∃ c, f = .disp c)))

/-- R161, R162, R163: a sprite at two registers other than `VF` that fits flips exactly the cells its set bits land in, and `VF`
is the old value of the last of them, or unchanged when no bit is set. -/
def Obligations.DrwFlipsExactlyTheSprite : Prop :=
  ∀ (x y : Reg) (n : Nibble) (s : State), x ≠ VF → y ≠ VF → s.spriteFits x y n →
    ∃ t, exec (.drw x y n) s = .next t ∧
      (∀ c, s.spriteHits x y n c → t.cell c = !s.cell c) ∧
      (∀ c, ¬ s.spriteHits x y n c → t.cell c = s.cell c) ∧
      (∀ Y X, s.lastSet n Y X → (t.getV VF).toNat = if s.cell (s.pixelCell x y Y X) then 1 else 0) ∧
      ((∀ Y X, ¬ s.spriteSet n Y X) → t.getV VF = s.getV VF) ∧
      t.needDraw = true ∧
      Advanced s t (fun f => f = .V VF ∨ f = .needDraw ∨ ∃ c, f = .disp c)

/-- R164: a set bit past cell 2047, with every row readable and no `VF` operand, faults with the first such cell, and nothing of
the draw remains. -/
def Obligations.DrwPastTheDisplayFaults : Prop :=
  ∀ (x y : Reg) (n : Nibble) (s : State) (Y X : Nat), x ≠ VF → y ≠ VF →
    (∀ Z, Z < n.toNat → s.I.toNat + Z ≤ 0xFFF) →
    s.spriteSet n Y X → 2047 < s.pixelCell x y Y X →
    (∀ Y' X', s.spriteSet n Y' X' → Y' < Y ∨ Y' = Y ∧ X' < X → s.pixelCell x y Y' X' ≤ 2047) →
    exec (.drw x y n) s = .next (FaultedWith s .displayOutOfRange (s.pixelCell x y Y X))

/-- R166: drawing the same sprite twice restores the display, and `VF` is then the complement of the value the last toggled cell
held before the first draw. -/
def Obligations.DrawingTwiceRestoresTheDisplay : Prop :=
  ∀ (x y : Reg) (n : Nibble) (s t : State) (p : Word), x ≠ VF → y ≠ VF → s.fault = none →
    exec (.drw x y n) s = .next t → t.fault = none →
    ∃ u, exec (.drw x y n) (t.setPc p) = .next u ∧ u.fault = none ∧ u.disp = s.disp ∧
      (∀ Y X, s.lastSet n Y X → (u.getV VF).toNat = if s.cell (s.pixelCell x y Y X) then 0 else 1) ∧
      ((∀ Y X, ¬ s.spriteSet n Y X) → u.getV VF = s.getV VF)

/-! ### Keys and timers -/

/-- R173: LD Vx, K: the lowest pressed key, or Waiting with nothing changed at all. -/
def Obligations.KeyWaitTakesTheLowestKey : Prop :=
  ∀ x : Reg, decode (0xF#4 ++ regBits x ++ 0x0A#8) = .ok (.ldVK x) ∧
    ∀ s : State,
      ((∀ k, k < 16 → s.key k = false) → exec (.ldVK x) s = .next s) ∧
      (∀ k, k < 16 → s.key k = true → (∀ j, j < k → s.key j = false) →
        ∃ t, exec (.ldVK x) s = .next t ∧ (t.getV x).toNat = k ∧ Advanced s t (fun f => f = .V x))

/-- R172, R174, R175: the timer read takes the value before this step's decrement, and a timer write is decremented in the same
step, with the beep when the sound timer was set to 1. -/
def Obligations.TimerReadsAndWrites : Prop :=
  ∀ x : Reg,
    decode (0xF#4 ++ regBits x ++ 0x07#8) = .ok (.ldVDt x) ∧
    decode (0xF#4 ++ regBits x ++ 0x15#8) = .ok (.ldDtV x) ∧
    decode (0xF#4 ++ regBits x ++ 0x18#8) = .ok (.ldStV x) ∧
    ∀ s : State,
      (∃ t, exec (.ldVDt x) s = .next t ∧ t.getV x = s.DT ∧ Advanced s t (fun f => f = .V x)) ∧
      (∃ t, exec (.ldDtV x) s = .next t ∧ AdvancedTo s t (s.pcPlus 2) (s.getV x) s.ST (fun _ => False)) ∧
      (∃ t, exec (.ldStV x) s = .next t ∧ AdvancedTo s t (s.pcPlus 2) s.DT (s.getV x) (fun _ => False))

/-- R96, R97: Advanced runs the epilogue on what execute left; Jumped and Waiting end the step as execute left it. -/
def Obligations.EpilogueRunsExactlyWhenAdvanced : Prop :=
  ∀ s₀ s : State,
    (∃ t, finish s₀ (.ok (.advanced s)) = .next t ∧ Advanced s t (fun _ => False)) ∧
    finish s₀ (.ok (.jumped s)) = .next s ∧ finish s₀ (.ok (.waiting s)) = .next s

/-- R98: the timers fall by at most one in a step, and only in a step that is no jump, no wait and no fault. -/
def Obligations.TimersMoveOnlyWhenAdvanced : Prop :=
  ∀ (i : Instr) (s t : State), s.fault = none → exec i s = .next t →
    (i.jumps ∨ t.fault ≠ none ∨ (∃ x, i = .ldVK x ∧ ∀ k, s.key k = false) →
      t.DT = s.DT ∧ t.ST = s.ST ∧ t.playBeep = s.playBeep) ∧
    (¬ i.jumps → t.fault = none → ¬ (∃ x, i = .ldVK x ∧ ∀ k, s.key k = false) →
      ((∀ x, i ≠ .ldDtV x) → t.DT.toNat = s.DT.toNat - 1) ∧ ((∀ x, i ≠ .ldStV x) → t.ST.toNat = s.ST.toNat - 1))

/-! ### Faults -/

/-- R183: a fault is precise and all-or-nothing. -/
def Obligations.FaultIsPrecise : Prop :=
  ∀ s t : State, s.fault = none → step s = .next t → t.fault ≠ none → ∃ kind info, t = FaultedWith s kind info

/-- R180: what a fault of a step records, by its cause: the fetch, the decode, or the one check of the instruction that failed. -/
def Obligations.FaultCauses : Prop :=
  ∀ (s t : State) (r : FaultRecord), s.fault = none → step s = .next t → t.fault = some r →
    r.pc = s.pc ∧
    ((r.kind = .fetchFault ∧ ¬ s.fetchPasses ∧ r.info = s.pc.toNat) ∨
     (r.kind = .unknownOpcode ∧ s.fetchPasses ∧ (∀ i, decode s.opcodeAt ≠ .ok i) ∧ r.info = s.opcodeAt.toNat) ∨
     ∃ i, s.fetchPasses ∧ decode s.opcodeAt = .ok i ∧
       ((r.kind = .stackOverflow ∧ (∃ nnn, i = .call nnn) ∧ s.sp.val = 15 ∧ r.info = 15) ∨
        (r.kind = .stackUnderflow ∧ i = .ret ∧ s.sp.val = 0 ∧ r.info = 0) ∨
        (r.kind = .memoryOutOfRange ∧ ((∃ x y n, i = .drw x y n) ∨ ∃ x, i = .ldBV x ∨ i = .ldMemV x ∨ i = .ldVMem x) ∧
           r.info = max s.I.toNat 0x1000) ∨
        (r.kind = .reservedWrite ∧ (∃ x, i = .ldBV x ∨ i = .ldMemV x) ∧ r.info = s.I.toNat ∧ r.info < 0x200) ∨
        (r.kind = .displayOutOfRange ∧ (∃ x y n, i = .drw x y n) ∧ 2047 < r.info ∧ r.info ≤ 17478) ∨
        (r.kind = .keyIndexOutOfRange ∧ ∃ x, (i = .skp x ∨ i = .sknp x) ∧ r.info = (s.getV x).toNat ∧ 15 < r.info)))

/-! ### The whole machine -/

/-- R23, the "writes" column: an instruction changes nothing but its row of the table, the epilogue's fields, and `fault`; a jump
does not touch the epilogue's other fields, and a fault touches nothing else. -/
def Obligations.InstructionsWriteOnlyTheirRow : Prop :=
  ∀ (i : Instr) (s t : State), exec i s = .next t →
    Frame (fun f => i.writes s f ∨ (¬ i.jumps ∧ epilogueField f) ∨ f = .fault) s t ∧
    (t.fault = s.fault ∨ Frame (fun f => f = .fault) s t)

/-- R23, the "reads" column: two states that agree on what an instruction reads and on the epilogue's fields have next states that
agree on every field it writes: each field agrees, or both runs left it as it was. -/
def Obligations.InstructionsReadOnlyTheirRow : Prop :=
  ∀ (i : Instr) (s s' t t' : State),
    (∀ f, i.reads s f ∨ epilogueField f → f.same s s') → exec i s = .next t → exec i s' = .next t' →
    ∀ f : Field, f.same t t' ∨ (f.same s t ∧ f.same s' t')

/-- R101: a step never clears the two outputs and never writes a key latch. -/
def Obligations.StepNeverClearsOutputsOrWritesKeys : Prop :=
  ∀ s t : State, step s = .next t →
    (s.needDraw = true → t.needDraw = true) ∧ (s.playBeep = true → t.playBeep = true) ∧ t.keys = s.keys

/-- R213, R206: at a spinning point and at a waiting point a step leaves the whole state as it is. -/
def Obligations.SpinningAndWaitingPointsAreFixed : Prop :=
  ∀ s : State, s.spinning ∨ s.waiting → step s = .next s

/-- R40: every field of the block at reset, whatever the font; the default font (log entry 2) plays no part. -/
def Obligations.ResetValues : Prop :=
  (∀ font : Vector Byte 80, ∀ s : State, s = State.resetWith font →
    (∀ a, ∀ h : a < 80, s.mem.read a = font[a]) ∧ (∀ a, 80 ≤ a → s.mem.read a = 0) ∧
    (∀ r, s.getV r = 0) ∧ s.I = 0 ∧ s.pc = 0x200 ∧ (∀ j, s.getStack j = 0) ∧ s.sp = 0 ∧ s.DT = 0 ∧ s.ST = 0 ∧
    (∀ c, s.cell c = false) ∧ (∀ k, s.key k = false) ∧ s.needDraw = false ∧ s.playBeep = false ∧ s.fault = none) ∧
  ∃ font, State.reset = State.resetWith font

/-- R201, R202: boot: reset with the image at 0x200, or no start when the image is over 3584 bytes. -/
def Obligations.BootPlacesTheImage : Prop :=
  ∀ (font : Vector Byte 80) (image : List Byte),
    (3584 < image.length → boot font image = none) ∧
    (image.length ≤ 3584 → ∃ s, boot font image = some s ∧
      (∀ k, ∀ h : k < image.length, s.mem.read (0x200 + k) = image[k]) ∧
      (∀ a, 0x200 + image.length ≤ a → s.mem.read a = 0) ∧
      s.pc = 0x200 ∧ s.fault = none ∧
      Frame (fun f => ∃ k, k < image.length ∧ f = .mem (0x200 + k)) (State.resetWith font) s)

/-- R210, R41, R211: what each host action touches.  The random input is the model's own (log entry 1), and reset leaves it as it
is and keeps the font (log entry 6). -/
def Obligations.HostActionsTouchOnlyTheirFields : Prop :=
  ∀ s : State,
    (∀ (k : Fin 16) (p : Bool), ((HostAction.setKey k p).apply s).key k = p ∧
      Frame (fun f => f = .key k) s ((HostAction.setKey k p).apply s)) ∧
    ((HostAction.consumeRedraw.apply s).needDraw = false ∧ Frame (fun f => f = .needDraw) s (HostAction.consumeRedraw.apply s)) ∧
    ((HostAction.consumeBeep.apply s).playBeep = false ∧ Frame (fun f => f = .playBeep) s (HostAction.consumeBeep.apply s)) ∧
    (∀ b, ((HostAction.supplyRnd b).apply s).rnd = b ∧ Frame (fun f => f = .rnd) s ((HostAction.supplyRnd b).apply s)) ∧
    (∀ image, (∀ k, ∀ h : k < image.length, ((HostAction.loadImage image).apply s).mem.read (0x200 + k) = image[k]) ∧
      Frame (fun f => ∃ k, k < image.length ∧ f = .mem (0x200 + k)) s ((HostAction.loadImage image).apply s)) ∧
    (Frame (fun f => f = .rnd ∨ f = .rndDraws) (State.resetWith s.mem.font) (HostAction.reset.apply s) ∧
      (HostAction.reset.apply s).rnd = s.rnd ∧ (HostAction.reset.apply s).rndDraws = s.rndDraws)

/-- The invariant holds at reset, whatever the font, and there is no fault record.  Its memory clause is the model's own form (log
entry 3). -/
def Obligations.ResetMeetsTheInvariant : Prop :=
  ∀ font : Vector Byte 80, (State.resetWith font).Inv ∧ (State.resetWith font).fault = none

/-- R25, R29, R180, R183: every step keeps the invariant: canonical memory (the model's own form, log entry 3), `pc` at most 0x10FE, a
stack of call addresses, and a legal fault record made at this `pc`. -/
def Obligations.StepKeepsTheInvariant : Prop := ∀ s t : State, s.Inv → step s = .next t → t.Inv

/-- R41, R201, R209 to R211: the invariant (its memory clause is log entry 3's form) holds of everything the block and its host can
reach. -/
def Obligations.ReachableStatesMeetTheInvariant : Prop := ∀ c : Session, c.Reachable → c.block.Inv

/-- R41, R201, R210: the host loads an image only between a reset and the first step after it, and only one of at most 3584 bytes; a
step ends that time, and after a reset an image can be loaded again: that is a new boot with the block's own font, the random input
kept (log entries 1, 6, 7). -/
def Obligations.ImageLoadsOnlyBetweenResetAndFirstStep : Prop :=
  (∀ (c : Session) (image : List Byte),
    (c.fresh = false ∨ 3584 < image.length → (Event.host (.loadImage image)).apply c = none) ∧
    (c.fresh = true → image.length ≤ 3584 →
      (Event.host (.loadImage image)).apply c =
        some (.next { block := (HostAction.loadImage image).apply c.block, fresh := true }))) ∧
  (∀ c d : Session, Event.step.apply c = some (.next d) → step c.block = .next d.block ∧ d.fresh = false) ∧
  (∀ (c d : Session) (a : HostAction), (Event.host a).apply c = some (.next d) →
    d.block = a.apply c.block ∧ (a = .reset → d.fresh = true) ∧ (a ≠ .reset → d.fresh = c.fresh)) ∧
  (∀ (c : Session) (image : List Byte) (s : State), boot c.block.mem.font image = some s →
    runSchedule [.host .reset, .host (.loadImage image)] c =
      some (.next { block := { s with rnd := c.block.rnd, rndDraws := c.block.rndDraws }, fresh := true }))
end

