-- ==== Sys2Proof/Laws/Decode.lean ====
section
/-! SUPPORT. The fields of an encoded word, and what the decoder does with each group: the lemmas the round trip is built from. -/

namespace Sys2Proof

@[simp] theorem regOfBits_regBits (r : Reg) : regOfBits (regBits r) = r := by
  apply Fin.ext
  simp [regOfBits, regBits]

@[simp] theorem regBits_regOfBits (b : BitVec 4) : regBits (regOfBits b) = b := by
  simp [regOfBits, regBits]

/-! ### Words and fields as numbers -/

theorem append_toNat {v w : Nat} (a : BitVec v) (b : BitVec w) : (a ++ b).toNat = a.toNat * 2 ^ w + b.toNat := by
  rw [BitVec.toNat_append, ← Nat.shiftLeft_add_eq_or_of_lt b.isLt, Nat.shiftLeft_eq]

theorem regBits_toNat (r : Reg) : (regBits r).toNat = r.val := by
  have := r.isLt
  simp [regBits]

theorem encA_toNat (g : BitVec 4) (nnn : Addr12) : (encA g nnn).toNat = g.toNat * 4096 + nnn.toNat :=
  append_toNat g nnn

theorem encXNN_toNat (g : BitVec 4) (x : Reg) (nn : Byte) :
    (encXNN g x nn).toNat = g.toNat * 4096 + x.val * 256 + nn.toNat := by
  refine (append_toNat (g ++ regBits x) nn).trans ?_
  rw [append_toNat, regBits_toNat]
  omega

theorem encXYN_toNat (g : BitVec 4) (x y : Reg) (n : Nibble) :
    (encXYN g x y n).toNat = g.toNat * 4096 + x.val * 256 + y.val * 16 + n.toNat := by
  refine (append_toNat (g ++ regBits x ++ regBits y) n).trans ?_
  rw [append_toNat, append_toNat, regBits_toNat, regBits_toNat]
  omega

theorem group_toNat (op : Word) : (group op).toNat = op.toNat / 4096 := by
  have := op.isLt
  simp only [group, BitVec.extractLsb'_toNat, Nat.shiftRight_eq_div_pow]
  omega

theorem xField_val (op : Word) : (xField op).val = op.toNat / 256 % 16 := by
  simp only [xField, regOfBits, xBits, BitVec.extractLsb'_toNat, Nat.shiftRight_eq_div_pow]

theorem yField_val (op : Word) : (yField op).val = op.toNat / 16 % 16 := by
  simp only [yField, regOfBits, yBits, BitVec.extractLsb'_toNat, Nat.shiftRight_eq_div_pow]

theorem nField_toNat (op : Word) : (nField op).toNat = op.toNat % 16 := by
  simp only [nField, BitVec.extractLsb'_toNat, Nat.shiftRight_zero]

theorem nnField_toNat (op : Word) : (nnField op).toNat = op.toNat % 256 := by
  simp only [nnField, BitVec.extractLsb'_toNat, Nat.shiftRight_zero]

theorem nnnField_toNat (op : Word) : (nnnField op).toNat = op.toNat % 4096 := by
  simp only [nnnField, BitVec.extractLsb'_toNat, Nat.shiftRight_zero]

/-! ### Fields of each shape -/

section
variable (g : BitVec 4) (nnn : Addr12) (x y : Reg) (nn : Byte) (n : Nibble)

@[simp] theorem group_encA : group (encA g nnn) = g := by
  apply BitVec.eq_of_toNat_eq; rw [group_toNat, encA_toNat]; have := nnn.isLt; omega
@[simp] theorem nnnField_encA : nnnField (encA g nnn) = nnn := by
  apply BitVec.eq_of_toNat_eq; rw [nnnField_toNat, encA_toNat]; have := nnn.isLt; omega
@[simp] theorem group_encXNN : group (encXNN g x nn) = g := by
  apply BitVec.eq_of_toNat_eq; rw [group_toNat, encXNN_toNat]; have := nn.isLt; have := x.isLt; omega
@[simp] theorem xField_encXNN : xField (encXNN g x nn) = x := by
  apply Fin.ext; rw [xField_val, encXNN_toNat]; have := nn.isLt; have := x.isLt; omega
@[simp] theorem nnField_encXNN : nnField (encXNN g x nn) = nn := by
  apply BitVec.eq_of_toNat_eq; rw [nnField_toNat, encXNN_toNat]; have := nn.isLt; omega
@[simp] theorem group_encXYN : group (encXYN g x y n) = g := by
  apply BitVec.eq_of_toNat_eq; rw [group_toNat, encXYN_toNat]
  have := n.isLt; have := x.isLt; have := y.isLt; omega
@[simp] theorem xField_encXYN : xField (encXYN g x y n) = x := by
  apply Fin.ext; rw [xField_val, encXYN_toNat]; have := n.isLt; have := x.isLt; have := y.isLt; omega
@[simp] theorem yField_encXYN : yField (encXYN g x y n) = y := by
  apply Fin.ext; rw [yField_val, encXYN_toNat]; have := n.isLt; have := x.isLt; have := y.isLt; omega
@[simp] theorem nField_encXYN : nField (encXYN g x y n) = n := by
  apply BitVec.eq_of_toNat_eq; rw [nField_toNat, encXYN_toNat]; have := n.isLt; omega
end

/-! ### A word is its fields -/

/-- A word in shape A is its group and `nnn`. -/
theorem encA_fields (op : Word) : encA (group op) (nnnField op) = op := by
  apply BitVec.eq_of_toNat_eq; rw [encA_toNat, group_toNat, nnnField_toNat]; omega

/-- A word is its group, `x` and `nn`. -/
theorem encXNN_fields (op : Word) : encXNN (group op) (xField op) (nnField op) = op := by
  apply BitVec.eq_of_toNat_eq; rw [encXNN_toNat, group_toNat, xField_val, nnField_toNat]; omega

/-- A word is its four nibbles. -/
theorem encXYN_fields (op : Word) : encXYN (group op) (xField op) (yField op) (nField op) = op := by
  apply BitVec.eq_of_toNat_eq; rw [encXYN_toNat, group_toNat, xField_val, yField_val, nField_toNat]; omega

/-! ### Bytes -/

@[simp] theorem wordOfBytes_hi_lo (op : Word) : wordOfBytes (hiByte op) (loByte op) = op := by
  unfold wordOfBytes hiByte loByte
  apply BitVec.eq_of_getLsbD_eq
  intro i hi
  simp only [BitVec.getLsbD_or, BitVec.getLsbD_shiftLeft, BitVec.getLsbD_setWidth, BitVec.getLsbD_extractLsb', hi]
  by_cases h : i < 8
  · simp [h]
  · have h8 : i - 8 < 8 := by omega
    simp [h, h8, show 8 + (i - 8) = i by omega, show i - 8 < 16 by omega]

theorem wordOfBytes_toNat (hi lo : Byte) : (wordOfBytes hi lo).toNat = hi.toNat * 256 + lo.toNat := by
  have h1 := hi.isLt
  have h2 := lo.isLt
  unfold wordOfBytes
  rw [BitVec.toNat_or, BitVec.toNat_shiftLeft, BitVec.toNat_setWidth, BitVec.toNat_setWidth,
    Nat.mod_eq_of_lt (show hi.toNat < 2 ^ 16 by omega), Nat.mod_eq_of_lt (show lo.toNat < 2 ^ 16 by omega),
    Nat.mod_eq_of_lt (show hi.toNat <<< 8 < 2 ^ 16 by rw [Nat.shiftLeft_eq]; omega),
    Nat.shiftLeft_eq, ← Nat.shiftLeft_eq, ← Nat.shiftLeft_add_eq_or_of_lt (show lo.toNat < 2 ^ 8 by omega), Nat.shiftLeft_eq]

end Sys2Proof
end

