-- ==== Sys2Proof/Laws/Memory.lean ====
section
/-! SUPPORT. The laws of memory: what a read finds after a write, and that every operation keeps the canonical form. -/

namespace Sys2Proof.Machine

/-! ### Cells: reading back -/

theorem cellsRead_insert (c : List Host.Cell) (a b : Nat) (v : Byte) :
    cellsRead (cellsInsert c a v) b = if b = a then v else cellsRead c b := by
  induction c with
  | nil => simp [cellsInsert, cellsRead, eq_comm (a := a)]
  | cons p t ih =>
    obtain ⟨d, w⟩ := p
    simp only [cellsInsert]
    split
    · simp only [cellsRead, eq_comm (a := a)]
    · split
      · next h =>
        subst h
        by_cases hb : b = a
        · subst hb; simp [cellsRead]
        · simp [cellsRead, Ne.symm hb, hb]
      · next h1 h2 =>
        simp only [cellsRead, ih]
        by_cases hb : b = a
        · subst hb; simp [Ne.symm h2]
        · simp [hb]

theorem cellsRead_filter (c : List Host.Cell) (a b : Nat) :
    cellsRead (c.filter (fun p => p.1 != a)) b = if b = a then 0 else cellsRead c b := by
  induction c with
  | nil => simp [cellsRead]
  | cons p t ih =>
    obtain ⟨d, w⟩ := p
    by_cases hd : d = a
    · subst hd
      by_cases hb : b = d
      · subst hb; simpa using ih
      · simpa [cellsRead, hb, Ne.symm hb] using ih
    · simp only [List.filter_cons, bne_iff_ne, ne_eq, hd, not_false_eq_true, if_true, cellsRead, ih]
      by_cases hb : b = a
      · subst hb; simp [hd]
      · simp [hb]

theorem cellsRead_write (c : List Host.Cell) (a b : Nat) (v : Byte) :
    cellsRead (cellsWrite c a v) b = if b = a then v else cellsRead c b := by
  unfold cellsWrite
  split
  · next h => subst h; exact cellsRead_filter c a b
  · exact cellsRead_insert c a b v

/-- A read after a write: the byte written at its address, what was there anywhere else. -/
theorem Memory.read_write (m : Memory) (a b : Nat) (v : Byte) :
    (m.write a v).read b = if b = a then v else m.read b := by
  unfold Memory.write Memory.read
  by_cases ha : a < 80 <;> by_cases hb : b < 80 <;> simp only [ha, hb, dif_pos, dif_neg, not_false_eq_true]
  · simp only [Vector.getElem_set, eq_comm]
  · rw [if_neg (by omega)]
  · rw [if_neg (by omega)]
  · exact cellsRead_write _ _ _ _

@[simp] theorem Memory.read_write_self (m : Memory) (a : Nat) (v : Byte) : (m.write a v).read a = v := by
  simp [Memory.read_write]

theorem Memory.read_write_ne (m : Memory) {a b : Nat} (v : Byte) (h : b ≠ a) : (m.write a v).read b = m.read b := by
  simp [Memory.read_write, h]

/-- A read after a block of writes. -/
theorem Memory.read_writeBytes (m : Memory) (a b : Nat) (bs : List Byte) :
    (m.writeBytes a bs).read b = if h : a ≤ b ∧ b < a + bs.length then bs[b - a]'(by omega) else m.read b := by
  induction bs generalizing m a with
  | nil => rw [dif_neg (by simp)]; rfl
  | cons x xs ih =>
    rw [Memory.writeBytes, ih, Memory.read_write]
    by_cases h : b = a
    · subst h; simp
    · by_cases h2 : a + 1 ≤ b ∧ b < a + 1 + xs.length
      · rw [dif_pos h2, dif_pos (by simp; omega)]
        have : b - a = (b - (a + 1)) + 1 := by omega
        simp [this]
      · rw [dif_neg h2, dif_neg (by simp; omega), if_neg h]

/-! ### The canonical form -/

/-- Every address of a list of cells is above `a`. -/
def cellsAbove (a : Nat) (c : List Host.Cell) : Prop := ∀ p ∈ c, a < p.1

theorem cellsSorted_cons (p : Host.Cell) (t : List Host.Cell) :
    cellsSorted (p :: t) = true ↔ cellsAbove p.1 t ∧ cellsSorted t = true := by
  induction t generalizing p with
  | nil => simp [cellsSorted, cellsAbove]
  | cons q t ih =>
    simp only [cellsSorted, Bool.and_eq_true, decide_eq_true_eq]
    constructor
    · rintro ⟨h, hs⟩
      refine ⟨?_, hs⟩
      have := ((ih q).1 hs).1
      intro r hr
      rcases List.mem_cons.1 hr with rfl | hr
      · exact h
      · exact lt_trans h (this r hr)
    · rintro ⟨h, hs⟩
      exact ⟨h q (by simp), hs⟩

theorem mem_cellsInsert {c : List Host.Cell} {a : Nat} {v : Byte} {p : Host.Cell} (h : p ∈ cellsInsert c a v) :
    p = (a, v) ∨ p ∈ c := by
  induction c with
  | nil => simpa [cellsInsert] using h
  | cons q t ih =>
    obtain ⟨b, w⟩ := q
    simp only [cellsInsert] at h
    split at h
    · simpa using h
    · split at h
      · rcases List.mem_cons.1 h with h | h
        · exact .inl h
        · exact .inr (List.mem_cons_of_mem _ h)
      · rcases List.mem_cons.1 h with h | h
        · exact .inr (by simp [h])
        · exact (ih h).imp id (List.mem_cons_of_mem _)

theorem cellsSorted_insert {c : List Host.Cell} (a : Nat) (v : Byte) (h : cellsSorted c = true) :
    cellsSorted (cellsInsert c a v) = true := by
  induction c with
  | nil => simp [cellsInsert, cellsSorted]
  | cons q t ih =>
    obtain ⟨b, w⟩ := q
    have hq := (cellsSorted_cons _ _).1 h
    simp only [cellsInsert]
    split
    · next hab =>
      refine (cellsSorted_cons _ _).2 ⟨?_, h⟩
      intro r hr
      rcases List.mem_cons.1 hr with rfl | hr
      · exact hab
      · exact lt_trans hab (hq.1 r hr)
    · split
      · next hab => subst hab; exact (cellsSorted_cons _ _).2 hq
      · next h1 h2 =>
        refine (cellsSorted_cons _ _).2 ⟨?_, ih hq.2⟩
        intro r hr
        rcases mem_cellsInsert hr with rfl | hr
        · simp only; omega
        · exact hq.1 r hr

theorem cellsSorted_filter {c : List Host.Cell} (f : Host.Cell → Bool) (h : cellsSorted c = true) :
    cellsSorted (c.filter f) = true := by
  induction c with
  | nil => simp [cellsSorted]
  | cons q t ih =>
    have hq := (cellsSorted_cons _ _).1 h
    rw [List.filter_cons]
    split
    · refine (cellsSorted_cons _ _).2 ⟨?_, ih hq.2⟩
      intro r hr
      exact hq.1 r (List.mem_filter.1 hr).1
    · exact ih hq.2

/-- A write inside the address space keeps the canonical form. -/
theorem Memory.wf_write {m : Memory} {a : Nat} (v : Byte) (h : m.wf = true) (ha : a < Config.memSize) :
    (m.write a v).wf = true := by
  unfold Memory.write
  split
  · exact h
  · next ha' =>
    simp only [Memory.wf, Bool.and_eq_true, List.all_eq_true] at h ⊢
    unfold cellsWrite
    split
    · refine ⟨cellsSorted_filter _ h.1, fun p hp => h.2 p (List.mem_filter.1 hp).1⟩
    · next hv =>
      refine ⟨cellsSorted_insert _ _ h.1, fun p hp => ?_⟩
      rcases mem_cellsInsert hp with rfl | hp
      · have h80 : 80 ≤ a := by omega
        simpa [ha, h80] using hv
      · exact h.2 p hp

/-- A block of writes inside the address space keeps the canonical form. -/
theorem Memory.wf_writeBytes {m : Memory} {a : Nat} {bs : List Byte} (h : m.wf = true)
    (ha : a + bs.length ≤ Config.memSize) : (m.writeBytes a bs).wf = true := by
  induction bs generalizing m a with
  | nil => exact h
  | cons x xs ih =>
    simp only [List.length_cons] at ha
    exact ih (Memory.wf_write x h (by omega)) (by omega)

/-- Memory with nothing listed has the canonical form, whatever the font. -/
@[simp] theorem Memory.wf_nothing_listed (font : Vector Byte 80) : (Memory.mk font []).wf = true := rfl

/-- Reset memory has the canonical form (R40). -/
theorem reset_mem_wf : State.reset.mem.wf = true := rfl

/-- Memory with nothing listed reads as the font, then 0 (R40). -/
theorem Memory.read_nothing_listed (font : Vector Byte 80) (a : Nat) :
    (Memory.mk font []).read a = if h : a < 80 then font[a] else 0 := rfl

end Sys2Proof.Machine
end

