-- ==== Sys2Proof/Laws/State.lean ====
section
/-! SUPPORT. One lemma per field per update of a state, true by rfl, so that no later proof unfolds a record update. -/

namespace Sys2Proof.Machine

variable (s : State)

/-! ### `setV` -/

@[simp] theorem State.setV_mem (x : Reg) (v : Byte) : (s.setV x v).mem = s.mem := rfl
@[simp] theorem State.setV_V (x : Reg) (v : Byte) : (s.setV x v).V = s.V.set x v := rfl
@[simp] theorem State.setV_I (x : Reg) (v : Byte) : (s.setV x v).I = s.I := rfl
@[simp] theorem State.setV_pc (x : Reg) (v : Byte) : (s.setV x v).pc = s.pc := rfl
@[simp] theorem State.setV_stack (x : Reg) (v : Byte) : (s.setV x v).stack = s.stack := rfl
@[simp] theorem State.setV_sp (x : Reg) (v : Byte) : (s.setV x v).sp = s.sp := rfl
@[simp] theorem State.setV_DT (x : Reg) (v : Byte) : (s.setV x v).DT = s.DT := rfl
@[simp] theorem State.setV_ST (x : Reg) (v : Byte) : (s.setV x v).ST = s.ST := rfl
@[simp] theorem State.setV_disp (x : Reg) (v : Byte) : (s.setV x v).disp = s.disp := rfl
@[simp] theorem State.setV_keys (x : Reg) (v : Byte) : (s.setV x v).keys = s.keys := rfl
@[simp] theorem State.setV_needDraw (x : Reg) (v : Byte) : (s.setV x v).needDraw = s.needDraw := rfl
@[simp] theorem State.setV_playBeep (x : Reg) (v : Byte) : (s.setV x v).playBeep = s.playBeep := rfl
@[simp] theorem State.setV_fault (x : Reg) (v : Byte) : (s.setV x v).fault = s.fault := rfl
@[simp] theorem State.setV_rnd (x : Reg) (v : Byte) : (s.setV x v).rnd = s.rnd := rfl
@[simp] theorem State.setV_rndDraws (x : Reg) (v : Byte) : (s.setV x v).rndDraws = s.rndDraws := rfl
@[simp] theorem State.setV_getStack (x : Reg) (v : Byte) (k : Fin 16) : (s.setV x v).getStack k = s.getStack k := rfl
@[simp] theorem State.setV_cell (x : Reg) (v : Byte) (k : Nat) : (s.setV x v).cell k = s.cell k := rfl
@[simp] theorem State.setV_key (x : Reg) (v : Byte) (k : Nat) : (s.setV x v).key k = s.key k := rfl

/-! ### `setI` -/

@[simp] theorem State.setI_mem (v : Word) : (s.setI v).mem = s.mem := rfl
@[simp] theorem State.setI_V (v : Word) : (s.setI v).V = s.V := rfl
@[simp] theorem State.setI_I (v : Word) : (s.setI v).I = v := rfl
@[simp] theorem State.setI_pc (v : Word) : (s.setI v).pc = s.pc := rfl
@[simp] theorem State.setI_stack (v : Word) : (s.setI v).stack = s.stack := rfl
@[simp] theorem State.setI_sp (v : Word) : (s.setI v).sp = s.sp := rfl
@[simp] theorem State.setI_DT (v : Word) : (s.setI v).DT = s.DT := rfl
@[simp] theorem State.setI_ST (v : Word) : (s.setI v).ST = s.ST := rfl
@[simp] theorem State.setI_disp (v : Word) : (s.setI v).disp = s.disp := rfl
@[simp] theorem State.setI_keys (v : Word) : (s.setI v).keys = s.keys := rfl
@[simp] theorem State.setI_needDraw (v : Word) : (s.setI v).needDraw = s.needDraw := rfl
@[simp] theorem State.setI_playBeep (v : Word) : (s.setI v).playBeep = s.playBeep := rfl
@[simp] theorem State.setI_fault (v : Word) : (s.setI v).fault = s.fault := rfl
@[simp] theorem State.setI_rnd (v : Word) : (s.setI v).rnd = s.rnd := rfl
@[simp] theorem State.setI_rndDraws (v : Word) : (s.setI v).rndDraws = s.rndDraws := rfl
@[simp] theorem State.setI_getV (v : Word) (r : Reg) : (s.setI v).getV r = s.getV r := rfl
@[simp] theorem State.setI_getStack (v : Word) (k : Fin 16) : (s.setI v).getStack k = s.getStack k := rfl
@[simp] theorem State.setI_cell (v : Word) (k : Nat) : (s.setI v).cell k = s.cell k := rfl
@[simp] theorem State.setI_key (v : Word) (k : Nat) : (s.setI v).key k = s.key k := rfl

/-! ### `setPc` -/

@[simp] theorem State.setPc_mem (v : Word) : (s.setPc v).mem = s.mem := rfl
@[simp] theorem State.setPc_V (v : Word) : (s.setPc v).V = s.V := rfl
@[simp] theorem State.setPc_I (v : Word) : (s.setPc v).I = s.I := rfl
@[simp] theorem State.setPc_pc (v : Word) : (s.setPc v).pc = v := rfl
@[simp] theorem State.setPc_stack (v : Word) : (s.setPc v).stack = s.stack := rfl
@[simp] theorem State.setPc_sp (v : Word) : (s.setPc v).sp = s.sp := rfl
@[simp] theorem State.setPc_DT (v : Word) : (s.setPc v).DT = s.DT := rfl
@[simp] theorem State.setPc_ST (v : Word) : (s.setPc v).ST = s.ST := rfl
@[simp] theorem State.setPc_disp (v : Word) : (s.setPc v).disp = s.disp := rfl
@[simp] theorem State.setPc_keys (v : Word) : (s.setPc v).keys = s.keys := rfl
@[simp] theorem State.setPc_needDraw (v : Word) : (s.setPc v).needDraw = s.needDraw := rfl
@[simp] theorem State.setPc_playBeep (v : Word) : (s.setPc v).playBeep = s.playBeep := rfl
@[simp] theorem State.setPc_fault (v : Word) : (s.setPc v).fault = s.fault := rfl
@[simp] theorem State.setPc_rnd (v : Word) : (s.setPc v).rnd = s.rnd := rfl
@[simp] theorem State.setPc_rndDraws (v : Word) : (s.setPc v).rndDraws = s.rndDraws := rfl
@[simp] theorem State.setPc_getV (v : Word) (r : Reg) : (s.setPc v).getV r = s.getV r := rfl
@[simp] theorem State.setPc_getStack (v : Word) (k : Fin 16) : (s.setPc v).getStack k = s.getStack k := rfl
@[simp] theorem State.setPc_cell (v : Word) (k : Nat) : (s.setPc v).cell k = s.cell k := rfl
@[simp] theorem State.setPc_key (v : Word) (k : Nat) : (s.setPc v).key k = s.key k := rfl

/-! ### `setStack` -/

@[simp] theorem State.setStack_mem (j : Fin 16) (v : Word) : (s.setStack j v).mem = s.mem := rfl
@[simp] theorem State.setStack_V (j : Fin 16) (v : Word) : (s.setStack j v).V = s.V := rfl
@[simp] theorem State.setStack_I (j : Fin 16) (v : Word) : (s.setStack j v).I = s.I := rfl
@[simp] theorem State.setStack_pc (j : Fin 16) (v : Word) : (s.setStack j v).pc = s.pc := rfl
@[simp] theorem State.setStack_stack (j : Fin 16) (v : Word) : (s.setStack j v).stack = s.stack.set j v := rfl
@[simp] theorem State.setStack_sp (j : Fin 16) (v : Word) : (s.setStack j v).sp = s.sp := rfl
@[simp] theorem State.setStack_DT (j : Fin 16) (v : Word) : (s.setStack j v).DT = s.DT := rfl
@[simp] theorem State.setStack_ST (j : Fin 16) (v : Word) : (s.setStack j v).ST = s.ST := rfl
@[simp] theorem State.setStack_disp (j : Fin 16) (v : Word) : (s.setStack j v).disp = s.disp := rfl
@[simp] theorem State.setStack_keys (j : Fin 16) (v : Word) : (s.setStack j v).keys = s.keys := rfl
@[simp] theorem State.setStack_needDraw (j : Fin 16) (v : Word) : (s.setStack j v).needDraw = s.needDraw := rfl
@[simp] theorem State.setStack_playBeep (j : Fin 16) (v : Word) : (s.setStack j v).playBeep = s.playBeep := rfl
@[simp] theorem State.setStack_fault (j : Fin 16) (v : Word) : (s.setStack j v).fault = s.fault := rfl
@[simp] theorem State.setStack_rnd (j : Fin 16) (v : Word) : (s.setStack j v).rnd = s.rnd := rfl
@[simp] theorem State.setStack_rndDraws (j : Fin 16) (v : Word) : (s.setStack j v).rndDraws = s.rndDraws := rfl
@[simp] theorem State.setStack_getV (j : Fin 16) (v : Word) (r : Reg) : (s.setStack j v).getV r = s.getV r := rfl
@[simp] theorem State.setStack_cell (j : Fin 16) (v : Word) (k : Nat) : (s.setStack j v).cell k = s.cell k := rfl
@[simp] theorem State.setStack_key (j : Fin 16) (v : Word) (k : Nat) : (s.setStack j v).key k = s.key k := rfl

/-! ### `setSp` -/

@[simp] theorem State.setSp_mem (v : Fin 16) : (s.setSp v).mem = s.mem := rfl
@[simp] theorem State.setSp_V (v : Fin 16) : (s.setSp v).V = s.V := rfl
@[simp] theorem State.setSp_I (v : Fin 16) : (s.setSp v).I = s.I := rfl
@[simp] theorem State.setSp_pc (v : Fin 16) : (s.setSp v).pc = s.pc := rfl
@[simp] theorem State.setSp_stack (v : Fin 16) : (s.setSp v).stack = s.stack := rfl
@[simp] theorem State.setSp_sp (v : Fin 16) : (s.setSp v).sp = v := rfl
@[simp] theorem State.setSp_DT (v : Fin 16) : (s.setSp v).DT = s.DT := rfl
@[simp] theorem State.setSp_ST (v : Fin 16) : (s.setSp v).ST = s.ST := rfl
@[simp] theorem State.setSp_disp (v : Fin 16) : (s.setSp v).disp = s.disp := rfl
@[simp] theorem State.setSp_keys (v : Fin 16) : (s.setSp v).keys = s.keys := rfl
@[simp] theorem State.setSp_needDraw (v : Fin 16) : (s.setSp v).needDraw = s.needDraw := rfl
@[simp] theorem State.setSp_playBeep (v : Fin 16) : (s.setSp v).playBeep = s.playBeep := rfl
@[simp] theorem State.setSp_fault (v : Fin 16) : (s.setSp v).fault = s.fault := rfl
@[simp] theorem State.setSp_rnd (v : Fin 16) : (s.setSp v).rnd = s.rnd := rfl
@[simp] theorem State.setSp_rndDraws (v : Fin 16) : (s.setSp v).rndDraws = s.rndDraws := rfl
@[simp] theorem State.setSp_getV (v : Fin 16) (r : Reg) : (s.setSp v).getV r = s.getV r := rfl
@[simp] theorem State.setSp_getStack (v : Fin 16) (k : Fin 16) : (s.setSp v).getStack k = s.getStack k := rfl
@[simp] theorem State.setSp_cell (v : Fin 16) (k : Nat) : (s.setSp v).cell k = s.cell k := rfl
@[simp] theorem State.setSp_key (v : Fin 16) (k : Nat) : (s.setSp v).key k = s.key k := rfl

/-! ### `setDT` -/

@[simp] theorem State.setDT_mem (v : Byte) : (s.setDT v).mem = s.mem := rfl
@[simp] theorem State.setDT_V (v : Byte) : (s.setDT v).V = s.V := rfl
@[simp] theorem State.setDT_I (v : Byte) : (s.setDT v).I = s.I := rfl
@[simp] theorem State.setDT_pc (v : Byte) : (s.setDT v).pc = s.pc := rfl
@[simp] theorem State.setDT_stack (v : Byte) : (s.setDT v).stack = s.stack := rfl
@[simp] theorem State.setDT_sp (v : Byte) : (s.setDT v).sp = s.sp := rfl
@[simp] theorem State.setDT_DT (v : Byte) : (s.setDT v).DT = v := rfl
@[simp] theorem State.setDT_ST (v : Byte) : (s.setDT v).ST = s.ST := rfl
@[simp] theorem State.setDT_disp (v : Byte) : (s.setDT v).disp = s.disp := rfl
@[simp] theorem State.setDT_keys (v : Byte) : (s.setDT v).keys = s.keys := rfl
@[simp] theorem State.setDT_needDraw (v : Byte) : (s.setDT v).needDraw = s.needDraw := rfl
@[simp] theorem State.setDT_playBeep (v : Byte) : (s.setDT v).playBeep = s.playBeep := rfl
@[simp] theorem State.setDT_fault (v : Byte) : (s.setDT v).fault = s.fault := rfl
@[simp] theorem State.setDT_rnd (v : Byte) : (s.setDT v).rnd = s.rnd := rfl
@[simp] theorem State.setDT_rndDraws (v : Byte) : (s.setDT v).rndDraws = s.rndDraws := rfl
@[simp] theorem State.setDT_getV (v : Byte) (r : Reg) : (s.setDT v).getV r = s.getV r := rfl
@[simp] theorem State.setDT_getStack (v : Byte) (k : Fin 16) : (s.setDT v).getStack k = s.getStack k := rfl
@[simp] theorem State.setDT_cell (v : Byte) (k : Nat) : (s.setDT v).cell k = s.cell k := rfl
@[simp] theorem State.setDT_key (v : Byte) (k : Nat) : (s.setDT v).key k = s.key k := rfl

/-! ### `setST` -/

@[simp] theorem State.setST_mem (v : Byte) : (s.setST v).mem = s.mem := rfl
@[simp] theorem State.setST_V (v : Byte) : (s.setST v).V = s.V := rfl
@[simp] theorem State.setST_I (v : Byte) : (s.setST v).I = s.I := rfl
@[simp] theorem State.setST_pc (v : Byte) : (s.setST v).pc = s.pc := rfl
@[simp] theorem State.setST_stack (v : Byte) : (s.setST v).stack = s.stack := rfl
@[simp] theorem State.setST_sp (v : Byte) : (s.setST v).sp = s.sp := rfl
@[simp] theorem State.setST_DT (v : Byte) : (s.setST v).DT = s.DT := rfl
@[simp] theorem State.setST_ST (v : Byte) : (s.setST v).ST = v := rfl
@[simp] theorem State.setST_disp (v : Byte) : (s.setST v).disp = s.disp := rfl
@[simp] theorem State.setST_keys (v : Byte) : (s.setST v).keys = s.keys := rfl
@[simp] theorem State.setST_needDraw (v : Byte) : (s.setST v).needDraw = s.needDraw := rfl
@[simp] theorem State.setST_playBeep (v : Byte) : (s.setST v).playBeep = s.playBeep := rfl
@[simp] theorem State.setST_fault (v : Byte) : (s.setST v).fault = s.fault := rfl
@[simp] theorem State.setST_rnd (v : Byte) : (s.setST v).rnd = s.rnd := rfl
@[simp] theorem State.setST_rndDraws (v : Byte) : (s.setST v).rndDraws = s.rndDraws := rfl
@[simp] theorem State.setST_getV (v : Byte) (r : Reg) : (s.setST v).getV r = s.getV r := rfl
@[simp] theorem State.setST_getStack (v : Byte) (k : Fin 16) : (s.setST v).getStack k = s.getStack k := rfl
@[simp] theorem State.setST_cell (v : Byte) (k : Nat) : (s.setST v).cell k = s.cell k := rfl
@[simp] theorem State.setST_key (v : Byte) (k : Nat) : (s.setST v).key k = s.key k := rfl

/-! ### `toggleCell` -/

@[simp] theorem State.toggleCell_mem (c : Nat) : (s.toggleCell c).mem = s.mem := rfl
@[simp] theorem State.toggleCell_V (c : Nat) : (s.toggleCell c).V = s.V := rfl
@[simp] theorem State.toggleCell_I (c : Nat) : (s.toggleCell c).I = s.I := rfl
@[simp] theorem State.toggleCell_pc (c : Nat) : (s.toggleCell c).pc = s.pc := rfl
@[simp] theorem State.toggleCell_stack (c : Nat) : (s.toggleCell c).stack = s.stack := rfl
@[simp] theorem State.toggleCell_sp (c : Nat) : (s.toggleCell c).sp = s.sp := rfl
@[simp] theorem State.toggleCell_DT (c : Nat) : (s.toggleCell c).DT = s.DT := rfl
@[simp] theorem State.toggleCell_ST (c : Nat) : (s.toggleCell c).ST = s.ST := rfl
@[simp] theorem State.toggleCell_disp (c : Nat) : (s.toggleCell c).disp = s.disp ^^^ BitVec.twoPow 2048 c := rfl
@[simp] theorem State.toggleCell_keys (c : Nat) : (s.toggleCell c).keys = s.keys := rfl
@[simp] theorem State.toggleCell_needDraw (c : Nat) : (s.toggleCell c).needDraw = s.needDraw := rfl
@[simp] theorem State.toggleCell_playBeep (c : Nat) : (s.toggleCell c).playBeep = s.playBeep := rfl
@[simp] theorem State.toggleCell_fault (c : Nat) : (s.toggleCell c).fault = s.fault := rfl
@[simp] theorem State.toggleCell_rnd (c : Nat) : (s.toggleCell c).rnd = s.rnd := rfl
@[simp] theorem State.toggleCell_rndDraws (c : Nat) : (s.toggleCell c).rndDraws = s.rndDraws := rfl
@[simp] theorem State.toggleCell_getV (c : Nat) (r : Reg) : (s.toggleCell c).getV r = s.getV r := rfl
@[simp] theorem State.toggleCell_getStack (c : Nat) (k : Fin 16) : (s.toggleCell c).getStack k = s.getStack k := rfl
@[simp] theorem State.toggleCell_key (c : Nat) (k : Nat) : (s.toggleCell c).key k = s.key k := rfl

/-! ### `clearDisp` -/

@[simp] theorem State.clearDisp_mem : (s.clearDisp).mem = s.mem := rfl
@[simp] theorem State.clearDisp_V : (s.clearDisp).V = s.V := rfl
@[simp] theorem State.clearDisp_I : (s.clearDisp).I = s.I := rfl
@[simp] theorem State.clearDisp_pc : (s.clearDisp).pc = s.pc := rfl
@[simp] theorem State.clearDisp_stack : (s.clearDisp).stack = s.stack := rfl
@[simp] theorem State.clearDisp_sp : (s.clearDisp).sp = s.sp := rfl
@[simp] theorem State.clearDisp_DT : (s.clearDisp).DT = s.DT := rfl
@[simp] theorem State.clearDisp_ST : (s.clearDisp).ST = s.ST := rfl
@[simp] theorem State.clearDisp_disp : (s.clearDisp).disp = 0 := rfl
@[simp] theorem State.clearDisp_keys : (s.clearDisp).keys = s.keys := rfl
@[simp] theorem State.clearDisp_needDraw : (s.clearDisp).needDraw = s.needDraw := rfl
@[simp] theorem State.clearDisp_playBeep : (s.clearDisp).playBeep = s.playBeep := rfl
@[simp] theorem State.clearDisp_fault : (s.clearDisp).fault = s.fault := rfl
@[simp] theorem State.clearDisp_rnd : (s.clearDisp).rnd = s.rnd := rfl
@[simp] theorem State.clearDisp_rndDraws : (s.clearDisp).rndDraws = s.rndDraws := rfl
@[simp] theorem State.clearDisp_getV (r : Reg) : (s.clearDisp).getV r = s.getV r := rfl
@[simp] theorem State.clearDisp_getStack (k : Fin 16) : (s.clearDisp).getStack k = s.getStack k := rfl
@[simp] theorem State.clearDisp_key (k : Nat) : (s.clearDisp).key k = s.key k := rfl

/-! ### `requestDraw` -/

@[simp] theorem State.requestDraw_mem : (s.requestDraw).mem = s.mem := rfl
@[simp] theorem State.requestDraw_V : (s.requestDraw).V = s.V := rfl
@[simp] theorem State.requestDraw_I : (s.requestDraw).I = s.I := rfl
@[simp] theorem State.requestDraw_pc : (s.requestDraw).pc = s.pc := rfl
@[simp] theorem State.requestDraw_stack : (s.requestDraw).stack = s.stack := rfl
@[simp] theorem State.requestDraw_sp : (s.requestDraw).sp = s.sp := rfl
@[simp] theorem State.requestDraw_DT : (s.requestDraw).DT = s.DT := rfl
@[simp] theorem State.requestDraw_ST : (s.requestDraw).ST = s.ST := rfl
@[simp] theorem State.requestDraw_disp : (s.requestDraw).disp = s.disp := rfl
@[simp] theorem State.requestDraw_keys : (s.requestDraw).keys = s.keys := rfl
@[simp] theorem State.requestDraw_needDraw : (s.requestDraw).needDraw = true := rfl
@[simp] theorem State.requestDraw_playBeep : (s.requestDraw).playBeep = s.playBeep := rfl
@[simp] theorem State.requestDraw_fault : (s.requestDraw).fault = s.fault := rfl
@[simp] theorem State.requestDraw_rnd : (s.requestDraw).rnd = s.rnd := rfl
@[simp] theorem State.requestDraw_rndDraws : (s.requestDraw).rndDraws = s.rndDraws := rfl
@[simp] theorem State.requestDraw_getV (r : Reg) : (s.requestDraw).getV r = s.getV r := rfl
@[simp] theorem State.requestDraw_getStack (k : Fin 16) : (s.requestDraw).getStack k = s.getStack k := rfl
@[simp] theorem State.requestDraw_cell (k : Nat) : (s.requestDraw).cell k = s.cell k := rfl
@[simp] theorem State.requestDraw_key (k : Nat) : (s.requestDraw).key k = s.key k := rfl

/-! ### `requestBeep` -/

@[simp] theorem State.requestBeep_mem : (s.requestBeep).mem = s.mem := rfl
@[simp] theorem State.requestBeep_V : (s.requestBeep).V = s.V := rfl
@[simp] theorem State.requestBeep_I : (s.requestBeep).I = s.I := rfl
@[simp] theorem State.requestBeep_pc : (s.requestBeep).pc = s.pc := rfl
@[simp] theorem State.requestBeep_stack : (s.requestBeep).stack = s.stack := rfl
@[simp] theorem State.requestBeep_sp : (s.requestBeep).sp = s.sp := rfl
@[simp] theorem State.requestBeep_DT : (s.requestBeep).DT = s.DT := rfl
@[simp] theorem State.requestBeep_ST : (s.requestBeep).ST = s.ST := rfl
@[simp] theorem State.requestBeep_disp : (s.requestBeep).disp = s.disp := rfl
@[simp] theorem State.requestBeep_keys : (s.requestBeep).keys = s.keys := rfl
@[simp] theorem State.requestBeep_needDraw : (s.requestBeep).needDraw = s.needDraw := rfl
@[simp] theorem State.requestBeep_playBeep : (s.requestBeep).playBeep = true := rfl
@[simp] theorem State.requestBeep_fault : (s.requestBeep).fault = s.fault := rfl
@[simp] theorem State.requestBeep_rnd : (s.requestBeep).rnd = s.rnd := rfl
@[simp] theorem State.requestBeep_rndDraws : (s.requestBeep).rndDraws = s.rndDraws := rfl
@[simp] theorem State.requestBeep_getV (r : Reg) : (s.requestBeep).getV r = s.getV r := rfl
@[simp] theorem State.requestBeep_getStack (k : Fin 16) : (s.requestBeep).getStack k = s.getStack k := rfl
@[simp] theorem State.requestBeep_cell (k : Nat) : (s.requestBeep).cell k = s.cell k := rfl
@[simp] theorem State.requestBeep_key (k : Nat) : (s.requestBeep).key k = s.key k := rfl

/-! ### `setByte` -/

@[simp] theorem State.setByte_mem (a : Nat) (v : Byte) : (s.setByte a v).mem = s.mem.write a v := rfl
@[simp] theorem State.setByte_V (a : Nat) (v : Byte) : (s.setByte a v).V = s.V := rfl
@[simp] theorem State.setByte_I (a : Nat) (v : Byte) : (s.setByte a v).I = s.I := rfl
@[simp] theorem State.setByte_pc (a : Nat) (v : Byte) : (s.setByte a v).pc = s.pc := rfl
@[simp] theorem State.setByte_stack (a : Nat) (v : Byte) : (s.setByte a v).stack = s.stack := rfl
@[simp] theorem State.setByte_sp (a : Nat) (v : Byte) : (s.setByte a v).sp = s.sp := rfl
@[simp] theorem State.setByte_DT (a : Nat) (v : Byte) : (s.setByte a v).DT = s.DT := rfl
@[simp] theorem State.setByte_ST (a : Nat) (v : Byte) : (s.setByte a v).ST = s.ST := rfl
@[simp] theorem State.setByte_disp (a : Nat) (v : Byte) : (s.setByte a v).disp = s.disp := rfl
@[simp] theorem State.setByte_keys (a : Nat) (v : Byte) : (s.setByte a v).keys = s.keys := rfl
@[simp] theorem State.setByte_needDraw (a : Nat) (v : Byte) : (s.setByte a v).needDraw = s.needDraw := rfl
@[simp] theorem State.setByte_playBeep (a : Nat) (v : Byte) : (s.setByte a v).playBeep = s.playBeep := rfl
@[simp] theorem State.setByte_fault (a : Nat) (v : Byte) : (s.setByte a v).fault = s.fault := rfl
@[simp] theorem State.setByte_rnd (a : Nat) (v : Byte) : (s.setByte a v).rnd = s.rnd := rfl
@[simp] theorem State.setByte_rndDraws (a : Nat) (v : Byte) : (s.setByte a v).rndDraws = s.rndDraws := rfl
@[simp] theorem State.setByte_getV (a : Nat) (v : Byte) (r : Reg) : (s.setByte a v).getV r = s.getV r := rfl
@[simp] theorem State.setByte_getStack (a : Nat) (v : Byte) (k : Fin 16) : (s.setByte a v).getStack k = s.getStack k := rfl
@[simp] theorem State.setByte_cell (a : Nat) (v : Byte) (k : Nat) : (s.setByte a v).cell k = s.cell k := rfl
@[simp] theorem State.setByte_key (a : Nat) (v : Byte) (k : Nat) : (s.setByte a v).key k = s.key k := rfl

/-! ### `drawRnd` -/

@[simp] theorem State.drawRnd_mem : (s.drawRnd).mem = s.mem := rfl
@[simp] theorem State.drawRnd_V : (s.drawRnd).V = s.V := rfl
@[simp] theorem State.drawRnd_I : (s.drawRnd).I = s.I := rfl
@[simp] theorem State.drawRnd_pc : (s.drawRnd).pc = s.pc := rfl
@[simp] theorem State.drawRnd_stack : (s.drawRnd).stack = s.stack := rfl
@[simp] theorem State.drawRnd_sp : (s.drawRnd).sp = s.sp := rfl
@[simp] theorem State.drawRnd_DT : (s.drawRnd).DT = s.DT := rfl
@[simp] theorem State.drawRnd_ST : (s.drawRnd).ST = s.ST := rfl
@[simp] theorem State.drawRnd_disp : (s.drawRnd).disp = s.disp := rfl
@[simp] theorem State.drawRnd_keys : (s.drawRnd).keys = s.keys := rfl
@[simp] theorem State.drawRnd_needDraw : (s.drawRnd).needDraw = s.needDraw := rfl
@[simp] theorem State.drawRnd_playBeep : (s.drawRnd).playBeep = s.playBeep := rfl
@[simp] theorem State.drawRnd_fault : (s.drawRnd).fault = s.fault := rfl
@[simp] theorem State.drawRnd_rnd : (s.drawRnd).rnd = Config.rndByte (s.rndDraws + 1) := rfl
@[simp] theorem State.drawRnd_rndDraws : (s.drawRnd).rndDraws = s.rndDraws + 1 := rfl
@[simp] theorem State.drawRnd_getV (r : Reg) : (s.drawRnd).getV r = s.getV r := rfl
@[simp] theorem State.drawRnd_getStack (k : Fin 16) : (s.drawRnd).getStack k = s.getStack k := rfl
@[simp] theorem State.drawRnd_cell (k : Nat) : (s.drawRnd).cell k = s.cell k := rfl
@[simp] theorem State.drawRnd_key (k : Nat) : (s.drawRnd).key k = s.key k := rfl

/-! ### `takeFault` -/

@[simp] theorem State.takeFault_mem (e : Raise) : (s.takeFault e).mem = s.mem := rfl
@[simp] theorem State.takeFault_V (e : Raise) : (s.takeFault e).V = s.V := rfl
@[simp] theorem State.takeFault_I (e : Raise) : (s.takeFault e).I = s.I := rfl
@[simp] theorem State.takeFault_pc (e : Raise) : (s.takeFault e).pc = s.pc := rfl
@[simp] theorem State.takeFault_stack (e : Raise) : (s.takeFault e).stack = s.stack := rfl
@[simp] theorem State.takeFault_sp (e : Raise) : (s.takeFault e).sp = s.sp := rfl
@[simp] theorem State.takeFault_DT (e : Raise) : (s.takeFault e).DT = s.DT := rfl
@[simp] theorem State.takeFault_ST (e : Raise) : (s.takeFault e).ST = s.ST := rfl
@[simp] theorem State.takeFault_disp (e : Raise) : (s.takeFault e).disp = s.disp := rfl
@[simp] theorem State.takeFault_keys (e : Raise) : (s.takeFault e).keys = s.keys := rfl
@[simp] theorem State.takeFault_needDraw (e : Raise) : (s.takeFault e).needDraw = s.needDraw := rfl
@[simp] theorem State.takeFault_playBeep (e : Raise) : (s.takeFault e).playBeep = s.playBeep := rfl
@[simp] theorem State.takeFault_fault (e : Raise) : (s.takeFault e).fault = some ⟨e.kind, s.pc, e.info⟩ := rfl
@[simp] theorem State.takeFault_rnd (e : Raise) : (s.takeFault e).rnd = s.rnd := rfl
@[simp] theorem State.takeFault_rndDraws (e : Raise) : (s.takeFault e).rndDraws = s.rndDraws := rfl
@[simp] theorem State.takeFault_getV (e : Raise) (r : Reg) : (s.takeFault e).getV r = s.getV r := rfl
@[simp] theorem State.takeFault_getStack (e : Raise) (k : Fin 16) : (s.takeFault e).getStack k = s.getStack k := rfl
@[simp] theorem State.takeFault_cell (e : Raise) (k : Nat) : (s.takeFault e).cell k = s.cell k := rfl
@[simp] theorem State.takeFault_key (e : Raise) (k : Nat) : (s.takeFault e).key k = s.key k := rfl

/-! ### `advancePc` -/

@[simp] theorem State.advancePc_mem : (s.advancePc).mem = s.mem := rfl
@[simp] theorem State.advancePc_V : (s.advancePc).V = s.V := rfl
@[simp] theorem State.advancePc_I : (s.advancePc).I = s.I := rfl
@[simp] theorem State.advancePc_pc : (s.advancePc).pc = s.pc + 2 := rfl
@[simp] theorem State.advancePc_stack : (s.advancePc).stack = s.stack := rfl
@[simp] theorem State.advancePc_sp : (s.advancePc).sp = s.sp := rfl
@[simp] theorem State.advancePc_DT : (s.advancePc).DT = s.DT := rfl
@[simp] theorem State.advancePc_ST : (s.advancePc).ST = s.ST := rfl
@[simp] theorem State.advancePc_disp : (s.advancePc).disp = s.disp := rfl
@[simp] theorem State.advancePc_keys : (s.advancePc).keys = s.keys := rfl
@[simp] theorem State.advancePc_needDraw : (s.advancePc).needDraw = s.needDraw := rfl
@[simp] theorem State.advancePc_playBeep : (s.advancePc).playBeep = s.playBeep := rfl
@[simp] theorem State.advancePc_fault : (s.advancePc).fault = s.fault := rfl
@[simp] theorem State.advancePc_rnd : (s.advancePc).rnd = s.rnd := rfl
@[simp] theorem State.advancePc_rndDraws : (s.advancePc).rndDraws = s.rndDraws := rfl
@[simp] theorem State.advancePc_getV (r : Reg) : (s.advancePc).getV r = s.getV r := rfl
@[simp] theorem State.advancePc_getStack (k : Fin 16) : (s.advancePc).getStack k = s.getStack k := rfl
@[simp] theorem State.advancePc_cell (k : Nat) : (s.advancePc).cell k = s.cell k := rfl
@[simp] theorem State.advancePc_key (k : Nat) : (s.advancePc).key k = s.key k := rfl

/-! ### Reading back what was written -/

@[simp] theorem State.setV_getV_self (x : Reg) (v : Byte) : (s.setV x v).getV x = v := by
  simp [State.setV, State.getV]

@[simp] theorem State.setV_getV_ne {x r : Reg} (v : Byte) (h : r ≠ x) : (s.setV x v).getV r = s.getV r := by
  have : x.val ≠ r.val := fun e => h (Fin.ext e.symm)
  simp [State.setV, State.getV, this]

theorem State.setV_getV (x r : Reg) (v : Byte) : (s.setV x v).getV r = if r = x then v else s.getV r := by
  split
  · next h => subst h; simp
  · next h => simp [h]

@[simp] theorem State.setStack_getStack_self (j : Fin 16) (v : Word) : (s.setStack j v).getStack j = v := by
  simp [State.setStack, State.getStack]

@[simp] theorem State.setStack_getStack_ne {j k : Fin 16} (v : Word) (h : k ≠ j) :
    (s.setStack j v).getStack k = s.getStack k := by
  have : j.val ≠ k.val := fun e => h (Fin.ext e.symm)
  simp [State.setStack, State.getStack, this]

@[simp] theorem State.clearDisp_cell (k : Nat) : s.clearDisp.cell k = false := by
  simp [State.clearDisp, State.cell]

/-- A toggle flips its own cell and no other. -/
theorem State.toggleCell_cell (c k : Nat) (hc : c < 2048) :
    (s.toggleCell c).cell k = (s.cell k ^^ decide (k = c)) := by
  simp only [State.toggleCell, State.cell, BitVec.getLsbD_xor, BitVec.getLsbD_twoPow]
  by_cases h : k = c
  · subst h; simp [hc]
  · simp [h, Ne.symm h]

@[simp] theorem State.setV_setV_self (x : Reg) (v w : Byte) : (s.setV x v).setV x w = s.setV x w := by
  simp [State.setV, Vector.set_set]

end Sys2Proof.Machine
end

