-- ==== Sys2Proof/Laws/Ops.lean ====
section
/-! SUPPORT. One lemma per shared operation that says once everything it can do; later proofs cite these and unfold nothing. -/

namespace Sys2Proof.Machine

variable {s s' t : State}

/-! ### Memory access (R53 to R55) -/

theorem memRead_of_le {a : Nat} (h : a ≤ 0xFFF) : s.memRead a = .ok (s.mem.read a) := by
  simp [State.memRead, Nat.not_lt.2 h]

theorem memRead_of_gt {a : Nat} (h : 0xFFF < a) : s.memRead a = .error ⟨.memoryOutOfRange, a⟩ := by
  simp [State.memRead, h]

theorem memRead_eq_ok {a : Nat} {b : Byte} : s.memRead a = .ok b ↔ a ≤ 0xFFF ∧ b = s.mem.read a := by
  unfold State.memRead
  split
  · simp; omega
  · simp [eq_comm]; omega

theorem memRead_eq_error {a : Nat} {e : Raise} :
    s.memRead a = .error e ↔ 0xFFF < a ∧ e = ⟨.memoryOutOfRange, a⟩ := by
  unfold State.memRead
  split
  · next h => simp [eq_comm, h]
  · next h => simp [h]

theorem memWrite_of_mem {a : Nat} (v : Byte) (h1 : 0x200 ≤ a) (h2 : a ≤ 0xFFF) :
    s.memWrite a v = .ok (s.setByte a v) := by
  simp [State.memWrite, Nat.not_lt.2 h1, Nat.not_lt.2 h2]

theorem memWrite_of_gt {a : Nat} (v : Byte) (h : 0xFFF < a) : s.memWrite a v = .error ⟨.memoryOutOfRange, a⟩ := by
  simp [State.memWrite, h]

theorem memWrite_of_lt {a : Nat} (v : Byte) (h : a < 0x200) : s.memWrite a v = .error ⟨.reservedWrite, a⟩ := by
  simp [State.memWrite, h]; omega

/-- A write that succeeds stored its byte at a writable address and did nothing else. -/
theorem memWrite_eq_ok {a : Nat} {v : Byte} :
    s.memWrite a v = .ok s' ↔ 0x200 ≤ a ∧ a ≤ 0xFFF ∧ s' = s.setByte a v := by
  unfold State.memWrite
  split
  · simp; omega
  · split
    · simp; omega
    · next h1 h2 =>
      have h1' : a ≤ 4095 := by omega
      have h2' : 512 ≤ a := by omega
      simp [eq_comm, h1', h2']

/-- A write that fails is one of the two faults. -/
theorem memWrite_eq_error {a : Nat} {v : Byte} {e : Raise} :
    s.memWrite a v = .error e ↔
      (0xFFF < a ∧ e = ⟨.memoryOutOfRange, a⟩) ∨ (a < 0x200 ∧ e = ⟨.reservedWrite, a⟩) := by
  unfold State.memWrite
  split
  · next h =>
    have h2 : ¬ a < 0x200 := by omega
    simp [eq_comm, h, h2]
  · split
    · next h1 h2 => simp [eq_comm, h1, h2]
    · next h1 h2 => simp [h1, h2]

/-! ### Loops -/

variable {f : Nat → State → Except Raise State}

@[simp] theorem forUp_zero (i : Nat) (s : State) : forUp f 0 i s = .ok s := rfl

theorem forUp_succ_ok {k i : Nat} (h : f i s = .ok s') : forUp f (k + 1) i s = forUp f k (i + 1) s' := by
  simp [forUp, h]

theorem forUp_succ_error {k i : Nat} {e : Raise} (h : f i s = .error e) : forUp f (k + 1) i s = .error e := by
  simp [forUp, h]

/-- A loop that succeeds: what holds at its start and is kept by every iteration holds at its end. -/
theorem forUp_ok_induct {P : Nat → State → Prop} {k i : Nat} (h : forUp f k i s = .ok t) (h0 : P i s)
    (hs : ∀ j u v, i ≤ j → j < i + k → P j u → f j u = .ok v → P (j + 1) v) : P (i + k) t := by
  induction k generalizing i s with
  | zero => simp only [forUp_zero, Except.ok.injEq] at h; subst h; exact h0
  | succ k ih =>
    cases hf : f i s with
    | error e => rw [forUp_succ_error hf] at h; cases h
    | ok s' =>
      rw [forUp_succ_ok hf] at h
      have := ih h (hs i s s' (le_refl i) (by omega) h0 hf)
        (fun j u v h1 h2 => hs j u v (by omega) (by omega))
      rwa [show i + 1 + k = i + (k + 1) by omega] at this

/-- A loop succeeds when every iteration that starts from what is kept does. -/
theorem forUp_ok_of {P : Nat → State → Prop} {k i : Nat} (h0 : P i s)
    (hs : ∀ j u, i ≤ j → j < i + k → P j u → ∃ v, f j u = .ok v ∧ P (j + 1) v) :
    ∃ t, forUp f k i s = .ok t ∧ P (i + k) t := by
  induction k generalizing i s with
  | zero => exact ⟨s, rfl, h0⟩
  | succ k ih =>
    obtain ⟨v, hv, hp⟩ := hs i s (le_refl i) (by omega) h0
    obtain ⟨t, ht, hpt⟩ := ih hp (fun j u h1 h2 => hs j u (by omega) (by omega))
    exact ⟨t, by rw [forUp_succ_ok hv, ht], by rwa [show i + (k + 1) = i + 1 + k by omega]⟩

/-- A loop that fails: some iteration, reached with what is kept, failed with that very fault. -/
theorem forUp_error_induct {P : Nat → State → Prop} {k i : Nat} {e : Raise} (h : forUp f k i s = .error e) (h0 : P i s)
    (hs : ∀ j u v, i ≤ j → j < i + k → P j u → f j u = .ok v → P (j + 1) v) :
    ∃ j u, i ≤ j ∧ j < i + k ∧ P j u ∧ f j u = .error e := by
  induction k generalizing i s with
  | zero => simp at h
  | succ k ih =>
    cases hf : f i s with
    | error e' => rw [forUp_succ_error hf] at h; cases h; exact ⟨i, s, le_refl i, by omega, h0, hf⟩
    | ok s' =>
      rw [forUp_succ_ok hf] at h
      obtain ⟨j, u, h1, h2, hp, hj⟩ := ih h (hs i s s' (le_refl i) (by omega) h0 hf)
        (fun j u v h1 h2 => hs j u v (by omega) (by omega))
      exact ⟨j, u, by omega, by omega, hp, hj⟩

/-! ### The end of a step (R95 to R97, R183) -/

@[simp] theorem finish_advanced (s₀ s : State) : finish s₀ (.ok (.advanced s)) = .next s.epilogue := rfl
@[simp] theorem finish_jumped (s₀ s : State) : finish s₀ (.ok (.jumped s)) = .next s := rfl
@[simp] theorem finish_waiting (s₀ s : State) : finish s₀ (.ok (.waiting s)) = .next s := rfl
@[simp] theorem finish_error (s₀ : State) (e : Raise) : finish s₀ (.error e) = .next (s₀.takeFault e) := rfl

/-- Every step ends in a next state: the outcome's own state, with the epilogue for Advanced, or the fault taken. -/
theorem finish_cases (s₀ : State) (r : Except Raise ExecOutcome) :
    (∃ u, r = .ok (.advanced u) ∧ finish s₀ r = .next u.epilogue) ∨
    (∃ u, (r = .ok (.jumped u) ∨ r = .ok (.waiting u)) ∧ finish s₀ r = .next u) ∨
    (∃ e, r = .error e ∧ finish s₀ r = .next (s₀.takeFault e)) := by
  rcases r with e | (u | u | u)
  · exact .inr (.inr ⟨e, rfl, rfl⟩)
  · exact .inl ⟨u, rfl, rfl⟩
  · exact .inr (.inl ⟨u, .inl rfl, rfl⟩)
  · exact .inr (.inl ⟨u, .inr rfl, rfl⟩)

/-- The epilogue as one record: it writes `DT`, `ST`, `play_beep` and `pc`, and nothing else (R97, R191). -/
theorem epilogue_eq (s : State) :
    s.epilogue = { s with
      DT := if s.DT.toNat > 0 then s.DT - 1 else s.DT
      ST := if s.ST.toNat > 0 then s.ST - 1 else s.ST
      playBeep := s.playBeep || s.ST.toNat == 1
      pc := s.pc + 2 } := by
  have h1 : s.ST = 1 ↔ s.ST.toNat = 1 := by
    rw [← BitVec.toNat_inj]; rfl
  unfold State.epilogue State.tickST State.tickDT
  by_cases hd : s.DT.toNat > 0
  · simp only [hd, if_true, State.setDT_ST, h1]
    by_cases ht : s.ST.toNat > 0
    · simp only [ht, if_true]
      by_cases hb : s.ST.toNat = 1
      · simp only [hb, if_true, beq_self_eq_true, Bool.or_true]; rfl
      · simp only [hb, if_false, beq_eq_false_iff_ne.2 hb, Bool.or_false]; rfl
    · simp only [ht, if_false, beq_eq_false_iff_ne.2 (show s.ST.toNat ≠ 1 by omega), Bool.or_false]; rfl
  · simp only [hd, if_false, h1]
    by_cases ht : s.ST.toNat > 0
    · simp only [ht, if_true]
      by_cases hb : s.ST.toNat = 1
      · simp only [hb, if_true, beq_self_eq_true, Bool.or_true]; rfl
      · simp only [hb, if_false, beq_eq_false_iff_ne.2 hb, Bool.or_false]; rfl
    · simp only [ht, if_false, beq_eq_false_iff_ne.2 (show s.ST.toNat ≠ 1 by omega), Bool.or_false]; rfl

@[simp] theorem epilogue_mem (s : State) : s.epilogue.mem = s.mem := by rw [epilogue_eq]
@[simp] theorem epilogue_V (s : State) : s.epilogue.V = s.V := by rw [epilogue_eq]
@[simp] theorem epilogue_I (s : State) : s.epilogue.I = s.I := by rw [epilogue_eq]
@[simp] theorem epilogue_pc (s : State) : s.epilogue.pc = s.pc + 2 := by rw [epilogue_eq]
@[simp] theorem epilogue_stack (s : State) : s.epilogue.stack = s.stack := by rw [epilogue_eq]
@[simp] theorem epilogue_sp (s : State) : s.epilogue.sp = s.sp := by rw [epilogue_eq]
@[simp] theorem epilogue_disp (s : State) : s.epilogue.disp = s.disp := by rw [epilogue_eq]
@[simp] theorem epilogue_keys (s : State) : s.epilogue.keys = s.keys := by rw [epilogue_eq]
@[simp] theorem epilogue_needDraw (s : State) : s.epilogue.needDraw = s.needDraw := by rw [epilogue_eq]
@[simp] theorem epilogue_playBeep (s : State) : s.epilogue.playBeep = (s.playBeep || s.ST.toNat == 1) := by rw [epilogue_eq]
@[simp] theorem epilogue_fault (s : State) : s.epilogue.fault = s.fault := by rw [epilogue_eq]
@[simp] theorem epilogue_rnd (s : State) : s.epilogue.rnd = s.rnd := by rw [epilogue_eq]
@[simp] theorem epilogue_rndDraws (s : State) : s.epilogue.rndDraws = s.rndDraws := by rw [epilogue_eq]
@[simp] theorem epilogue_getV (s : State) (r : Reg) : s.epilogue.getV r = s.getV r := by simp [State.getV]
@[simp] theorem epilogue_getStack (s : State) (j : Fin 16) : s.epilogue.getStack j = s.getStack j := by simp [State.getStack]
@[simp] theorem epilogue_cell (s : State) (c : Nat) : s.epilogue.cell c = s.cell c := by simp [State.cell]
@[simp] theorem epilogue_key (s : State) (k : Nat) : s.epilogue.key k = s.key k := by simp [State.key]

theorem toNat_sub_one {b : Byte} (h : 0 < b.toNat) : (b - 1).toNat = b.toNat - 1 := by
  have := b.isLt
  have h1 : (1 : Byte).toNat = 1 := rfl
  rw [BitVec.toNat_sub, h1]
  omega

@[simp] theorem epilogue_DT_toNat (s : State) : s.epilogue.DT.toNat = s.DT.toNat - 1 := by
  rw [epilogue_eq]
  by_cases h : s.DT.toNat > 0
  · simp only [h, if_true, toNat_sub_one h]
  · simp only [h, if_false]; omega

@[simp] theorem epilogue_ST_toNat (s : State) : s.epilogue.ST.toNat = s.ST.toNat - 1 := by
  rw [epilogue_eq]
  by_cases h : s.ST.toNat > 0
  · simp only [h, if_true, toNat_sub_one h]
  · simp only [h, if_false]; omega

/-- A taken skip moves `pc` by 2 before the epilogue; a skip not taken does nothing (R120). -/
theorem finish_skipIf (s₀ s : State) (c : Bool) :
    finish s₀ (.ok (skipIf s c)) = .next (if c then s.advancePc.epilogue else s.epilogue) := by
  cases c <;> rfl

/-! ### Keys (R170, R171, R173) -/

theorem keyOf_of_le {v : Byte} (h : v.toNat ≤ 15) : s.keyOf v = .ok (s.key v.toNat) := by
  simp [State.keyOf, Nat.not_lt.2 h]

theorem keyOf_of_gt {v : Byte} (h : 15 < v.toNat) : s.keyOf v = .error ⟨.keyIndexOutOfRange, v.toNat⟩ := by
  simp [State.keyOf, h]

/-- The scan answers the lowest pressed key of its range. -/
theorem firstKeyFrom_eq_some {m k j : Nat} (h : firstKeyFrom s m k = some j) :
    k ≤ j ∧ j < k + m ∧ s.key j = true ∧ ∀ i, k ≤ i → i < j → s.key i = false := by
  induction m generalizing k with
  | zero => simp [firstKeyFrom] at h
  | succ m ih =>
    simp only [firstKeyFrom] at h
    split at h
    · next hk => cases h; exact ⟨le_refl _, by omega, hk, fun i h1 h2 => by omega⟩
    · next hk =>
      obtain ⟨h1, h2, h3, h4⟩ := ih h
      refine ⟨by omega, by omega, h3, fun i hi1 hi2 => ?_⟩
      rcases Nat.eq_or_lt_of_le hi1 with rfl | hlt
      · simpa using hk
      · exact h4 i (by omega) hi2

theorem firstKeyFrom_eq_none {m k : Nat} :
    firstKeyFrom s m k = none ↔ ∀ i, k ≤ i → i < k + m → s.key i = false := by
  induction m generalizing k with
  | zero => simp [firstKeyFrom]; intro i h1 h2; omega
  | succ m ih =>
    simp only [firstKeyFrom]
    split
    · next hk => simp only [reduceCtorEq, false_iff]; intro h; simp [h k (le_refl _) (by omega)] at hk
    · next hk =>
      rw [ih]
      constructor
      · intro h i h1 h2
        rcases Nat.eq_or_lt_of_le h1 with rfl | hlt
        · simpa using hk
        · exact h i (by omega) (by omega)
      · intro h i h1 h2; exact h i (by omega) (by omega)

/-- The scan of all sixteen latches: the lowest pressed key. -/
theorem firstKey_eq_some {j : Nat} (h : firstKey s = some j) :
    j < 16 ∧ s.key j = true ∧ ∀ i, i < j → s.key i = false := by
  obtain ⟨_, h2, h3, h4⟩ := firstKeyFrom_eq_some h
  exact ⟨by omega, h3, fun i hi => h4 i (Nat.zero_le _) hi⟩

/-- No latch above the sixteen is pressed. -/
theorem key_of_ge {k : Nat} (h : 16 ≤ k) : s.key k = false := by
  simp [State.key, BitVec.getLsbD_of_ge _ _ h]

theorem firstKey_eq_none : firstKey s = none ↔ ∀ k, s.key k = false := by
  unfold firstKey
  rw [firstKeyFrom_eq_none]
  constructor
  · intro h k
    by_cases hk : k < 16
    · exact h k (Nat.zero_le _) (by omega)
    · exact key_of_ge (by omega)
  · intro h i _ _; exact h i

/-! ### Fetch (R91, R92) -/

theorem fetchable_iff {pc : Word} :
    fetchable pc = true ↔ pc.toNat % 2 = 0 ∧ 0x200 ≤ pc.toNat ∧ pc.toNat ≤ 0xFFE := by
  simp only [fetchable, Config.lastFetch, Bool.and_eq_true, beq_iff_eq, and_assoc]
  exact ⟨fun h => ⟨h.1, of_decide_eq_true h.2.1, of_decide_eq_true h.2.2⟩,
    fun h => ⟨h.1, decide_eq_true h.2.1, decide_eq_true h.2.2⟩⟩

theorem fetch_of_fetchable (h : fetchable s.pc = true) :
    s.fetch = .ok (wordOfBytes (s.mem.read s.pc.toNat) (s.mem.read (s.pc.toNat + 1))) := by
  obtain ⟨_, _, h3⟩ := fetchable_iff.1 h
  unfold State.fetch
  rw [if_pos h, memRead_of_le (by omega), memRead_of_le (by omega)]
  rfl

theorem fetch_of_not_fetchable (h : fetchable s.pc = false) : s.fetch = .error ⟨.fetchFault, s.pc.toNat⟩ := by
  unfold State.fetch
  rw [if_neg (by simp [h])]

end Sys2Proof.Machine
end

