-- ==== Sys2Proof/Laws/Frame.lean ====
section
/-! SUPPORT. Frames: how they compose, the frame of each update, and what the epilogue makes of one.  A statement about an
instruction is then its frame before the epilogue and a few values. -/

namespace Sys2Proof.Machine

variable {s t u : State} {c d : Field → Prop}

@[simp] theorem Field.same_refl (f : Field) (s : State) : f.same s s := by cases f <;> rfl

theorem Field.same_trans {f : Field} (h1 : f.same s t) (h2 : f.same t u) : f.same s u := by
  cases f <;> exact Eq.trans h2 h1

theorem Field.same_symm {f : Field} (h : f.same s t) : f.same t s := by
  cases f <;> exact Eq.symm h

theorem Frame.refl (c : Field → Prop) (s : State) : Frame c s s := fun f _ => f.same_refl s

theorem Frame.trans (h1 : Frame c s t) (h2 : Frame c t u) : Frame c s u :=
  fun f hf => Field.same_trans (h1 f hf) (h2 f hf)

theorem Frame.mono (h : Frame c s t) (hcd : ∀ f, c f → d f) : Frame d s t := fun f hf => h f (fun hc => hf (hcd f hc))

/-! ### The frame of each update -/

theorem frame_setV (s : State) (x : Reg) (v : Byte) : Frame (fun f => f = .V x) s (s.setV x v) := by
  intro f hf
  cases f with
  | V r => exact State.setV_getV_ne s v (fun h => hf (by rw [h]))
  | _ => rfl

/-- The frame of an instruction that writes the flag and then its destination. -/
theorem frame_setVF_setV (s : State) (x : Reg) (v w : Byte) :
    Frame (fun f => f = .V x ∨ f = .V VF) s ((s.setV VF v).setV x w) :=
  ((frame_setV s VF v).mono (fun _ h => .inr h)).trans ((frame_setV _ x w).mono (fun _ h => .inl h))

theorem frame_setI (s : State) (v : Word) : Frame (fun f => f = .I) s (s.setI v) := by
  intro f hf; cases f <;> first | rfl | exact absurd rfl hf

theorem frame_setPc (s : State) (v : Word) : Frame (fun f => f = .pc) s (s.setPc v) := by
  intro f hf; cases f <;> first | rfl | exact absurd rfl hf

theorem frame_setSp (s : State) (v : Fin 16) : Frame (fun f => f = .sp) s (s.setSp v) := by
  intro f hf; cases f <;> first | rfl | exact absurd rfl hf

theorem frame_setDT (s : State) (v : Byte) : Frame (fun f => f = .DT) s (s.setDT v) := by
  intro f hf; cases f <;> first | rfl | exact absurd rfl hf

theorem frame_setST (s : State) (v : Byte) : Frame (fun f => f = .ST) s (s.setST v) := by
  intro f hf; cases f <;> first | rfl | exact absurd rfl hf

theorem frame_requestDraw (s : State) : Frame (fun f => f = .needDraw) s s.requestDraw := by
  intro f hf; cases f <;> first | rfl | exact absurd rfl hf

theorem frame_clearDisp (s : State) : Frame (fun f => ∃ k, f = .disp k) s s.clearDisp := by
  intro f hf; cases f <;> first | rfl | exact absurd ⟨_, rfl⟩ hf

theorem frame_toggleCell (s : State) (k : Nat) : Frame (fun f => ∃ k, f = .disp k) s (s.toggleCell k) := by
  intro f hf; cases f <;> first | rfl | exact absurd ⟨_, rfl⟩ hf

theorem frame_drawRnd (s : State) : Frame (fun f => f = .rnd ∨ f = .rndDraws) s s.drawRnd := by
  intro f hf; cases f <;> first | rfl | exact absurd (.inl rfl) hf | exact absurd (.inr rfl) hf

theorem frame_setByte (s : State) (a : Nat) (v : Byte) : Frame (fun f => f = .mem a) s (s.setByte a v) := by
  intro f hf
  cases f with
  | mem b => exact Memory.read_write_ne _ _ (fun h => hf (by rw [h]))
  | _ => rfl

theorem frame_setStack (s : State) (j : Fin 16) (v : Word) : Frame (fun f => f = .stack j) s (s.setStack j v) := by
  intro f hf
  cases f with
  | stack k => exact State.setStack_getStack_ne s v (fun h => hf (by rw [h]))
  | _ => rfl

theorem frame_takeFault (s : State) (e : Raise) : Frame (fun f => f = .fault) s (s.takeFault e) := by
  intro f hf; cases f <;> first | rfl | exact absurd rfl hf

/-! ### The epilogue (R97, R191) -/

theorem frame_epilogue (s : State) : Frame epilogueField s s.epilogue := by
  intro f hf
  unfold epilogueField at hf
  cases f <;> simp_all [Field.same]

/-- What an Advanced step leaves, from the frame of its execute stage and the timers and `pc` it handed to the epilogue. -/
theorem advancedTo_epilogue {dt st : Byte} {pc' : Nat} (h : Frame (fun f => c f ∨ epilogueField f) s u)
    (hb : u.playBeep = s.playBeep) (hd : u.DT = dt) (ht : u.ST = st) (hp : u.pcPlus 2 = pc') :
    AdvancedTo s u.epilogue pc' dt st c := by
  subst hd ht hp
  exact ⟨by simp [State.pcPlus, BitVec.toNat_add], by simp, by simp, by simp [hb],
    h.trans ((frame_epilogue u).mono fun _ h => .inr h)⟩

/-- The plain case: the execute stage leaves the epilogue's fields alone. -/
theorem advanced_epilogue (h : Frame c s u) (hc : ∀ f, c f → ¬ epilogueField f) : Advanced s u.epilogue c := by
  have h' (f : Field) (hf : epilogueField f) : f.same s u := h f (fun hcf => hc f hcf hf)
  refine advancedTo_epilogue (h.mono fun _ h => .inl h) (h' .playBeep ?_) (h' .DT ?_) (h' .ST ?_) ?_
  · simp [epilogueField]
  · simp [epilogueField]
  · simp [epilogueField]
  · unfold State.pcPlus
    rw [show u.pc = s.pc from h' .pc (by simp [epilogueField])]

end Sys2Proof.Machine
end

