-- ==== Sys2Proof/Laws/Display.lean ====
section
/-! SUPPORT. Drawing: what a pixel, a column, a row and a whole sprite can do, and the faults each can raise (R161 to R165). -/

namespace Sys2Proof.Machine

variable {s t u : State} {x y : Reg}

/-- From `s` to `u` only `VF` and the framebuffer may have changed. -/
structure Drawn (s u : State) : Prop where
  onlyVDisp : u = { s with V := u.V, disp := u.disp }
  getV : ∀ r, r ≠ VF → u.getV r = s.getV r

theorem Drawn.refl (s : State) : Drawn s s := ⟨rfl, fun _ _ => rfl⟩

theorem Drawn.trans (h1 : Drawn s t) (h2 : Drawn t u) : Drawn s u :=
  ⟨by rw [h2.onlyVDisp, h1.onlyVDisp], fun r hr => (h2.getV r hr).trans (h1.getV r hr)⟩

theorem Drawn.mem (h : Drawn s u) : u.mem = s.mem := by rw [h.onlyVDisp]
theorem Drawn.I (h : Drawn s u) : u.I = s.I := by rw [h.onlyVDisp]
theorem Drawn.fault (h : Drawn s u) : u.fault = s.fault := by rw [h.onlyVDisp]

/-- The frame of drawing. -/
theorem Drawn.frame (h : Drawn s u) : Frame (fun f => f = .V VF ∨ ∃ c, f = .disp c) s u := by
  intro f hf
  cases f with
  | V r => exact h.getV r (fun e => hf (.inl (by rw [e])))
  | disp c => exact absurd (.inr ⟨c, rfl⟩) hf
  | _ => rw [h.onlyVDisp]; rfl

/-- The state a drawn pixel leaves: the collision value in `VF`, then the cell flipped. -/
def pixelState (s : State) (c : Nat) : State := (s.setV VF (collisionFlag s c)).toggleCell c

theorem drawn_pixelState (s : State) (c : Nat) : Drawn s (pixelState s c) :=
  ⟨rfl, fun r hr => by simp [pixelState, hr]⟩

theorem drawPixel_eq (x y : Reg) (Y X : Nat) (s : State) :
    drawPixel x y Y X s =
      if cellIndex (s.getV x) (s.getV y) Y X > 2047 then .error ⟨.displayOutOfRange, cellIndex (s.getV x) (s.getV y) Y X⟩
      else .ok (pixelState s (cellIndex (s.getV x) (s.getV y) Y X)) := rfl

/-- The cell of a pixel is at most 17478, for rows below 15 and columns below 8 (R164). -/
theorem cellIndex_le {vx vy : Byte} {Y X : Nat} (hY : Y < 15) (hX : X < 8) : cellIndex vx vy Y X ≤ 17478 := by
  have := vx.isLt
  have := vy.isLt
  simp only [cellIndex, Config.dispW]
  omega

theorem drawColumn_ok {Y X : Nat} {row : Byte} (h : drawColumn x y Y row X s = .ok t) : Drawn s t := by
  unfold drawColumn at h
  split at h
  · rw [drawPixel_eq] at h
    split at h
    · cases h
    · cases h; exact drawn_pixelState _ _
  · cases h; exact Drawn.refl s

theorem drawColumn_error {Y X : Nat} {row : Byte} {e : Raise} (h : drawColumn x y Y row X s = .error e) :
    e.kind = .displayOutOfRange ∧ 2047 < e.info ∧ e.info = cellIndex (s.getV x) (s.getV y) Y X := by
  unfold drawColumn at h
  split at h
  · rw [drawPixel_eq] at h
    split at h
    · next hc => cases h; exact ⟨rfl, hc, rfl⟩
    · cases h
  · cases h

theorem drawColumns_ok {Y k i : Nat} {row : Byte} (h : forUp (drawColumn x y Y row) k i s = .ok t) : Drawn s t :=
  forUp_ok_induct (P := fun _ u => Drawn s u) h (Drawn.refl s) (fun _ _ _ _ _ hp hf => hp.trans (drawColumn_ok hf))

/-- A row that can be read is its eight columns. -/
theorem drawRow_of_le {Y : Nat} (h : effectiveAddr s Y ≤ 0xFFF) :
    drawRow x y Y s = forUp (drawColumn x y Y (s.mem.read (effectiveAddr s Y))) 8 0 s := by
  simp [drawRow, memRead_of_le h, bind, Except.bind]

theorem drawRow_of_gt {Y : Nat} (h : 0xFFF < effectiveAddr s Y) :
    drawRow x y Y s = .error ⟨.memoryOutOfRange, effectiveAddr s Y⟩ := by
  simp [drawRow, memRead_of_gt h, bind, Except.bind]

theorem drawRow_ok {Y : Nat} (h : drawRow x y Y s = .ok t) : effectiveAddr s Y ≤ 0xFFF ∧ Drawn s t := by
  by_cases ha : effectiveAddr s Y ≤ 0xFFF
  · rw [drawRow_of_le ha] at h; exact ⟨ha, drawColumns_ok h⟩
  · rw [drawRow_of_gt (Nat.lt_of_not_le ha)] at h; cases h

theorem drawRow_error {Y : Nat} {e : Raise} (hY : Y < 15) (h : drawRow x y Y s = .error e) :
    (0xFFF < effectiveAddr s Y ∧ e = ⟨.memoryOutOfRange, effectiveAddr s Y⟩) ∨
    (effectiveAddr s Y ≤ 0xFFF ∧ e.kind = .displayOutOfRange ∧ 2047 < e.info ∧ e.info ≤ 17478) := by
  by_cases ha : effectiveAddr s Y ≤ 0xFFF
  · rw [drawRow_of_le ha] at h
    obtain ⟨X, u, -, hX, -, he⟩ := forUp_error_induct (P := fun _ _ => True) h trivial (fun _ _ _ _ _ _ _ => trivial)
    obtain ⟨h1, h2, h3⟩ := drawColumn_error he
    exact .inr ⟨ha, h1, h2, h3 ▸ cellIndex_le hY (by omega)⟩
  · rw [drawRow_of_gt (Nat.lt_of_not_le ha)] at h
    cases h
    exact .inl ⟨Nat.lt_of_not_le ha, rfl⟩

/-- A draw that succeeds read every row and changed only `VF` and the framebuffer. -/
theorem drawRows_ok {k : Nat} (h : forUp (drawRow x y) k 0 s = .ok t) :
    Drawn s t ∧ ∀ Y, Y < k → effectiveAddr s Y ≤ 0xFFF := by
  have := forUp_ok_induct (P := fun j u => Drawn s u ∧ ∀ Y, Y < j → effectiveAddr s Y ≤ 0xFFF) h
    ⟨Drawn.refl s, fun _ h => by omega⟩ (fun j u v _ _ hp hf => by
      obtain ⟨ha, hd⟩ := drawRow_ok hf
      refine ⟨hp.1.trans hd, fun Y hY => ?_⟩
      rcases Nat.lt_succ_iff_lt_or_eq.1 hY with h | rfl
      · exact hp.2 Y h
      · simpa only [effectiveAddr, hp.1.I] using ha)
  rwa [Nat.zero_add] at this

/-- The two faults of a draw: the first row past 0xFFF, or a cell past 2047. -/
theorem drawRows_error {k : Nat} (hk : k ≤ 15) {e : Raise} (h : forUp (drawRow x y) k 0 s = .error e) :
    (0x1000 < s.I.toNat + k ∧ e = ⟨.memoryOutOfRange, max s.I.toNat 0x1000⟩) ∨
    (e.kind = .displayOutOfRange ∧ 2047 < e.info ∧ e.info ≤ 17478) := by
  obtain ⟨j, u, -, hj, ⟨hp, hprev⟩, he⟩ := forUp_error_induct
    (P := fun j u => Drawn s u ∧ (0 < j → s.I.toNat + j ≤ 0x1000)) h
    ⟨Drawn.refl s, fun h => by omega⟩ (fun j u v _ hj hp hf => by
      obtain ⟨ha, hd⟩ := drawRow_ok hf
      refine ⟨hp.1.trans hd, fun _ => ?_⟩
      simp only [effectiveAddr, hp.1.I] at ha
      omega)
  rcases drawRow_error (by omega) he with ⟨h1, rfl⟩ | ⟨-, h1, h2, h3⟩
  · simp only [effectiveAddr, hp.I] at h1 ⊢
    refine .inl ⟨by omega, ?_⟩
    congr 1
    rcases Nat.eq_zero_or_pos j with rfl | hpos
    · omega
    · have := hprev hpos; omega
  · exact .inr ⟨h1, h2, h3⟩

end Sys2Proof.Machine
end

