-- ==== Sys2Proof/Laws/Transfers.lean ====
section
/-! SUPPORT. The loops of Fx55 and Fx65 and the three writes of Fx33: what each leaves, and the one fault each can raise. -/

namespace Sys2Proof.Machine

variable {s t : State}

theorem listReg_val (r : Reg) : listReg r.val = r := by
  apply Fin.ext; simp [listReg]

theorem listReg_of_lt {k : Nat} (h : k < 16) : listReg k = ⟨k, h⟩ := listReg_val ⟨k, h⟩

/-- The state after `j` stores of Fx55: only memory has changed, the first `j` registers are stored, the rest reads as before. -/
structure Stored (s : State) (j : Nat) (u : State) : Prop where
  onlyMem : u = { s with mem := u.mem }
  stored : ∀ r : Reg, r.val < j → u.mem.read (effectiveAddr s r.val) = s.getV r
  other : ∀ a, a < s.I.toNat ∨ s.I.toNat + j ≤ a → u.mem.read a = s.mem.read a
  canonical : s.mem.wf = true → u.mem.wf = true

theorem Stored.zero (s : State) : Stored s 0 s := ⟨rfl, fun _ h => by omega, fun _ _ => rfl, id⟩

theorem Stored.I {j : Nat} {u : State} (h : Stored s j u) : u.I = s.I := by rw [h.onlyMem]

theorem Stored.getV {j : Nat} {u : State} (h : Stored s j u) (r : Reg) : u.getV r = s.getV r := by rw [h.onlyMem]; rfl

/-- One store, from `j` registers stored to `j + 1`. -/
theorem Stored.step {j : Nat} {u v : State} (hj : j < 16) (h : Stored s j u) (hv : storeReg j u = .ok v) :
    Stored s (j + 1) v := by
  unfold storeReg at hv
  rw [memWrite_eq_ok] at hv
  obtain ⟨h1, h2, rfl⟩ := hv
  have hI := h.I
  refine ⟨?_, fun r hr => ?_, fun a ha => ?_, fun hw => ?_⟩
  · rw [h.onlyMem]; rfl
  · simp only [State.setByte_mem, Memory.read_write, effectiveAddr, hI]
    by_cases e : r.val = j
    · subst e; rw [if_pos rfl, listReg_val, h.getV]
    · rw [if_neg (by omega)]; exact h.stored r (by omega)
  · simp only [State.setByte_mem, Memory.read_write, effectiveAddr, hI]
    rw [if_neg (by omega)]
    exact h.other a (by omega)
  · exact Memory.wf_write _ (h.canonical hw) (by simp [Config.memSize]; omega)

/-- The store loop, when it succeeds. -/
theorem forUp_storeReg_ok {k : Nat} (hk : k ≤ 16) (h : forUp storeReg k 0 s = .ok t) : Stored s k t := by
  have := forUp_ok_induct (P := Stored s) h (Stored.zero s) (fun j u v _ h2 hp hf => hp.step (by omega) hf)
  rwa [Nat.zero_add] at this

/-- The store loop succeeds when every address can be written. -/
theorem forUp_storeReg_of_mem {k : Nat} (hk : k ≤ 16) (h1 : 0x200 ≤ s.I.toNat) (h2 : s.I.toNat + k ≤ 0x1000) :
    ∃ t, forUp storeReg k 0 s = .ok t ∧ Stored s k t := by
  obtain ⟨t, ht, hp⟩ := forUp_ok_of (f := storeReg) (P := Stored s) (k := k) (i := 0) (Stored.zero s) (fun j u _ hj hp => by
    have hw : storeReg j u = .ok (u.setByte (effectiveAddr u j) (u.getV (listReg j))) :=
      memWrite_of_mem _ (by simp only [effectiveAddr, hp.I]; omega) (by simp only [effectiveAddr, hp.I]; omega)
    exact ⟨_, hw, hp.step (by omega) hw⟩)
  rw [Nat.zero_add] at hp
  exact ⟨t, ht, hp⟩

/-- The one fault of the store loop: the first address that cannot be written. -/
theorem forUp_storeReg_error {k : Nat} (hk : k ≤ 16) {e : Raise} (h : forUp storeReg k 0 s = .error e) :
    (s.I.toNat < 0x200 ∧ 0 < k ∧ e = ⟨.reservedWrite, s.I.toNat⟩) ∨
    (0x200 ≤ s.I.toNat ∧ 0x1000 < s.I.toNat + k ∧ e = ⟨.memoryOutOfRange, max s.I.toNat 0x1000⟩) := by
  obtain ⟨j, u, -, hj, ⟨hp, hprev⟩, he⟩ := forUp_error_induct
    (P := fun j u => Stored s j u ∧ (0 < j → 0x200 ≤ s.I.toNat ∧ s.I.toNat + j ≤ 0x1000)) h
    ⟨Stored.zero s, fun h => by omega⟩ (fun j u v _ hj hp hf => by
      refine ⟨hp.1.step (by omega) hf, fun _ => ?_⟩
      unfold storeReg at hf
      rw [memWrite_eq_ok] at hf
      obtain ⟨h1, h2, -⟩ := hf
      simp only [effectiveAddr, hp.1.I] at h1 h2
      rcases Nat.eq_zero_or_pos j with rfl | hpos
      · omega
      · have := hp.2 hpos; omega)
  unfold storeReg at he
  rw [memWrite_eq_error] at he
  simp only [effectiveAddr, hp.I] at he
  rcases Nat.eq_zero_or_pos j with rfl | hpos
  · rcases he with ⟨h1, rfl⟩ | ⟨h1, rfl⟩
    · right; refine ⟨by omega, by omega, ?_⟩; congr 1; omega
    · left; exact ⟨by omega, by omega, rfl⟩
  · have := hprev hpos
    rcases he with ⟨h1, rfl⟩ | ⟨h1, rfl⟩
    · right; refine ⟨by omega, by omega, ?_⟩; congr 1; omega
    · omega

/-- The state after `j` loads of Fx65: only the first `j` registers have changed. -/
structure Loaded (s : State) (j : Nat) (u : State) : Prop where
  onlyV : u = { s with V := u.V }
  loaded : ∀ r : Reg, r.val < j → u.getV r = s.mem.read (effectiveAddr s r.val)
  other : ∀ r : Reg, j ≤ r.val → u.getV r = s.getV r

theorem Loaded.zero (s : State) : Loaded s 0 s := ⟨rfl, fun _ h => by omega, fun _ _ => rfl⟩

theorem Loaded.I {j : Nat} {u : State} (h : Loaded s j u) : u.I = s.I := by rw [h.onlyV]

theorem Loaded.mem {j : Nat} {u : State} (h : Loaded s j u) : u.mem = s.mem := by rw [h.onlyV]

/-- One load is a read of its address. -/
theorem loadReg_eq_ok {j : Nat} {u v : State} :
    loadReg j u = .ok v ↔ effectiveAddr u j ≤ 0xFFF ∧ v = u.setV (listReg j) (u.mem.read (effectiveAddr u j)) := by
  unfold loadReg
  by_cases h : effectiveAddr u j ≤ 0xFFF
  · simp [memRead_of_le h, bind, Except.bind, pure, Except.pure, h, eq_comm]
  · simp [memRead_of_gt (Nat.lt_of_not_le h), bind, Except.bind, h]

theorem loadReg_eq_error {j : Nat} {u : State} {e : Raise} :
    loadReg j u = .error e ↔ 0xFFF < effectiveAddr u j ∧ e = ⟨.memoryOutOfRange, effectiveAddr u j⟩ := by
  unfold loadReg
  by_cases h : effectiveAddr u j ≤ 0xFFF
  · simp [memRead_of_le h, bind, Except.bind, pure, Except.pure, h]
  · simp [memRead_of_gt (Nat.lt_of_not_le h), bind, Except.bind, Nat.lt_of_not_le h, eq_comm]

theorem Loaded.step {j : Nat} {u v : State} (hj : j < 16) (h : Loaded s j u) (hv : loadReg j u = .ok v) :
    Loaded s (j + 1) v := by
  obtain ⟨h1, rfl⟩ := loadReg_eq_ok.1 hv
  refine ⟨?_, fun r hr => ?_, fun r hr => ?_⟩
  · rw [h.onlyV]; rfl
  · rw [State.setV_getV, listReg_of_lt hj]
    by_cases e : r.val = j
    · rw [if_pos (Fin.ext e), h.mem, effectiveAddr, effectiveAddr, h.I, e]
    · rw [if_neg (fun h => e (congrArg Fin.val h))]; exact h.loaded r (by omega)
  · rw [State.setV_getV, listReg_of_lt hj, if_neg (fun h => by rw [h] at hr; simp at hr)]
    exact h.other r (by omega)

/-- The load loop, when it succeeds. -/
theorem forUp_loadReg_ok {k : Nat} (hk : k ≤ 16) (h : forUp loadReg k 0 s = .ok t) : Loaded s k t := by
  have := forUp_ok_induct (P := Loaded s) h (Loaded.zero s) (fun j u v _ h2 hp hf => hp.step (by omega) hf)
  rwa [Nat.zero_add] at this

/-- The load loop succeeds when every address can be read. -/
theorem forUp_loadReg_of_mem {k : Nat} (hk : k ≤ 16) (h : s.I.toNat + k ≤ 0x1000) :
    ∃ t, forUp loadReg k 0 s = .ok t ∧ Loaded s k t := by
  obtain ⟨t, ht, hp⟩ := forUp_ok_of (f := loadReg) (P := Loaded s) (k := k) (i := 0) (Loaded.zero s) (fun j u _ hj hp => by
    have hw : loadReg j u = .ok (u.setV (listReg j) (u.mem.read (effectiveAddr u j))) :=
      loadReg_eq_ok.2 ⟨by simp only [effectiveAddr, hp.I]; omega, rfl⟩
    exact ⟨_, hw, hp.step (by omega) hw⟩)
  rw [Nat.zero_add] at hp
  exact ⟨t, ht, hp⟩

/-- The one fault of the load loop: the first address past 0xFFF. -/
theorem forUp_loadReg_error {k : Nat} (hk : k ≤ 16) {e : Raise} (h : forUp loadReg k 0 s = .error e) :
    0x1000 < s.I.toNat + k ∧ e = ⟨.memoryOutOfRange, max s.I.toNat 0x1000⟩ := by
  obtain ⟨j, u, -, hj, ⟨hp, hprev⟩, he⟩ := forUp_error_induct
    (P := fun j u => Loaded s j u ∧ (0 < j → s.I.toNat + j ≤ 0x1000)) h
    ⟨Loaded.zero s, fun h => by omega⟩ (fun j u v _ hj hp hf => by
      refine ⟨hp.1.step (by omega) hf, fun _ => ?_⟩
      have h1 := (loadReg_eq_ok.1 hf).1
      simp only [effectiveAddr, hp.1.I] at h1
      omega)
  obtain ⟨h1, rfl⟩ := loadReg_eq_error.1 he
  simp only [effectiveAddr, hp.I] at h1 ⊢
  refine ⟨by omega, ?_⟩
  congr 1
  rcases Nat.eq_zero_or_pos j with rfl | hpos
  · omega
  · have := hprev hpos; omega

/-- The three writes of Fx33: the state after all three, or the one fault. -/
theorem executeLdBV_cases (x : Reg) (s : State) :
    (0x200 ≤ s.I.toNat ∧ s.I.toNat + 2 ≤ 0xFFF ∧ executeLdBV x s = .ok (.advanced
      (((s.setByte s.I.toNat (hundreds (s.getV x))).setByte (s.I.toNat + 1) (tens (s.getV x))).setByte
        (s.I.toNat + 2) (ones (s.getV x))))) ∨
    (s.I.toNat < 0x200 ∧ executeLdBV x s = .error ⟨.reservedWrite, s.I.toNat⟩) ∨
    (0xFFF < s.I.toNat + 2 ∧ executeLdBV x s = .error ⟨.memoryOutOfRange, max s.I.toNat 0x1000⟩) := by
  have hI : s.I.toNat < 65536 := s.I.isLt
  unfold executeLdBV
  simp only [effectiveAddr, Nat.add_zero]
  by_cases h0 : s.I.toNat < 0x200
  · refine .inr (.inl ⟨h0, ?_⟩)
    simp [memWrite_of_lt _ h0, bind, Except.bind]
  · by_cases h1 : 0xFFF < s.I.toNat
    · refine .inr (.inr ⟨by omega, ?_⟩)
      rw [show max s.I.toNat 0x1000 = s.I.toNat by omega]
      simp [memWrite_of_gt _ h1, bind, Except.bind]
    · rw [memWrite_of_mem _ (by omega) (by omega)]
      simp only [bind, Except.bind, State.setByte_I]
      by_cases h2 : 0xFFF < s.I.toNat + 1
      · refine .inr (.inr ⟨by omega, ?_⟩)
        rw [show max s.I.toNat 0x1000 = s.I.toNat + 1 by omega, memWrite_of_gt _ h2]
      · rw [memWrite_of_mem _ (by omega) (by omega)]
        simp only [State.setByte_I]
        by_cases h3 : 0xFFF < s.I.toNat + 2
        · refine .inr (.inr ⟨by omega, ?_⟩)
          rw [show max s.I.toNat 0x1000 = s.I.toNat + 2 by omega, memWrite_of_gt _ h3]
        · rw [memWrite_of_mem _ (by omega) (by omega)]
          exact .inl ⟨by omega, by omega, rfl⟩

end Sys2Proof.Machine
end

