-- ==== Sys2Proof/Laws/Exec.lean ====
section
/-! SUPPORT. Every meaning is its execute stage followed by the end of the step; the execute stage of every instruction in one
place, so that a proof about all instructions splits on it once. -/

namespace Sys2Proof.Machine

/-- The execute stage of an instruction (R94). -/
def executeStage (i : Instr) (s : State) : Except Raise ExecOutcome :=
  match i with
  | .cls => executeCls s
  | .ret => executeRet s
  | .jp nnn => executeJp nnn s
  | .call nnn => executeCall nnn s
  | .seImm x nn => executeSeImm x nn s
  | .sneImm x nn => executeSneImm x nn s
  | .seReg x y => executeSeReg x y s
  | .ldImm x nn => executeLdImm x nn s
  | .addImm x nn => executeAddImm x nn s
  | .ldReg x y => executeLdReg x y s
  | .or x y => executeOr x y s
  | .and x y => executeAnd x y s
  | .xor x y => executeXor x y s
  | .addReg x y => executeAddReg x y s
  | .sub x y => executeSub x y s
  | .shr x y => executeShr x y s
  | .subn x y => executeSubn x y s
  | .shl x y => executeShl x y s
  | .sneReg x y => executeSneReg x y s
  | .ldI nnn => executeLdI nnn s
  | .jpV0 nnn => executeJpV0 nnn s
  | .rnd x nn => executeRnd x nn s
  | .drw x y n => executeDrw x y n s
  | .skp x => executeSkp x s
  | .sknp x => executeSknp x s
  | .ldVDt x => executeLdVDt x s
  | .ldVK x => executeLdVK x s
  | .ldDtV x => executeLdDtV x s
  | .ldStV x => executeLdStV x s
  | .addIV x => executeAddIV x s
  | .ldFV x => executeLdFV x s
  | .ldBV x => executeLdBV x s
  | .ldMemV x => executeLdMemV x s
  | .ldVMem x => executeLdVMem x s

/-- `exec` is the execute stage and the end of the step. -/
theorem exec_eq_finish (i : Instr) (s : State) : exec i s = finish s (executeStage i s) := by cases i <;> rfl

/-- A draw's execute stage, when it succeeds. -/
theorem executeDrw_ok {x y : Reg} {n : Nibble} {s : State} {o : ExecOutcome} (h : executeDrw x y n s = .ok o) :
    ∃ u, forUp (drawRow x y) n.toNat 0 s = .ok u ∧ o = .advanced u.requestDraw := by
  unfold executeDrw at h
  cases hf : forUp (drawRow x y) n.toNat 0 s with
  | ok u => rw [hf] at h; cases h; exact ⟨u, rfl, rfl⟩
  | error e => rw [hf] at h; cases h

theorem executeDrw_error {x y : Reg} {n : Nibble} {s : State} {e : Raise} :
    executeDrw x y n s = .error e ↔ forUp (drawRow x y) n.toNat 0 s = .error e := by
  unfold executeDrw
  cases hf : forUp (drawRow x y) n.toNat 0 s <;> simp [bind, Except.bind, pure, Except.pure]

/-- The execute stage of Fx55, when it succeeds. -/
theorem executeLdMemV_ok {x : Reg} {s : State} {o : ExecOutcome} (h : executeLdMemV x s = .ok o) :
    ∃ u, forUp storeReg (x.val + 1) 0 s = .ok u ∧ o = .advanced (u.bumpI (x.val + 1)) := by
  unfold executeLdMemV at h
  cases hf : forUp storeReg (x.val + 1) 0 s with
  | ok u => rw [hf] at h; cases h; exact ⟨u, rfl, rfl⟩
  | error e => rw [hf] at h; cases h

theorem executeLdMemV_error {x : Reg} {s : State} {e : Raise} :
    executeLdMemV x s = .error e ↔ forUp storeReg (x.val + 1) 0 s = .error e := by
  unfold executeLdMemV
  cases hf : forUp storeReg (x.val + 1) 0 s <;> simp [bind, Except.bind, pure, Except.pure]

/-- The execute stage of Fx65, when it succeeds. -/
theorem executeLdVMem_ok {x : Reg} {s : State} {o : ExecOutcome} (h : executeLdVMem x s = .ok o) :
    ∃ u, forUp loadReg (x.val + 1) 0 s = .ok u ∧ o = .advanced (u.bumpI (x.val + 1)) := by
  unfold executeLdVMem at h
  cases hf : forUp loadReg (x.val + 1) 0 s with
  | ok u => rw [hf] at h; cases h; exact ⟨u, rfl, rfl⟩
  | error e => rw [hf] at h; cases h

theorem executeLdVMem_error {x : Reg} {s : State} {e : Raise} :
    executeLdVMem x s = .error e ↔ forUp loadReg (x.val + 1) 0 s = .error e := by
  unfold executeLdVMem
  cases hf : forUp loadReg (x.val + 1) 0 s <;> simp [bind, Except.bind, pure, Except.pure]

/-- The two key skips: the fault on a value above 15, or the skip on the latch (R170, R171). -/
theorem executeSkp_eq (x : Reg) (s : State) :
    executeSkp x s = if (s.getV x).toNat > 15 then .error ⟨.keyIndexOutOfRange, (s.getV x).toNat⟩
      else .ok (skipIf s (s.key (s.getV x).toNat)) := by
  unfold executeSkp
  split
  · next h => simp [keyOf_of_gt h, bind, Except.bind]
  · next h => simp [keyOf_of_le (Nat.not_lt.1 h), bind, Except.bind, pure, Except.pure]

theorem executeSknp_eq (x : Reg) (s : State) :
    executeSknp x s = if (s.getV x).toNat > 15 then .error ⟨.keyIndexOutOfRange, (s.getV x).toNat⟩
      else .ok (skipIf s (!s.key (s.getV x).toNat)) := by
  unfold executeSknp
  split
  · next h => simp [keyOf_of_gt h, bind, Except.bind]
  · next h => simp [keyOf_of_le (Nat.not_lt.1 h), bind, Except.bind, pure, Except.pure]

end Sys2Proof.Machine
end

