-- ==== Sys2Proof/Laws/HostPort.lean ====
section
/-! SUPPORT. The host interface: what placing an image leaves, when an action is allowed, and what an event can do, once for all. -/

namespace Sys2Proof.Machine

/-! ### Placing an image -/

section
variable (s : State) (image : List Byte)

@[simp] theorem State.placeImage_mem : (s.placeImage image).mem = s.mem.writeBytes Config.progBase image := rfl
@[simp] theorem State.placeImage_V : (s.placeImage image).V = s.V := rfl
@[simp] theorem State.placeImage_I : (s.placeImage image).I = s.I := rfl
@[simp] theorem State.placeImage_pc : (s.placeImage image).pc = s.pc := rfl
@[simp] theorem State.placeImage_stack : (s.placeImage image).stack = s.stack := rfl
@[simp] theorem State.placeImage_sp : (s.placeImage image).sp = s.sp := rfl
@[simp] theorem State.placeImage_DT : (s.placeImage image).DT = s.DT := rfl
@[simp] theorem State.placeImage_ST : (s.placeImage image).ST = s.ST := rfl
@[simp] theorem State.placeImage_disp : (s.placeImage image).disp = s.disp := rfl
@[simp] theorem State.placeImage_keys : (s.placeImage image).keys = s.keys := rfl
@[simp] theorem State.placeImage_needDraw : (s.placeImage image).needDraw = s.needDraw := rfl
@[simp] theorem State.placeImage_playBeep : (s.placeImage image).playBeep = s.playBeep := rfl
@[simp] theorem State.placeImage_fault : (s.placeImage image).fault = s.fault := rfl
@[simp] theorem State.placeImage_rnd : (s.placeImage image).rnd = s.rnd := rfl
@[simp] theorem State.placeImage_rndDraws : (s.placeImage image).rndDraws = s.rndDraws := rfl
@[simp] theorem State.placeImage_getStack (j : Fin 16) : (s.placeImage image).getStack j = s.getStack j := rfl

/-- An image of at most 3584 bytes fits (R201). -/
theorem imageFits_iff : imageFits image = true ↔ image.length ≤ 3584 := decide_eq_true_iff

/-- Placing an image touches its own bytes only. -/
theorem frame_placeImage : Frame (fun f => ∃ k, k < image.length ∧ f = .mem (0x200 + k)) s (s.placeImage image) := by
  intro f hf
  cases f with
  | mem a =>
    simp only [Field.same, State.placeImage_mem, Memory.read_writeBytes, Config.progBase]
    rw [dif_neg]
    exact fun h => hf ⟨a - 0x200, by omega, by rw [Nat.add_sub_cancel' h.1]⟩
  | _ => rfl

/-- Placing an image that fits keeps the canonical form. -/
theorem State.placeImage_wf {s : State} {image : List Byte} (h : s.mem.wf = true) (hf : imageFits image = true) :
    (s.placeImage image).mem.wf = true := by
  have := (imageFits_iff image).1 hf
  exact Memory.wf_writeBytes h (by simp only [Config.progBase, Config.memSize]; omega)

end

/-! ### Sessions -/

variable {c d : Session} {a : HostAction}

/-- Everything a step of a session can do. -/
theorem Session.step_eq_next : c.step = .next d ↔ Sys2Proof.Machine.step c.block = .next d.block ∧ d.fresh = false := by
  unfold Session.step
  cases Sys2Proof.Machine.step c.block with
  | next s => exact ⟨fun h => by cases h; exact ⟨rfl, rfl⟩, fun ⟨h, hf⟩ => by cases h; cases d; cases hf; rfl⟩
  | fault e => exact ⟨nofun, fun h => nomatch h.1⟩
  | refused e => exact ⟨nofun, fun h => nomatch h.1⟩

/-- Everything a host action of a session can do. -/
theorem Event.host_eq_next : (Event.host a).apply c = some (.next d) ↔
    a.allowed c.fresh = true ∧ d.block = a.apply c.block ∧ d.fresh = a.freshAfter c.fresh := by
  rw [Event.apply]
  split
  · next ha => exact ⟨fun h => by cases h; exact ⟨ha, rfl, rfl⟩, fun ⟨_, h, hf⟩ => by cases d; cases h; cases hf; rfl⟩
  · next ha => exact ⟨nofun, fun h => absurd h.1 ha⟩

end Sys2Proof.Machine
end

