-- ==== Sys2Proof/Laws/PerInstr.lean ====
section
/-! SUPPORT. Families of laws about every instruction as syntax, one lemma per constructor.

`TableRow`: the word of an instruction belongs to the instruction's own row of the opcode table (R76). -/

namespace Sys2Proof.Laws.TableRow

/-- The instruction's row selects its word. -/
def Statement (i : Instr) : Prop := i.row.selects (encode i) = true

/-! ### The three masks keep the fields that select -/

theorem encA_getLsbD (g : BitVec 4) (a : Addr12) (i : Nat) :
    (encA g a).getLsbD i = if i < 12 then a.getLsbD i else g.getLsbD (i - 12) :=
  BitVec.getLsbD_append (x := g) (y := a)

theorem encXNN_getLsbD (g : BitVec 4) (x : Reg) (nn : Byte) (i : Nat) :
    (encXNN g x nn).getLsbD i =
      if i < 8 then nn.getLsbD i else if i - 8 < 4 then (regBits x).getLsbD (i - 8) else g.getLsbD (i - 8 - 4) := by
  refine (BitVec.getLsbD_append (x := g ++ regBits x) (y := nn)).trans ?_
  rw [BitVec.getLsbD_append]

theorem encXYN_getLsbD (g : BitVec 4) (x y : Reg) (n : Nibble) (i : Nat) :
    (encXYN g x y n).getLsbD i =
      if i < 4 then n.getLsbD i
      else if i - 4 < 4 then (regBits y).getLsbD (i - 4)
      else if i - 4 - 4 < 4 then (regBits x).getLsbD (i - 4 - 4) else g.getLsbD (i - 4 - 4 - 4) := by
  refine (BitVec.getLsbD_append (x := g ++ regBits x ++ regBits y) (y := n)).trans ?_
  rw [BitVec.getLsbD_append, BitVec.getLsbD_append]

/-- 0xF000 keeps the group. -/
theorem encA_and (g : BitVec 4) (a : Addr12) : encA g a &&& 0xF000 = encA g 0 := by
  have hm : ∀ i < 16, (0xF000 : Word).getLsbD i = decide (12 ≤ i) := by decide
  apply BitVec.eq_of_getLsbD_eq
  intro i hi
  rw [BitVec.getLsbD_and, hm i hi, encA_getLsbD, encA_getLsbD]
  by_cases h : i < 12
  · simp [h]
  · simp [h, Nat.not_lt.1 h]

/-- 0xF000 keeps the group of a word with `x` and `nn`. -/
theorem encXNN_and (g : BitVec 4) (x : Reg) (nn : Byte) : encXNN g x nn &&& 0xF000 = encA g 0 := by
  rw [← encA_fields (encXNN g x nn), encA_and, group_encXNN]

/-- 0xF000 keeps the group of a word with `x`, `y` and `n`. -/
theorem encXYN_and (g : BitVec 4) (x y : Reg) (n : Nibble) : encXYN g x y n &&& 0xF000 = encA g 0 := by
  rw [← encA_fields (encXYN g x y n), encA_and, group_encXYN]

/-- 0xF0FF keeps the group and `nn`. -/
theorem encXNN_and_nn (g : BitVec 4) (x : Reg) (nn : Byte) : encXNN g x nn &&& 0xF0FF = encXNN g 0 nn := by
  have hm : ∀ i < 16, (0xF0FF : Word).getLsbD i = (decide (i < 8) || decide (12 ≤ i)) := by decide
  apply BitVec.eq_of_getLsbD_eq
  intro i hi
  rw [BitVec.getLsbD_and, hm i hi, encXNN_getLsbD, encXNN_getLsbD]
  by_cases h : i < 8
  · simp [h]
  · by_cases h2 : 12 ≤ i
    · simp [h, h2, show ¬ i - 8 < 4 by omega]
    · simp [h, h2, show i - 8 < 4 by omega, regBits]

/-- 0xF00F keeps the group and `n`. -/
theorem encXYN_and_n (g : BitVec 4) (x y : Reg) (n : Nibble) : encXYN g x y n &&& 0xF00F = encXYN g 0 0 n := by
  have hm : ∀ i < 16, (0xF00F : Word).getLsbD i = (decide (i < 4) || decide (12 ≤ i)) := by decide
  apply BitVec.eq_of_getLsbD_eq
  intro i hi
  rw [BitVec.getLsbD_and, hm i hi, encXYN_getLsbD, encXYN_getLsbD]
  by_cases h : i < 4
  · simp [h]
  · by_cases h2 : 12 ≤ i
    · simp [h, h2, show ¬ i - 4 < 4 by omega, show ¬ i - 4 - 4 < 4 by omega]
    · by_cases h3 : i - 4 < 4
      · simp [h, h2, h3, regBits]
      · simp [h, h2, h3, show i - 4 - 4 < 4 by omega, regBits]

/-! ### One lemma per constructor -/

section
variable (a : Addr12) (x y : Reg) (nn : Byte) (n : Nibble)

theorem cls : Statement .cls := beq_iff_eq.2 (by decide)
theorem ret : Statement .ret := beq_iff_eq.2 (by decide)
theorem jp : Statement (.jp a) := beq_iff_eq.2 (encA_and _ a)
theorem call : Statement (.call a) := beq_iff_eq.2 (encA_and _ a)
theorem seImm : Statement (.seImm x nn) := beq_iff_eq.2 (encXNN_and _ x nn)
theorem sneImm : Statement (.sneImm x nn) := beq_iff_eq.2 (encXNN_and _ x nn)
theorem seReg : Statement (.seReg x y) := beq_iff_eq.2 (encXYN_and_n _ x y _)
theorem ldImm : Statement (.ldImm x nn) := beq_iff_eq.2 (encXNN_and _ x nn)
theorem addImm : Statement (.addImm x nn) := beq_iff_eq.2 (encXNN_and _ x nn)
theorem ldReg : Statement (.ldReg x y) := beq_iff_eq.2 (encXYN_and_n _ x y _)
theorem or : Statement (.or x y) := beq_iff_eq.2 (encXYN_and_n _ x y _)
theorem and : Statement (.and x y) := beq_iff_eq.2 (encXYN_and_n _ x y _)
theorem xor : Statement (.xor x y) := beq_iff_eq.2 (encXYN_and_n _ x y _)
theorem addReg : Statement (.addReg x y) := beq_iff_eq.2 (encXYN_and_n _ x y _)
theorem sub : Statement (.sub x y) := beq_iff_eq.2 (encXYN_and_n _ x y _)
theorem shr : Statement (.shr x y) := beq_iff_eq.2 (encXYN_and_n _ x y _)
theorem subn : Statement (.subn x y) := beq_iff_eq.2 (encXYN_and_n _ x y _)
theorem shl : Statement (.shl x y) := beq_iff_eq.2 (encXYN_and_n _ x y _)
theorem sneReg : Statement (.sneReg x y) := beq_iff_eq.2 (encXYN_and_n _ x y _)
theorem ldI : Statement (.ldI a) := beq_iff_eq.2 (encA_and _ a)
theorem jpV0 : Statement (.jpV0 a) := beq_iff_eq.2 (encA_and _ a)
theorem rnd : Statement (.rnd x nn) := beq_iff_eq.2 (encXNN_and _ x nn)
theorem drw : Statement (.drw x y n) := beq_iff_eq.2 (encXYN_and _ x y n)
theorem skp : Statement (.skp x) := beq_iff_eq.2 (encXNN_and_nn _ x _)
theorem sknp : Statement (.sknp x) := beq_iff_eq.2 (encXNN_and_nn _ x _)
theorem ldVDt : Statement (.ldVDt x) := beq_iff_eq.2 (encXNN_and_nn _ x _)
theorem ldVK : Statement (.ldVK x) := beq_iff_eq.2 (encXNN_and_nn _ x _)
theorem ldDtV : Statement (.ldDtV x) := beq_iff_eq.2 (encXNN_and_nn _ x _)
theorem ldStV : Statement (.ldStV x) := beq_iff_eq.2 (encXNN_and_nn _ x _)
theorem addIV : Statement (.addIV x) := beq_iff_eq.2 (encXNN_and_nn _ x _)
theorem ldFV : Statement (.ldFV x) := beq_iff_eq.2 (encXNN_and_nn _ x _)
theorem ldBV : Statement (.ldBV x) := beq_iff_eq.2 (encXNN_and_nn _ x _)
theorem ldMemV : Statement (.ldMemV x) := beq_iff_eq.2 (encXNN_and_nn _ x _)
theorem ldVMem : Statement (.ldVMem x) := beq_iff_eq.2 (encXNN_and_nn _ x _)
end

end Sys2Proof.Laws.TableRow
end

