-- ==== Sys2Proof/Tests/Slice0.lean ====
section
/-! SUPPORT. The model's own tests: ill-formed terms refused, words decoded, one step per case.

Expected results are the spec's worked examples and vectors (95_test_vectors.md), named by their id, or hand calculation from
the rule cited.  No expected value is the model's own answer. -/

namespace Sys2Proof.Tests
open Sys2Proof Sys2Proof.Machine

/-! ### Ill-formed terms (R79, R201) -/

theorem test_wf_register_16 : (AsmLine.mk .ld [.v 16, .v 0]).wf = false := by decide
theorem test_wf_byte_256 : (AsmLine.mk .ld [.v 0, .num 256]).wf = false := by decide
theorem test_wf_address_4096 : (AsmLine.mk .jp [.num 4096]).wf = false := by decide
theorem test_wf_nibble_16 : (AsmLine.mk .drw [.v 0, .v 1, .num 16]).wf = false := by decide
theorem test_wf_data_byte_256 : (AsmLine.mk .db [.num 256]).wf = false := by decide
theorem test_wf_data_word_65536 : (AsmLine.mk .dw [.num 65536]).wf = false := by decide
theorem test_wf_jump_offset_register : (AsmLine.mk .jp [.v 1, .num 0x300]).wf = false := by decide
theorem test_wf_operand_form : (AsmLine.mk .cls [.v 0]).wf = false := by decide
theorem test_wf_image_3585 : imageFits (List.replicate 3585 0) = false := by
  unfold imageFits; rw [List.length_replicate]; decide
theorem test_wf_image_3584 : imageFits (List.replicate 3584 0) = true := by
  unfold imageFits; rw [List.length_replicate]; decide

/-- Program P1's lines `LD V1, 5`, `ADD V0, V1`, `SE V1, 0` (95_test_vectors.md, part 3). -/
theorem test_assemble :
    [AsmLine.mk .ld [.v 1, .num 5], .mk .add [.v 0, .v 1], .mk .se [.v 1, .num 0]].map assemble =
      [some [0x61, 0x05], some [0x80, 0x14], some [0x31, 0x00]] := by decide

/-! ### Decoding: a word for every constructor, written from the encodings of rules R74 and R76 -/

/-- The decoder on a list of words. -/
def decodes (ws : List Word) : List (Option Instr) := ws.map fun w => (decode w).toOption

theorem test_decode_display_control :
    decodes [0x00E0, 0x00EE, 0x1234, 0x2300, 0xB5FE, 0xDF01] =
      [some .cls, some .ret, some (.jp 0x234), some (.call 0x300), some (.jpV0 0x5FE), some (.drw 15 0 1)] := by decide
theorem test_decode_skips :
    decodes [0x3342, 0x4342, 0x5120, 0x9120] =
      [some (.seImm 3 0x42), some (.sneImm 3 0x42), some (.seReg 1 2), some (.sneReg 1 2)] := by decide
theorem test_decode_loads_alu :
    decodes [0x6A2F, 0x7220, 0x8010, 0x8011, 0x8012, 0x8013, 0x8124, 0x8125, 0x8456, 0x8017, 0x84AE, 0xC30F] =
      [some (.ldImm 10 0x2F), some (.addImm 2 0x20), some (.ldReg 0 1), some (.or 0 1), some (.and 0 1),
       some (.xor 0 1), some (.addReg 1 2), some (.sub 1 2), some (.shr 4 5), some (.subn 0 1),
       some (.shl 4 10), some (.rnd 3 0x0F)] := by decide
theorem test_decode_index_memory :
    decodes [0xA2F0, 0xFF1E, 0xF229, 0xF533, 0xF255, 0xF465] =
      [some (.ldI 0x2F0), some (.addIV 15), some (.ldFV 2), some (.ldBV 5), some (.ldMemV 2), some (.ldVMem 4)] := by decide
theorem test_decode_keys_timers :
    decodes [0xE19E, 0xE1A1, 0xF307, 0xF50A, 0xF215, 0xF218] =
      [some (.skp 1), some (.sknp 1), some (.ldVDt 3), some (.ldVK 5), some (.ldDtV 2), some (.ldStV 2)] := by decide

/-- TE1 to TE9: words that are no instruction. -/
theorem test_decode_unknown :
    decodes [0x0000, 0x00E1, 0x01E0, 0x0123, 0x00FF, 0x5121, 0x912F, 0x8008, 0x8129, 0x812F, 0xE09F, 0xF000, 0xF01F, 0xF0FF] =
      List.replicate 14 none := by decide
/-- R52, R70: bytes are taken high first, two at a time, and one byte is no instruction. -/
theorem test_decode_bytes :
    decodeBytes [0xA2, 0xF0, 0x60] = .ok (.ldI 0x2F0, [0x60]) ∧ decodeBytes [0xA2] = .error (.truncated [0xA2]) := by decide
theorem test_decode_table_word : decodeTableWord 16 0x8124 = some (.addReg 1 2) := by decide
theorem test_encode : [Instr.jp 0x234, .drw 15 0 1, .shr 4 5, .ldVMem 4].map encode = [0x1234, 0xDF01, 0x8456, 0xF465] := by decide
/-- R76: the 34 rows are disjoint: two rows that share a word would agree on the bits both masks keep. -/
theorem test_table_disjoint :
    opcodeTable.Pairwise (fun r q => (r.pattern &&& q.mask) ≠ (q.pattern &&& r.mask)) := by decide

/-! ### Steps -/

/-- The vectors' own start: reset, with the random byte they name (R40; 95_test_vectors.md, Conventions). -/
def st : State := { State.reset with rnd := 0 }

/-- One step of the word at `pc`; `none` when there is no next state. -/
def stepOn (w : Nat) (s : State) : Option State :=
  match step (s.withFetchWord 16 w) with
  | .next t => some t
  | _ => none

/-- Some registers and `pc` after the step. -/
def regsAfter (w : Nat) (s : State) (rs : List Reg) : Option (List Byte × Word) :=
  (stepOn w s).map fun t => (rs.map t.getV, t.pc)

/-- `pc` and the fault after the step. -/
def faultAfter (w : Nat) (s : State) : Option (Option FaultRecord) := (stepOn w s).map (·.fault)

/-- W3 and TA12 -/
theorem test_addReg_carry : regsAfter 0x8124 ((st.setV 1 250).setV 2 10) [1, 15] = some ([4, 1], 0x202) := by decide
theorem test_addReg_vf_dest : regsAfter 0x8F14 ((st.setV 15 200).setV 1 100) [15] = some ([44], 0x202) := by decide
/-- TA16 and TA17 -/
theorem test_sub_vf_dest : regsAfter 0x8F15 ((st.setV 15 5).setV 1 3) [15] = some ([254], 0x202) := by decide
theorem test_sub_vf_source : regsAfter 0x81F5 ((st.setV 1 5).setV 15 3) [1, 15] = some ([4, 1], 0x202) := by decide
/-- TA23 and TA25 -/
theorem test_subn_borrow : regsAfter 0x8017 ((st.setV 0 10).setV 1 3) [0, 15] = some ([249, 0], 0x202) := by decide
theorem test_subn_vf_dest : regsAfter 0x8F17 ((st.setV 15 3).setV 1 10) [15] = some ([9], 0x202) := by decide
/-- TA21 and TA20 -/
theorem test_shr_ignores_y : regsAfter 0x8456 ((st.setV 4 4).setV 5 0xFF) [4, 15] = some ([2, 0], 0x202) := by decide
theorem test_shr_vf : regsAfter 0x8F06 (st.setV 15 0xFF) [15] = some ([0], 0x202) := by decide
/-- TA27 and TA29 -/
theorem test_shl : regsAfter 0x840E (st.setV 4 0x81) [4, 15] = some ([2, 1], 0x202) := by decide
theorem test_shl_vf : regsAfter 0x8F0E (st.setV 15 0x80) [15] = some ([2], 0x202) := by decide
/-- TA1, TA2, TA4 -/
theorem test_ldImm : regsAfter 0x6A2F st [10] = some ([0x2F], 0x202) := by decide
theorem test_addImm : regsAfter 0x7220 ((st.setV 2 0xF0).setV 15 9) [2, 15] = some ([0x10, 9], 0x202) := by decide
theorem test_ldReg : regsAfter 0x8010 (st.setV 1 9) [0, 1] = some ([9, 9], 0x202) := by decide
/-- TA5, TA6, TA7 -/
theorem test_or : regsAfter 0x8011 (((st.setV 0 0x0F).setV 1 0xF0).setV 15 5) [0, 15] = some ([0xFF, 5], 0x202) := by decide
theorem test_and : regsAfter 0x8012 ((st.setV 0 0x3C).setV 1 0x0F) [0] = some ([0x0C], 0x202) := by decide
theorem test_xor : regsAfter 0x8013 ((st.setV 0 0x3C).setV 1 0x0F) [0] = some ([0x33], 0x202) := by decide
/-- TA31 -/
theorem test_rnd : regsAfter 0xC30F { st with rnd := 0xA7 } [3] = some ([7], 0x202) := by decide

/-- TS1, TS4, TS6, TS8 (taken) and TS2, TS9 (not taken) -/
theorem test_seImm : regsAfter 0x3342 (st.setV 3 0x42) [] = some ([], 0x204) := by decide
theorem test_seImm_not : regsAfter 0x3342 (st.setV 3 0x41) [] = some ([], 0x202) := by decide
theorem test_sneImm : regsAfter 0x4342 (st.setV 3 0x41) [] = some ([], 0x204) := by decide
theorem test_seReg : regsAfter 0x5120 ((st.setV 1 7).setV 2 7) [] = some ([], 0x204) := by decide
theorem test_sneReg : regsAfter 0x9120 ((st.setV 1 7).setV 2 8) [] = some ([], 0x204) := by decide
theorem test_sneReg_not : regsAfter 0x9110 st [] = some ([], 0x202) := by decide

/-- TC1 with W13's timer, TC3, TC5, TC4, W13, TC12 -/
theorem test_call :
    (stepOn 0x2300 (st.setDT 3)).map (fun t => (t.pc, t.sp, t.getStack 1, t.DT)) = some (0x300, 1, 0x200, 3) := by decide
theorem test_call_overflow :
    (stepOn 0x2300 (st.setSp 15)).map (fun t => (t.fault, t.sp, t.pc)) = some (some ⟨.stackOverflow, 0x200, 15⟩, 15, 0x200) := by decide
theorem test_ret :
    (stepOn 0x00EE ((((st.setPc 0x300).setSp 1).setStack 1 0x204).setDT 1)).map (fun t => (t.pc, t.sp, t.getStack 1, t.DT)) =
      some (0x206, 0, 0x204, 0) := by decide
theorem test_ret_underflow : faultAfter 0x00EE st = some (some ⟨.stackUnderflow, 0x200, 0⟩) := by decide
theorem test_jp : (stepOn 0x1234 (st.setDT 3)).map (fun t => (t.pc, t.DT)) = some (0x234, 3) := by decide
theorem test_jpV0 : regsAfter 0xB5FE ((st.setV 0 2).setV 5 0x40) [] = some ([], 0x600) := by decide

/-- TM1, TM9, TM7, TM12 -/
theorem test_ldI : (stepOn 0xA2F0 st).map (·.I) = some 0x2F0 := by decide
theorem test_addIV_vf : (stepOn 0xFF1E ((st.setI 0x100).setV 15 5)).map (fun t => (t.I, t.getV 15)) = some (0x100, 0) := by decide
theorem test_addIV_wrap : (stepOn 0xF01E ((st.setI 0xFFFF).setV 0 1)).map (fun t => (t.I, t.getV 15)) = some (0, 1) := by decide
theorem test_ldFV : (stepOn 0xF029 (st.setV 0 0xFF)).map (·.I) = some 0x4FB := by decide
/-- TM13, TM17, TM18 -/
theorem test_ldBV :
    (stepOn 0xF533 ((st.setV 5 234).setI 0x300)).map (fun t => ([0x300, 0x301, 0x302].map t.mem.read, t.I)) =
      some ([2, 3, 4], 0x300) := by decide
theorem test_ldBV_past_end :
    (stepOn 0xF033 ((st.setV 0 0xFF).setI 0xFFE)).map (fun t => (t.fault, t.mem.read 0xFFE)) =
      some (some ⟨.memoryOutOfRange, 0x200, 0x1000⟩, 0) := by decide
/-- TM20, TM22's last byte, TM19 -/
theorem test_ldMemV :
    (stepOn 0xF255 ((((st.setV 0 1).setV 1 2).setV 2 3).setI 0x400)).map (fun t => ([0x400, 0x401, 0x402, 0x403].map t.mem.read, t.I)) =
      some ([1, 2, 3, 0], 0x403) := by decide
theorem test_ldMemV_reserved : faultAfter 0xF055 st = some (some ⟨.reservedWrite, 0x200, 0⟩) := by decide
/-- TM25 and TM28 -/
theorem test_ldVMem_font : regsAfter 0xF465 st [0, 1, 2, 3, 4, 5] = some ([0xF0, 0x90, 0x90, 0x90, 0xF0, 0], 0x202) := by decide
theorem test_ldVMem_past_end : faultAfter 0xF065 (st.setI 0x1005) = some (some ⟨.memoryOutOfRange, 0x200, 0x1005⟩) := by decide

/-- W9 -/
theorem test_cls :
    (stepOn 0x00E0 ((st.toggleCell 5).toggleCell 2047)).map (fun t => (t.disp, t.needDraw)) = some (0, true) := by decide +kernel
/-- TD6: columns 64 and up spill into the next row. -/
theorem test_drw_spill :
    (stepOn 0xD011 ((((st.setByte 0x300 0xC3).setI 0x300).setV 0 62).setV 1 1)).map (fun t => (t.disp, t.getV 15, t.needDraw)) =
      some ((1 : BitVec 2048) <<< 126 ||| 1 <<< 127 ||| 1 <<< 132 ||| 1 <<< 133, 0, true) := by decide +kernel
/-- TD7: row 31's eight toggles are undone. -/
theorem test_drw_out_of_range :
    (stepOn 0xD012 ((((st.setByte 0x300 0xFF).setByte 0x301 0x80).setI 0x300).setV 1 31)).map (fun t => (t.fault, t.disp, t.needDraw)) =
      some (some ⟨.displayOutOfRange, 0x200, 2048⟩, 0, false) := by decide +kernel

/-- TS13, TS18, TS17, TS19 -/
theorem test_skp : regsAfter 0xE19E ({ st with keys := 0x0008 }.setV 1 3) [] = some ([], 0x204) := by decide
theorem test_skp_out_of_range : faultAfter 0xE09E (st.setV 0 16) = some (some ⟨.keyIndexOutOfRange, 0x200, 16⟩) := by decide
theorem test_sknp : regsAfter 0xE0A1 (st.setV 0 15) [] = some ([], 0x204) := by decide
theorem test_sknp_out_of_range : faultAfter 0xE0A1 (st.setV 0 0xFF) = some (some ⟨.keyIndexOutOfRange, 0x200, 0xFF⟩) := by decide
/-- TT1 -/
theorem test_ldVDt : (stepOn 0xF307 (st.setDT 10)).map (fun t => (t.getV 3, t.DT)) = some (10, 9) := by decide
/-- TT9 and TT10 -/
theorem test_ldVK_waits :
    (stepOn 0xF00A ((st.setDT 5).setST 1)).map (fun t => (t.pc, t.DT, t.ST, t.playBeep)) = some (0x200, 5, 1, false) := by decide
theorem test_ldVK_lowest : regsAfter 0xF20A { st with keys := 0x0220 } [2] = some ([5], 0x202) := by decide
/-- TT3, TT6, TT7 -/
theorem test_ldDtV : (stepOn 0xF215 (st.setV 2 5)).map (·.DT) = some 4 := by decide
theorem test_ldStV_one : (stepOn 0xF218 (st.setV 2 1)).map (fun t => (t.ST, t.playBeep)) = some (0, true) := by decide
theorem test_ldStV_two : (stepOn 0xF018 (st.setV 0 2)).map (fun t => (t.ST, t.playBeep)) = some (1, false) := by decide

/-- TE11, TE14, W11 -/
theorem test_fetch_odd : faultAfter 0x6000 (st.setPc 0x201) = some (some ⟨.fetchFault, 0x201, 0x201⟩) := by decide
theorem test_fetch_end : faultAfter 0x6000 (st.setPc 0xFFF) = some (some ⟨.fetchFault, 0xFFF, 0xFFF⟩) := by decide
theorem test_unknown : faultAfter 0x00FF st = some (some ⟨.unknownOpcode, 0x200, 0x00FF⟩) := by decide
/-- R90: a faulted block has no step. -/
theorem test_halted : stepOn 0x6000 { st with fault := some ⟨.unknownOpcode, 0x200, 0⟩ } = none := by decide

/-- R201: boot places the image at 0x200. -/
theorem test_boot :
    (boot Config.defaultFont [0x22, 0x04]).map (fun s => ([0x200, 0x201, 0x202].map s.mem.read, s.pc)) =
      some ([0x22, 0x04, 0x00], 0x200) := by decide
/-- R210: a key set and released, and reset out of a fault. -/
theorem test_host_keys :
    ((HostAction.setKey 3 true).apply st).key 3 = true ∧
      ((HostAction.setKey 3 false).apply { st with keys := 0x000F }).keys = 0x0007 := by decide
theorem test_host_reset :
    (HostAction.reset.apply { st with fault := some ⟨.unknownOpcode, 0x200, 0⟩, DT := 3 }).fault = none := by decide

/-! ### Witnesses: for every statement with hypotheses, concrete data that meet them, at the edges of each clause -/

/-- The start with one word at `pc`. -/
def at' (w : Nat) : State := st.withFetchWord 16 w

/-- StepFetchesDecodesExecutes: an accepted fetch of an instruction and of an unknown word; StepNeverClearsOutputsOrWritesKeys,
RunningBlockAlwaysSteps, LowMemoryIsNeverWritten. -/
theorem witness_step :
    (at' 0x00E0).fault = none ∧ (at' 0x00E0).fetchPasses ∧ decode (at' 0x00E0).opcodeAt = .ok .cls ∧
      (at' 0x00FF).fetchPasses ∧ decode (at' 0x00FF).opcodeAt = .error (.unknownOpcode 0x00FF) ∧
      ∃ t, step (at' 0x00E0) = .next t :=
  ⟨rfl, ⟨by decide, by decide, by decide⟩, by decide, ⟨by decide, by decide, by decide⟩, by decide, _, rfl⟩

/-- The fetch check at each edge: odd, 0x1FE, 0x200, 0xFFE, 0x1000. -/
theorem witness_fetch_edges :
    ¬ (st.setPc 0x201).fetchPasses ∧ ¬ (st.setPc 0x1FE).fetchPasses ∧ (st.setPc 0x200).fetchPasses ∧
      (st.setPc 0xFFE).fetchPasses ∧ ¬ (st.setPc 0x1000).fetchPasses := by
  unfold State.fetchPasses; decide

/-- FaultedBlockStepsOnlyAfterReset. -/
theorem witness_faulted : ∃ (s : State) (r : FaultRecord), s.fault = some r ∧ HostAction.consumeBeep ≠ .reset :=
  ⟨{ st with fault := some ⟨.unknownOpcode, 0x200, 0⟩ }, _, rfl, by decide⟩

/-- DecoderSelectsByTheTable. -/
theorem witness_table :
    decode 0x8456 = .ok (.shr 4 5) ∧ (Instr.shr 0 0).row ∈ opcodeTable ∧ (Instr.shr 0 0).row.selects 0x8456 = true := by decide

/-- UnknownWordsByGroup: an operand of each clause, at its edges. -/
theorem witness_unknown_words :
    ((0x0E1 : Addr12) ≠ 0x0E0 ∧ (0x0E1 : Addr12) ≠ 0x0EE) ∧ (1 : BitVec 4) ≠ 0 ∧
      (8 ≤ (8 : BitVec 4).toNat ∧ (8 : BitVec 4) ≠ 0xE) ∧ (8 ≤ (0xF : BitVec 4).toNat ∧ (0xF : BitVec 4) ≠ 0xE) ∧
      ((0x9F : Byte) ≠ 0x9E ∧ (0x9F : Byte) ≠ 0xA1) ∧
      (0x08 : Byte).toNat ∉ [0x07, 0x0A, 0x15, 0x18, 0x1E, 0x29, 0x33, 0x55, 0x65] := by decide

/-- RetPopsAndRunsTheEpilogue and CallPushesItsOwnAddress: `sp` at 0, 1, 14 and 15. -/
theorem witness_stack_edges :
    st.sp = 0 ∧ (st.setSp 1).sp ≠ 0 ∧ (st.setSp 15).sp.val = 15 ∧ (15 : Fin 16).val = (st.setSp 14).sp.val + 1 := by decide

/-- BadJumpTargetFaultsOneStepLate, JpJumpsWithNoEpilogue, CallPushesItsOwnAddress and JpV0AddsV0: a jump to an odd target, and a
call with room; CallThenReturnIsSequential. -/
theorem witness_bad_jump :
    (Instr.jp 0x301).jumps ∧ (Instr.call 0x1FE).jumps ∧ st.fault = none ∧ st.sp.val < 15 ∧
      ∃ t, exec (.jp 0x301) st = .next t ∧ ¬ t.fetchPasses :=
  ⟨trivial, trivial, rfl, by decide, _, rfl, by unfold State.fetchPasses; decide⟩

/-- ComparisonSkips: each comparison true and false. -/
theorem witness_skips :
    (st.getV 3).toNat = (0 : Byte).toNat ∧ (st.getV 3).toNat ≠ (1 : Byte).toNat ∧
      (st.getV 1).toNat = (st.getV 2).toNat ∧ ((st.setV 1 7).getV 1).toNat ≠ ((st.setV 1 7).getV 2).toNat := by decide

/-- KeySkips: the values 15 and 16, and the latch pressed and released. -/
theorem witness_key_skips :
    15 < ((st.setV 0 16).getV 0).toNat ∧ ((st.setV 0 15).getV 0).toNat ≤ 15 ∧
      State.key { st.setV 0 15 with keys := 0x8000 } 15 = true ∧ (st.setV 0 15).key 15 = false := by decide

/-- The ALU statements' cases of `x` and `y`: apart, equal, and each at `VF`. -/
theorem witness_alu_registers :
    ((1 : Reg) ≠ VF ∧ (2 : Reg) ≠ VF ∧ (1 : Reg) ≠ 2) ∧ (VF ≠ (1 : Reg) ∧ VF = (15 : Reg)) ∧
      (if (st.setV 1 1 |>.getV 1).toNat > (st.getV 2).toNat then 1 else 0) = 1 := by decide

/-- OnlyRndReadsTheRandomByte, TimersMoveOnlyWhenAdvanced and InstructionsWriteOnlyTheirRow. -/
theorem witness_not_rnd :
    (∀ x nn, Instr.ldImm 1 2 ≠ .rnd x nn) ∧ st.fault = none ∧ ¬ (Instr.ldImm 1 2).jumps ∧
      ∃ t, exec (.ldImm 1 2) st = .next t ∧ t.fault = none :=
  ⟨(by intro _ _ h; cases h), rfl, id, _, rfl, rfl⟩

/-- TimersMoveOnlyWhenAdvanced: a jump, a fault and a wait. -/
theorem witness_timers_still :
    (Instr.jp 0x300).jumps ∧ (∃ t, exec .ret st = .next t ∧ t.fault ≠ none) ∧ ∀ k, st.key k = false :=
  ⟨trivial, ⟨_, rfl, by decide⟩, fun k => BitVec.getLsbD_zero⟩

/-- AddIndexFlagsPast0xFFF: the exact sum at 0xFFF and at 0x1000. -/
theorem witness_add_index :
    (if ((st.setI 0xFFF).I.toNat + (st.getV 0).toNat > 0xFFF) then 1 else 0) = 0 ∧
      (if ((st.setI 0x1000).I.toNat + (st.getV 0).toNat > 0xFFF) then 1 else 0) = 1 := by decide

/-- BcdStoresThreeDigits, StoreRegistersAscending, LoadRegistersAscending: `I` at 0x1FF and 0x200, and the last address at 0xFFF
and 0x1000. -/
theorem witness_transfer_edges :
    ((st.setI 0x1FF).I.toNat < 0x200 ∧ 0x200 ≤ (st.setI 0x200).I.toNat) ∧
      ((st.setI 0xFFD).I.toNat + 2 ≤ 0xFFF ∧ 0xFFF < (st.setI 0xFFE).I.toNat + 2) ∧
      ((st.setI 0xFF0).I.toNat + (15 : Reg).val ≤ 0xFFF ∧ 0xFFF < (st.setI 0xFF1).I.toNat + (15 : Reg).val) ∧
      ((st.setI 0xFFF).I.toNat + (0 : Reg).val ≤ 0xFFF ∧ 0xFFF < (st.setI 0x1000).I.toNat + (0 : Reg).val) := by decide

/-- MemoryAccessChecks: the addresses 0x1FF, 0x200, 0xFFF and 0x1000. -/
theorem witness_memory_edges :
    st.memWrite 0x1FF 7 = .error ⟨.reservedWrite, 0x1FF⟩ ∧ (st.memWrite 0x200 7).toOption.isSome ∧
      (st.memWrite 0xFFF 7).toOption.isSome ∧ st.memRead 0x1000 = .error ⟨.memoryOutOfRange, 0x1000⟩ := by decide

/-- WriteSeenByNextFetch: a write at `pc`, at `pc + 1`, and elsewhere. -/
theorem witness_write_fetch :
    st.fetchPasses ∧ st.memWrite 0x200 0x60 = .ok (st.setByte 0x200 0x60) ∧ st.memWrite 0x201 0x60 = .ok (st.setByte 0x201 0x60) ∧
      st.memWrite 0x202 0x60 = .ok (st.setByte 0x202 0x60) ∧ 0x200 = st.pc.toNat :=
  ⟨⟨by decide, by decide, by decide⟩, rfl, rfl, rfl, rfl⟩

/-- EqualReadsAreEqualMemories: a byte written and written back to 0. -/
theorem witness_equal_memories :
    st.mem.wf = true ∧ ((st.mem.write 0x300 5).write 0x300 0).wf = true ∧
      ∀ a, st.mem.read a = ((st.mem.write 0x300 5).write 0x300 0).read a := by
  refine ⟨by decide, by decide, fun a => ?_⟩
  rw [show (st.mem.write 0x300 5).write 0x300 0 = st.mem by decide]

/-- The start with a one-row sprite of one set bit at the top left. -/
def oneBit : State := (st.setByte 0x300 0x80).setI 0x300

/-- The only set bit of that sprite. -/
theorem oneBit_set (Y X : Nat) (h : oneBit.spriteSet 1 Y X) : Y = 0 ∧ X = 0 := by
  obtain ⟨h1, h2, h3⟩ := h
  have h1' : Y = 0 := Nat.lt_one_iff.1 h1
  subst h1'
  have : ∀ X < 8, (oneBit.spriteRow 0).getMsbD X = true → X = 0 := by decide
  exact ⟨rfl, this X h2 h3⟩

/-- DrwFlipsExactlyTheSprite: it fits, and its last set bit is the one at row 0, column 0. -/
theorem witness_drw_fits : (0 : Reg) ≠ VF ∧ (1 : Reg) ≠ VF ∧ oneBit.spriteFits 0 1 1 ∧ oneBit.lastSet 1 0 0 := by
  refine ⟨by decide, by decide, ⟨fun Y h => ?_, fun Y X h => ?_⟩, ⟨by decide, by decide, by decide⟩, fun Y X h => ?_⟩
  · have : Y = 0 := Nat.lt_one_iff.1 h
    subst this; decide
  · obtain ⟨rfl, rfl⟩ := oneBit_set Y X h; decide
  · obtain ⟨rfl, rfl⟩ := oneBit_set Y X h; exact .inr ⟨rfl, Nat.le_refl 0⟩

/-- DrwFlipsExactlyTheSprite: a sprite with no set bit. -/
theorem witness_drw_empty : ∀ Y X, ¬ st.spriteSet 0 Y X := fun _ _ h => absurd h.1 (Nat.not_lt_zero _)

/-- DrwPastTheDisplayFaults: the same sprite at row 32. -/
theorem witness_drw_past :
    (∀ Z, Z < (1 : Nibble).toNat → (oneBit.setV 1 32).I.toNat + Z ≤ 0xFFF) ∧ (oneBit.setV 1 32).spriteSet 1 0 0 ∧
      2047 < (oneBit.setV 1 32).pixelCell 0 1 0 0 := by
  refine ⟨fun Z h => ?_, ⟨by decide, by decide, by decide⟩, by decide⟩
  have : Z = 0 := Nat.lt_one_iff.1 h
  subst this; decide

/-- DrwPastTheDisplayFaults: no set bit stands before the one at row 0, column 0. -/
theorem witness_drw_past_first :
    ∀ Y X, (oneBit.setV 1 32).spriteSet 1 Y X → Y < 0 ∨ Y = 0 ∧ X < 0 → (oneBit.setV 1 32).pixelCell 0 1 Y X ≤ 2047 :=
  fun _ _ _ h => by omega

/-- DrawingTwiceRestoresTheDisplay: the first draw succeeds. -/
theorem witness_drw_twice : ∃ t, exec (.drw 0 1 1) oneBit = .next t ∧ oneBit.fault = none ∧ t.fault = none :=
  ⟨_, rfl, rfl, rfl⟩

/-- DrwDrawsSetBitsInRasterOrder: every row readable and every cell in range; a cell past 2047 (row 32, before the row at 0x1000 is
read); a row past 0xFFF with the rows before it drawn. -/
theorem witness_drw_raster :
    (1 = min (1 : Nibble).toNat (0x1000 - oneBit.I.toNat) ∧ oneBit.rasterPixels 1 = [(0, 0)] ∧ oneBit.pixelCell 0 1 0 0 ≤ 2047) ∧
      ((oneBit.setV 1 32).rasterPixels 1 = [(0, 0)] ∧ 2047 < (oneBit.setV 1 32).pixelCell 0 1 0 0) ∧
      (1 = min (2 : Nibble).toNat (0x1000 - (oneBit.setI 0xFFF).I.toNat) ∧ (oneBit.setI 0xFFF).rasterPixels 1 = [] ∧
        1 < (2 : Nibble).toNat) := by decide

/-- TD11: the row read past 0xFFF faults, at the state of the case before. -/
theorem test_drw_row_past_end :
    faultAfter 0xD012 (st.setI 0xFFF) = some (some ⟨.memoryOutOfRange, 0x200, 0x1000⟩) := by decide +kernel
/-- Rule R165's example: x = 15, `VF` = 10, sprite byte 0xC0: cell 10, then cell b + 1 for its old value b = 1. -/
theorem test_drw_vf_operand :
    (stepOn 0xDF01 ((((st.setByte 0x300 0xC0).setI 0x300).setV 15 10).toggleCell 10)).map (fun t => (t.disp, t.getV 15)) =
      some ((1 : BitVec 2048) <<< 2, 0) := by decide +kernel

/-- KeyWaitTakesTheLowestKey: no key, and key 5 with none below it. -/
theorem witness_key_wait :
    (∀ k, k < 16 → st.key k = false) ∧ State.key { st with keys := 0x0220 } 5 = true ∧
      ∀ j, j < 5 → State.key { st with keys := 0x0220 } j = false := by decide

/-- FaultIsPrecise and FaultCauses: a step of each kind of fault an instruction raises, and of the fetch and the decode. -/
theorem witness_faults :
    [faultAfter 0x2300 (st.setSp 15), faultAfter 0x00EE st, faultAfter 0xF033 (st.setI 0xFFE), faultAfter 0xF055 (st.setI 0x1FF),
      faultAfter 0xE09E (st.setV 0 16), faultAfter 0x00FF st].map (fun o => o.bind (·.map (·.kind))) =
      [some .stackOverflow, some .stackUnderflow, some .memoryOutOfRange, some .reservedWrite, some .keyIndexOutOfRange,
       some .unknownOpcode] := by decide

/-- InstructionsReadOnlyTheirRow: two states that differ in a field the instruction does not read, and agree on the rest. -/
theorem witness_reads :
    (∀ f, (Instr.ldReg 0 1).reads st f ∨ epilogueField f → f.same st (st.setV 2 9)) ∧
      (∃ t, exec (.ldReg 0 1) st = .next t) ∧ ∃ t, exec (.ldReg 0 1) (st.setV 2 9) = .next t := by
  refine ⟨fun f h => ?_, ⟨_, rfl⟩, ⟨_, rfl⟩⟩
  rcases h with rfl | rfl | rfl | rfl | rfl <;> rfl

/-- SpinningAndWaitingPointsAreFixed: 0x1200 at 0x200, and Fx0A with every key released. -/
theorem witness_spinning : (at' 0x1200).spinning :=
  ⟨rfl, ⟨by decide, by decide, by decide⟩, 0x200, by decide, by decide⟩
theorem witness_waiting : (at' 0xF00A).waiting :=
  ⟨rfl, ⟨by decide, by decide, by decide⟩, ⟨0, by decide⟩, fun _ => BitVec.getLsbD_zero⟩

/-- BootPlacesTheImage: both lengths at the edge. -/
theorem witness_boot :
    3584 < (List.replicate 3585 (0 : Byte)).length ∧ (List.replicate 3584 (0 : Byte)).length ≤ 3584 := by
  rw [List.length_replicate, List.length_replicate]; decide

/-- StepKeepsTheInvariant: a state that meets it, and its step; ReachableStatesMeetTheInvariant. -/
theorem witness_invariant : (at' 0x1200).Inv ∧ step (at' 0x1200) = .next (at' 0x1200) := by
  refine ⟨⟨by decide, by decide, fun j h1 h2 => ?_, fun r h => by cases h⟩, rfl⟩
  have h3 : j.val ≤ 0 := h2
  omega
theorem witness_reachable : ∃ c : Session, c.Reachable ∧ c.fresh = true ∧ c.block.mem.read 0x200 = 0x12 :=
  ⟨_, .event (.host (.loadImage [0x12, 0x00])) (.start Config.defaultFont) rfl, rfl, by decide⟩

/-- ImageLoadsOnlyBetweenResetAndFirstStep: a session before and after its first step, both lengths at the edge (witness_boot), a
step, a reset, an action that is none, and a boot. -/
theorem witness_load_image :
    (Session.start Config.defaultFont).fresh = true ∧
      (∃ d, Event.step.apply ⟨at' 0x1200, true⟩ = some (.next d) ∧ d.fresh = false) ∧
      (∃ d, (Event.host .reset).apply ⟨at' 0x1200, false⟩ = some (.next d) ∧ d.fresh = true) ∧
      (∃ d, (Event.host .consumeBeep).apply ⟨at' 0x1200, false⟩ = some (.next d) ∧ d.fresh = false) ∧
      ∃ s, boot (at' 0x1200).mem.font [0x12, 0x00] = some s :=
  ⟨rfl, ⟨_, rfl, rfl⟩, ⟨_, rfl, rfl⟩, ⟨_, rfl, rfl⟩, _, rfl⟩
/-- R210: no load after the first step; a reset and a load, out of a fault, in one schedule. -/
theorem test_load_after_step :
    (runSchedule [.host (.loadImage [0x12, 0x00]), .step, .host (.loadImage [0x12, 0x00])] (Session.start Config.defaultFont)).isNone ∧
      (match runSchedule [.step, .host .reset, .host (.loadImage [0x12, 0x00])] (Session.start Config.defaultFont) with
        | some (.next d) => some (d.block.mem.read 0x200, d.block.fault, d.fresh)
        | _ => none) = some (0x12, none, true) := by decide

end Sys2Proof.Tests
end

section
/-! PROOFS. The execute stage of every instruction, said once: which fields it can have changed (R23), which checks can have
failed (R180), and how its outcome ends the step (R95 to R97). -/

namespace Sys2Proof.Machine

variable {i : Instr} {s t u : State} {o : ExecOutcome} {e : Raise}

/-! ### The end of a step, by its outcome -/

/-- The state an outcome hands to the end of the step (R95). -/
def ExecOutcome.state : ExecOutcome → State
  | .advanced u | .jumped u | .waiting u => u

/-- The state in which a step with this outcome ends (R96, R97). -/
def ExecOutcome.endState : ExecOutcome → State
  | .advanced u => u.epilogue
  | .jumped u | .waiting u => u

theorem finish_ok (s₀ : State) (o : ExecOutcome) : finish s₀ (.ok o) = .next o.endState := by
  cases o <;> rfl

theorem frame_endState (o : ExecOutcome) : Frame epilogueField o.state o.endState := by
  cases o with
  | advanced u => exact frame_epilogue u
  | jumped u => exact Frame.refl _ u
  | waiting u => exact Frame.refl _ u

@[simp] theorem endState_mem (o : ExecOutcome) : o.endState.mem = o.state.mem := by
  cases o with
  | advanced u => exact epilogue_mem u
  | jumped u => rfl
  | waiting u => rfl

@[simp] theorem endState_sp (o : ExecOutcome) : o.endState.sp = o.state.sp :=
  frame_endState o .sp (by simp [epilogueField])

@[simp] theorem endState_fault (o : ExecOutcome) : o.endState.fault = o.state.fault :=
  frame_endState o .fault (by simp [epilogueField])

@[simp] theorem endState_getStack (o : ExecOutcome) (j : Fin 16) : o.endState.getStack j = o.state.getStack j :=
  frame_endState o (.stack j) (by simp [epilogueField])

/-- Every step of an instruction ends with its outcome's end state, or with the fault its execute stage raised. -/
theorem exec_cases (h : exec i s = .next t) :
    (∃ o, executeStage i s = .ok o ∧ t = o.endState) ∨ (∃ e, executeStage i s = .error e ∧ t = s.takeFault e) := by
  rw [exec_eq_finish] at h
  cases hx : executeStage i s with
  | ok o => rw [hx, finish_ok] at h; cases h; exact .inl ⟨o, rfl, rfl⟩
  | error e => rw [hx, finish_error] at h; cases h; exact .inr ⟨e, rfl, rfl⟩

/-! ### The instructions with a check or a choice, when they succeed -/

theorem executeRet_ok (h : executeRet s = .ok o) :
    s.sp ≠ 0 ∧ o = .advanced ((s.setPc (s.getStack s.sp)).setSp (s.sp - 1)) := by
  unfold executeRet at h
  split at h
  · cases h
  · next hsp => cases h; exact ⟨hsp, rfl⟩

theorem executeCall_ok {nnn : Addr12} (h : executeCall nnn s = .ok o) :
    s.sp ≠ 15 ∧ o = .jumped (s.pushPc.setPc (addrWord nnn)) := by
  unfold executeCall at h
  split at h
  · cases h
  · next hsp => cases h; exact ⟨hsp, rfl⟩

theorem executeSkp_ok {x : Reg} (h : executeSkp x s = .ok o) : o = skipIf s (s.key (s.getV x).toNat) := by
  rw [executeSkp_eq] at h
  split at h
  · cases h
  · cases h; rfl

theorem executeSknp_ok {x : Reg} (h : executeSknp x s = .ok o) : o = skipIf s (!s.key (s.getV x).toNat) := by
  rw [executeSknp_eq] at h
  split at h
  · cases h
  · cases h; rfl

theorem executeLdVK_ok {x : Reg} (h : executeLdVK x s = .ok o) :
    (∃ k, firstKey s = some k ∧ o = .advanced (s.setV x (BitVec.ofNat 8 k))) ∨ (firstKey s = none ∧ o = .waiting s) := by
  unfold executeLdVK at h
  cases hk : firstKey s with
  | some k => rw [hk] at h; cases h; exact .inl ⟨k, rfl, rfl⟩
  | none => rw [hk] at h; cases h; exact .inr ⟨rfl, rfl⟩

theorem executeLdBV_ok {x : Reg} (h : executeLdBV x s = .ok o) :
    s.I.toNat + 2 ≤ 0xFFF ∧ o = .advanced
      (((s.setByte s.I.toNat (hundreds (s.getV x))).setByte (s.I.toNat + 1) (tens (s.getV x))).setByte
        (s.I.toNat + 2) (ones (s.getV x))) := by
  rcases executeLdBV_cases x s with ⟨_, hI, hx⟩ | ⟨_, hx⟩ | ⟨_, hx⟩
  · rw [hx] at h; cases h; exact ⟨hI, rfl⟩
  · rw [hx] at h; cases h
  · rw [hx] at h; cases h

/-! ### The same instructions, when they fail -/

theorem executeRet_error (h : executeRet s = .error e) : s.sp = 0 ∧ e = ⟨.stackUnderflow, 0⟩ := by
  unfold executeRet at h
  split at h
  · next hsp => cases h; exact ⟨hsp, by rw [hsp]; rfl⟩
  · cases h

theorem executeCall_error {nnn : Addr12} (h : executeCall nnn s = .error e) :
    s.sp = 15 ∧ e = ⟨.stackOverflow, 15⟩ := by
  unfold executeCall at h
  split at h
  · next hsp => cases h; exact ⟨hsp, by rw [hsp]; rfl⟩
  · cases h

theorem executeSkp_error {x : Reg} (h : executeSkp x s = .error e) :
    15 < (s.getV x).toNat ∧ e = ⟨.keyIndexOutOfRange, (s.getV x).toNat⟩ := by
  rw [executeSkp_eq] at h
  split at h
  · next hx => cases h; exact ⟨hx, rfl⟩
  · cases h

theorem executeSknp_error {x : Reg} (h : executeSknp x s = .error e) :
    15 < (s.getV x).toNat ∧ e = ⟨.keyIndexOutOfRange, (s.getV x).toNat⟩ := by
  rw [executeSknp_eq] at h
  split at h
  · next hx => cases h; exact ⟨hx, rfl⟩
  · cases h

theorem executeLdVK_ne_error (x : Reg) (s : State) (e : Raise) : executeLdVK x s ≠ .error e := by
  unfold executeLdVK
  cases firstKey s <;> exact nofun

theorem executeLdBV_error {x : Reg} (h : executeLdBV x s = .error e) :
    (s.I.toNat < 0x200 ∧ e = ⟨.reservedWrite, s.I.toNat⟩) ∨ e = ⟨.memoryOutOfRange, max s.I.toNat 0x1000⟩ := by
  rcases executeLdBV_cases x s with ⟨_, _, hx⟩ | ⟨hI, hx⟩ | ⟨_, hx⟩
  · rw [hx] at h; cases h
  · rw [hx] at h; cases h; exact .inl ⟨hI, rfl⟩
  · rw [hx] at h; cases h; exact .inr rfl

/-! ### What the execute stage writes (R23) -/

theorem frame_skipIf (s : State) (c : Bool) : Frame (fun f => f = .pc) s (skipIf s c).state := by
  cases c with
  | true => exact frame_setPc s _
  | false => exact Frame.refl _ s

theorem skipIf_mem (s : State) (c : Bool) : (skipIf s c).state.mem = s.mem := by cases c <;> rfl

theorem frame_pushPc (s : State) : Frame (fun f => f = .sp ∨ f = .stack (s.sp + 1)) s s.pushPc :=
  ((frame_setSp s _).mono fun _ => .inl).trans ((frame_setStack _ _ _).mono fun _ => .inr)

theorem Stored.frame {k : Nat} (h : Stored s k u) :
    Frame (fun f => ∃ j, j < k ∧ f = .mem (s.I.toNat + j)) s u := by
  intro f hf
  cases f with
  | mem a =>
    refine h.other a ?_
    by_contra hin
    exact hf ⟨a - s.I.toNat, by omega, by rw [Nat.add_sub_cancel' (by omega)]⟩
  | _ => rw [h.onlyMem]; rfl

theorem Loaded.frame {k : Nat} (h : Loaded s k u) : Frame (fun f => ∃ r : Reg, r.val < k ∧ f = .V r) s u := by
  intro f hf
  cases f with
  | V r => exact h.other r (Nat.not_lt.1 fun hr => hf ⟨r, hr, rfl⟩)
  | _ => rw [h.onlyV]; rfl

/-- The three digits of Fx33 go to the three bytes from `I` on. -/
theorem frame_setByte_three (s : State) (a : Nat) (v₀ v₁ v₂ : Byte) :
    Frame (fun f => ∃ k, k < 3 ∧ f = .mem (a + k)) s (((s.setByte a v₀).setByte (a + 1) v₁).setByte (a + 2) v₂) := by
  have hb (u : State) (k : Nat) (hk : k < 3) (v : Byte) :
      Frame (fun f => ∃ k, k < 3 ∧ f = .mem (a + k)) u (u.setByte (a + k) v) :=
    (frame_setByte u _ v).mono fun _ hf => ⟨k, hk, hf⟩
  exact ((hb s 0 (by omega) v₀).trans (hb _ 1 (by omega) v₁)).trans (hb _ 2 (by omega) v₂)

/-- The execute stage changes nothing outside the "writes" column of its instruction. -/
theorem executeStage_frame (h : executeStage i s = .ok o) : Frame (i.writes s) s o.state := by
  cases i with
  | cls =>
    cases h
    exact ((frame_clearDisp s).mono fun _ => .inr).trans ((frame_requestDraw _).mono fun _ => .inl)
  | ret =>
    obtain ⟨-, rfl⟩ := executeRet_ok h
    exact ((frame_setPc s _).mono fun _ => .inl).trans ((frame_setSp _ _).mono fun _ => .inr)
  | jp | jpV0 => cases h; exact frame_setPc s _
  | call nnn =>
    obtain ⟨-, rfl⟩ := executeCall_ok h
    exact ((frame_pushPc s).mono fun _ => .inr).trans ((frame_setPc _ _).mono fun _ => .inl)
  | seImm | sneImm | seReg | sneReg => cases h; exact frame_skipIf s _
  | skp x => rw [executeSkp_ok h]; exact frame_skipIf s _
  | sknp x => rw [executeSknp_ok h]; exact frame_skipIf s _
  | ldImm | addImm | ldReg | or | and | xor | ldVDt => cases h; exact frame_setV s _ _
  | addReg | sub | shr | subn | shl => cases h; exact (frame_setVF_setV s _ _ _).mono fun _ => Or.symm
  | ldI | ldFV => cases h; exact frame_setI s _
  | rnd x nn => cases h; exact ((frame_setV s x _).mono fun _ => .inl).trans ((frame_drawRnd _).mono fun _ => .inr)
  | drw x y n =>
    obtain ⟨u, hu, rfl⟩ := executeDrw_ok h
    exact ((drawRows_ok hu).1.frame.mono fun _ => Or.imp_right .inr).trans
      ((frame_requestDraw u).mono fun _ hf => .inr (.inl hf))
  | ldVK x =>
    rcases executeLdVK_ok h with ⟨k, -, rfl⟩ | ⟨-, rfl⟩
    · exact frame_setV s x _
    · exact Frame.refl _ s
  | ldDtV x => cases h; exact frame_setDT s _
  | ldStV x => cases h; exact frame_setST s _
  | addIV x => cases h; exact ((frame_setV s _ _).mono fun _ => .inl).trans ((frame_setI _ _).mono fun _ => .inr)
  | ldBV x =>
    obtain ⟨-, rfl⟩ := executeLdBV_ok h
    exact frame_setByte_three s _ _ _ _
  | ldMemV x =>
    obtain ⟨u, hu, rfl⟩ := executeLdMemV_ok h
    exact ((forUp_storeReg_ok x.isLt hu).frame.mono fun _ ⟨k, hk, hf⟩ => .inr ⟨k, Nat.lt_succ_iff.1 hk, hf⟩).trans
      ((frame_setI u _).mono fun _ => .inl)
  | ldVMem x =>
    obtain ⟨u, hu, rfl⟩ := executeLdVMem_ok h
    exact ((forUp_loadReg_ok x.isLt hu).frame.mono fun _ ⟨r, hr, hf⟩ => .inr ⟨r, Nat.lt_succ_iff.1 hr, hf⟩).trans
      ((frame_setI u _).mono fun _ => .inl)

/-- No instruction's row names `fault`. -/
theorem not_writes_fault (i : Instr) (s : State) : ¬ i.writes s .fault := by
  cases i <;> simp [Instr.writes]

theorem executeStage_fault (h : executeStage i s = .ok o) : o.state.fault = s.fault :=
  executeStage_frame h .fault (not_writes_fault i s)

/-- A jump that does not fault ends Jumped, so no epilogue runs (R95). -/
theorem executeStage_of_jumps (hj : i.jumps) (h : executeStage i s = .ok o) : ∃ u, o = .jumped u := by
  cases i with
  | jp | jpV0 => cases h; exact ⟨_, rfl⟩
  | call nnn => exact ⟨_, (executeCall_ok h).2⟩
  | _ => exact hj.elim

/-! ### What the execute stage raises (R180) -/

/-- The faults of the execute stage, each with the instructions that raise it, its cause, and its info. -/
inductive Raises (s : State) : Instr → Raise → Prop where
  | stackOverflow (nnn : Addr12) (h : s.sp = 15) : Raises s (.call nnn) ⟨.stackOverflow, 15⟩
  | stackUnderflow (h : s.sp = 0) : Raises s .ret ⟨.stackUnderflow, 0⟩
  | memoryOutOfRange {i : Instr} (h : (∃ x y n, i = .drw x y n) ∨ ∃ x, i = .ldBV x ∨ i = .ldMemV x ∨ i = .ldVMem x) :
      Raises s i ⟨.memoryOutOfRange, max s.I.toNat 0x1000⟩
  | reservedWrite {i : Instr} (h : ∃ x, i = .ldBV x ∨ i = .ldMemV x) (hI : s.I.toNat < 0x200) :
      Raises s i ⟨.reservedWrite, s.I.toNat⟩
  | displayOutOfRange (x y : Reg) (n : Nibble) {c : Nat} (h : 2047 < c) (hc : c ≤ 17478) :
      Raises s (.drw x y n) ⟨.displayOutOfRange, c⟩
  | keyIndexOutOfRange {i : Instr} {x : Reg} (h : i = .skp x ∨ i = .sknp x) (hx : 15 < (s.getV x).toNat) :
      Raises s i ⟨.keyIndexOutOfRange, (s.getV x).toNat⟩

theorem executeStage_error (h : executeStage i s = .error e) : Raises s i e := by
  cases i with
  | ret =>
    obtain ⟨hsp, rfl⟩ := executeRet_error h
    exact .stackUnderflow hsp
  | call nnn =>
    obtain ⟨hsp, rfl⟩ := executeCall_error h
    exact .stackOverflow nnn hsp
  | skp x =>
    obtain ⟨hx, rfl⟩ := executeSkp_error h
    exact .keyIndexOutOfRange (.inl rfl) hx
  | sknp x =>
    obtain ⟨hx, rfl⟩ := executeSknp_error h
    exact .keyIndexOutOfRange (.inr rfl) hx
  | ldVK x => exact absurd h (executeLdVK_ne_error x s e)
  | drw x y n =>
    have hn : n.toNat ≤ 15 := Nat.le_of_lt_succ n.isLt
    rcases drawRows_error hn (executeDrw_error.1 h) with ⟨-, rfl⟩ | ⟨hk, h1, h2⟩
    · exact .memoryOutOfRange (.inl ⟨x, y, n, rfl⟩)
    · obtain ⟨kind, c⟩ := e
      cases hk
      exact .displayOutOfRange x y n h1 h2
  | ldBV x =>
    rcases executeLdBV_error h with ⟨hI, rfl⟩ | rfl
    · exact .reservedWrite ⟨x, .inl rfl⟩ hI
    · exact .memoryOutOfRange (.inr ⟨x, .inl rfl⟩)
  | ldMemV x =>
    rcases forUp_storeReg_error x.isLt (executeLdMemV_error.1 h) with ⟨hI, -, rfl⟩ | ⟨-, -, rfl⟩
    · exact .reservedWrite ⟨x, .inr rfl⟩ hI
    · exact .memoryOutOfRange (.inr ⟨x, .inr (.inl rfl)⟩)
  | ldVMem x =>
    obtain ⟨-, rfl⟩ := forUp_loadReg_error x.isLt (executeLdVMem_error.1 h)
    exact .memoryOutOfRange (.inr ⟨x, .inr (.inr rfl)⟩)
  | _ => cases h

/-! ### The whole step -/

/-- Settles O48: the execute stage keeps to its row, and what ends the step writes the epilogue's fields, for no jump, or the
fault record alone. -/
theorem instructionsWriteOnlyTheirRow : Obligations.InstructionsWriteOnlyTheirRow := by
  intro i s t h
  rcases exec_cases h with ⟨o, ho, rfl⟩ | ⟨e, -, rfl⟩
  · have hrow := executeStage_frame ho
    refine ⟨?_, .inl ((endState_fault o).trans (executeStage_fault ho))⟩
    by_cases hj : i.jumps
    · obtain ⟨u, rfl⟩ := executeStage_of_jumps hj ho
      exact hrow.mono fun _ => .inl
    · exact (hrow.mono fun _ => .inl).trans ((frame_endState o).mono fun _ hf => .inr (.inl ⟨hj, hf⟩))
  · have hf := frame_takeFault s e
    exact ⟨hf.mono fun _ h => .inr (.inr h), .inr hf⟩

end Sys2Proof.Machine
end

section
/-! PROOFS. The invariant of the machine: it holds at reset and every step keeps it (R25, R29, R180, R183). -/

namespace Sys2Proof

/-! ### The one error of the decoder (R77) -/

variable {op : Word} {e : DecodeError}

theorem decodeGroup0_error (h : decodeGroup0 op = .error e) : e = .unknownOpcode op := by
  unfold decodeGroup0 at h
  split at h
  · cases h
  · split at h <;> cases h
    rfl

theorem decodeGroup8_error (h : decodeGroup8 op = .error e) : e = .unknownOpcode op := by
  unfold decodeGroup8 at h
  split at h <;> cases h
  rfl

theorem decodeGroupE_error (h : decodeGroupE op = .error e) : e = .unknownOpcode op := by
  unfold decodeGroupE at h
  split at h <;> cases h
  rfl

theorem decodeGroupF_error (h : decodeGroupF op = .error e) : e = .unknownOpcode op := by
  unfold decodeGroupF at h
  split at h <;> cases h
  rfl

/-- The groups 5 and 9, whose one row has `n = 0`. -/
theorem decode_of_n_zero_error {i : Instr}
    (h : (if nField op = 0 then .ok i else .error (.unknownOpcode op)) = Except.error e) : e = .unknownOpcode op := by
  split at h <;> cases h
  rfl

/-- A word that is no instruction is UNKNOWN, with itself recorded. -/
theorem decode_error (h : decode op = .error e) : e = .unknownOpcode op := by
  unfold decode at h
  split at h
  case h_1 => exact decodeGroup0_error h
  case h_6 | h_10 => exact decode_of_n_zero_error h
  case h_9 => exact decodeGroup8_error h
  case h_15 => exact decodeGroupE_error h
  case h_16 => exact decodeGroupF_error h
  all_goals cases h

end Sys2Proof

namespace Sys2Proof.Machine

variable {i : Instr} {s t u : State} {o : ExecOutcome} {e : Raise}

/-! ### What a step can do (R90 to R93, R99) -/

/-- Only an unfaulted block steps: it runs the instruction fetched and decoded, or takes the fault of the fetch or the decode. -/
theorem step_cases (h : step s = .next t) :
    s.fault = none ∧
      ((∃ i, s.fetchDecode = .ok i ∧ exec i s = .next t) ∨ ∃ e, s.fetchDecode = .error e ∧ t = s.takeFault e) := by
  unfold step at h
  split at h
  · cases h
  · next hf =>
    refine ⟨hf, ?_⟩
    split at h
    · next i hi => exact .inl ⟨i, hi, h⟩
    · next e he => cases h; exact .inr ⟨e, he, rfl⟩

theorem decodeOrRaise_error {op : Word} (h : decodeOrRaise op = .error e) :
    decode op = .error (.unknownOpcode op) ∧ e = ⟨.unknownOpcode, op.toNat⟩ := by
  unfold decodeOrRaise at h
  split at h
  · cases h
  · next d hd => cases h; exact ⟨decode_error hd ▸ hd, rfl⟩

theorem fetchDecode_of_fetchable (h : fetchable s.pc = true) :
    s.fetchDecode = decodeOrRaise (wordOfBytes (s.mem.read s.pc.toNat) (s.mem.read (s.pc.toNat + 1))) := by
  rw [State.fetchDecode, fetch_of_fetchable h]; rfl

theorem fetchDecode_of_not_fetchable (h : fetchable s.pc = false) :
    s.fetchDecode = .error ⟨.fetchFault, s.pc.toNat⟩ := by
  rw [State.fetchDecode, fetch_of_not_fetchable h]; rfl

theorem fetchable_of_fetchDecode_ok (h : s.fetchDecode = .ok i) : fetchable s.pc = true := by
  by_contra hp
  rw [fetchDecode_of_not_fetchable (by simpa using hp)] at h
  cases h

/-! ### The fault records a step can make are legal (R180) -/

/-- The record of a fault taken at `s`. -/
def Raise.record (e : Raise) (s : State) : FaultRecord := { kind := e.kind, pc := s.pc, info := e.info }

theorem fetchDecode_error_legal (h : s.fetchDecode = .error e) : (e.record s).legal := by
  cases hp : fetchable s.pc with
  | false =>
    rw [fetchDecode_of_not_fetchable hp] at h
    cases h
    exact And.intro hp rfl
  | true =>
    rw [fetchDecode_of_fetchable hp] at h
    obtain ⟨hop, rfl⟩ := decodeOrRaise_error h
    exact And.intro hp ⟨_, rfl, hop⟩

theorem Raises.legal (h : Raises s i e) (hp : fetchable s.pc = true) : (e.record s).legal := by
  cases h with
  | stackOverflow => exact And.intro hp rfl
  | stackUnderflow => exact And.intro hp rfl
  | memoryOutOfRange =>
    have hI := s.I.isLt
    exact And.intro hp ⟨show 0xFFF < max s.I.toNat 0x1000 by omega, show max s.I.toNat 0x1000 ≤ 0xFFFF by omega⟩
  | reservedWrite _ hI => exact And.intro hp hI
  | displayOutOfRange _ _ _ h hc => exact And.intro hp ⟨h, hc⟩
  | keyIndexOutOfRange _ hx => exact And.intro hp ⟨hx, Nat.le_of_lt_succ (BitVec.isLt _)⟩

/-- A fault changes nothing but the record, so a legal record is all the invariant asks of it (R183). -/
theorem State.Inv.takeFault (h : s.Inv) (he : (e.record s).legal) : (s.takeFault e).Inv where
  memCanonical := h.memCanonical
  pcBound := h.pcBound
  stackOfCalls := h.stackOfCalls
  faultLegal r hr := by cases hr; exact ⟨rfl, he⟩

/-! ### The execute stage keeps each clause -/

/-- Memory stays in its canonical form: only Fx33 and Fx55 write it, and inside the address space. -/
theorem executeStage_mem_wf (h : executeStage i s = .ok o) (hm : s.mem.wf = true) : o.state.mem.wf = true := by
  cases i with
  | ret => obtain ⟨-, rfl⟩ := executeRet_ok h; exact hm
  | call nnn => obtain ⟨-, rfl⟩ := executeCall_ok h; exact hm
  | seImm | sneImm | seReg | sneReg => cases h; rwa [skipIf_mem]
  | skp x => rwa [executeSkp_ok h, skipIf_mem]
  | sknp x => rwa [executeSknp_ok h, skipIf_mem]
  | drw x y n =>
    obtain ⟨u, hu, rfl⟩ := executeDrw_ok h
    exact (drawRows_ok hu).1.mem ▸ hm
  | ldVK x => rcases executeLdVK_ok h with ⟨k, -, rfl⟩ | ⟨-, rfl⟩ <;> exact hm
  | ldBV x =>
    obtain ⟨hI, rfl⟩ := executeLdBV_ok h
    have hlt {k : Nat} (hk : k ≤ 2) : s.I.toNat + k < Config.memSize := by simp only [Config.memSize]; omega
    exact Memory.wf_write _ (Memory.wf_write _ (Memory.wf_write _ hm (hlt (k := 0) (by omega))) (hlt (by omega)))
      (hlt (by omega))
  | ldMemV x =>
    obtain ⟨u, hu, rfl⟩ := executeLdMemV_ok h
    exact (forUp_storeReg_ok x.isLt hu).canonical hm
  | ldVMem x =>
    obtain ⟨u, hu, rfl⟩ := executeLdVMem_ok h
    exact (forUp_loadReg_ok x.isLt hu).mem ▸ hm
  | _ => cases h; exact hm

/-- The epilogue adds 2 to a `pc` that is small enough, and any other end leaves it. -/
theorem endState_pc_le (h : o.state.pc.toNat ≤ 0x10FC) : o.endState.pc.toNat ≤ 0x10FE := by
  cases o with
  | advanced u =>
    change u.pc.toNat ≤ _ at h
    simp only [ExecOutcome.endState, epilogue_pc, BitVec.toNat_add, BitVec.reduceToNat]
    omega
  | jumped u => exact Nat.le_trans h (by omega)
  | waiting u => exact Nat.le_trans h (by omega)

theorem addrWord_toNat (nnn : Addr12) : (addrWord nnn).toNat = nnn.toNat := by
  have := nnn.isLt
  simp only [addrWord, BitVec.toNat_setWidth]; omega

theorem offsetTarget_le (v : Byte) (nnn : Addr12) : (offsetTarget v nnn).toNat ≤ 0x10FE := by
  have := nnn.isLt
  have := v.isLt
  simp only [offsetTarget, byteWord, BitVec.toNat_add, addrWord_toNat, BitVec.toNat_setWidth]; omega

theorem skipIf_pc_le (c : Bool) (h : s.pc.toNat ≤ 0xFFE) : (skipIf s c).state.pc.toNat ≤ 0x10FC := by
  cases c with
  | true =>
    simp only [skipIf, ExecOutcome.state, if_true, State.advancePc_pc, BitVec.toNat_add, BitVec.reduceToNat]
    omega
  | false => exact Nat.le_trans h (by omega)

/-- A step from a fetchable `pc` ends at most at 0x10FE, the farthest target of Bnnn (R25, R113). -/
theorem executeStage_pc_le (h : executeStage i s = .ok o) (hi : s.Inv) (hp : fetchable s.pc = true) :
    o.endState.pc.toNat ≤ 0x10FE := by
  have hpc : s.pc.toNat ≤ 0xFFE := (fetchable_iff.1 hp).2.2
  cases i with
  | ret =>
    obtain ⟨hsp, rfl⟩ := executeRet_ok h
    have hcall := hi.stackOfCalls s.sp (Nat.one_le_iff_ne_zero.2 fun h0 => hsp (Fin.ext h0)) (Fin.le_refl _)
    exact endState_pc_le (Nat.le_trans (fetchable_iff.1 hcall).2.2 (by omega))
  | jp nnn =>
    cases h
    exact endState_pc_le (Nat.le_trans (addrWord_toNat nnn ▸ Nat.le_of_lt_succ nnn.isLt) (by omega))
  | call nnn =>
    obtain ⟨-, rfl⟩ := executeCall_ok h
    exact endState_pc_le (Nat.le_trans (addrWord_toNat nnn ▸ Nat.le_of_lt_succ nnn.isLt) (by omega))
  | jpV0 nnn => cases h; exact offsetTarget_le _ nnn
  | seImm | sneImm | seReg | sneReg => cases h; exact endState_pc_le (skipIf_pc_le _ hpc)
  | skp x => rw [executeSkp_ok h]; exact endState_pc_le (skipIf_pc_le _ hpc)
  | sknp x => rw [executeSknp_ok h]; exact endState_pc_le (skipIf_pc_le _ hpc)
  | _ =>
    have hsame : o.state.pc = s.pc := executeStage_frame h .pc (by simp [Instr.writes])
    exact endState_pc_le (hsame ▸ Nat.le_trans hpc (by omega))

/-- A call puts its own fetchable address in the entry it brings into use, and a return only takes one out of use (R110, R112). -/
theorem executeStage_stackOfCalls (h : executeStage i s = .ok o) (hi : s.Inv) (hp : fetchable s.pc = true) (j : Fin 16)
    (hj : 1 ≤ j.val) (hsp : j ≤ o.state.sp) : fetchable (o.state.getStack j) = true := by
  cases i with
  | ret =>
    obtain ⟨h0, rfl⟩ := executeRet_ok h
    have hle : s.sp - 1 ≤ s.sp := by omega
    exact hi.stackOfCalls j hj (Fin.le_trans hsp hle)
  | call nnn =>
    obtain ⟨h15, rfl⟩ := executeCall_ok h
    by_cases he : j = s.sp + 1
    · subst he
      exact (State.setStack_getStack_self _ _ _).symm ▸ hp
    · have hle : j ≤ s.sp := by
        change j ≤ s.sp + 1 at hsp
        omega
      exact (State.setStack_getStack_ne (s.setSp (s.sp + 1)) s.pc he).symm ▸ hi.stackOfCalls j hj hle
  | _ =>
    have hframe := executeStage_frame h
    have hs : o.state.sp = s.sp := hframe .sp (by simp [Instr.writes])
    have hg : o.state.getStack j = s.getStack j := hframe (.stack j) (by simp [Instr.writes])
    rw [hg]
    exact hi.stackOfCalls j hj (hs ▸ hsp)

/-- An execute stage that does not fault hands on the invariant to the end of the step. -/
theorem State.Inv.endState (hi : s.Inv) (hf : s.fault = none) (hp : fetchable s.pc = true) (h : executeStage i s = .ok o) :
    o.endState.Inv where
  memCanonical := by rw [endState_mem]; exact executeStage_mem_wf h hi.memCanonical
  pcBound := executeStage_pc_le h hi hp
  stackOfCalls j hj hsp := by
    rw [endState_sp] at hsp
    rw [endState_getStack]
    exact executeStage_stackOfCalls h hi hp j hj hsp
  faultLegal r hr := by
    rw [endState_fault, executeStage_fault h, hf] at hr
    cases hr

/-- Settles O56: a fault leaves all but its record, which is legal, and an instruction that ends without one keeps each clause. -/
theorem stepKeepsTheInvariant : Obligations.StepKeepsTheInvariant := by
  intro s t hi h
  obtain ⟨hf, ⟨i, hd, hx⟩ | ⟨e, hd, rfl⟩⟩ := step_cases h
  · have hp := fetchable_of_fetchDecode_ok hd
    rcases exec_cases hx with ⟨o, ho, rfl⟩ | ⟨e, he, rfl⟩
    · exact hi.endState hf hp ho
    · exact hi.takeFault ((executeStage_error he).legal hp)
  · exact hi.takeFault (fetchDecode_error_legal hd)

/-! ### Reset -/

/-- Settles O55: at reset no stack entry is in use, nothing is listed in memory, and `pc` is 0x200. -/
theorem resetMeetsTheInvariant : Obligations.ResetMeetsTheInvariant := by
  intro font
  refine ⟨⟨Memory.wf_nothing_listed font, show Config.resetPc.toNat ≤ 0x10FE by decide, fun j hj hsp => ?_, nofun⟩, rfl⟩
  have h0 : j.val ≤ 0 := hsp
  omega

end Sys2Proof.Machine
end

section
/-! PROOFS. The block at reset (R40), and when its host may load an image (R41, R201, R210). -/

namespace Sys2Proof.Machine

/-- Settles O52: the memory is the font and nothing listed, and the other fields are those of `State.resetWith`. -/
theorem resetValues : Obligations.ResetValues := by
  refine ⟨?_, _, rfl⟩
  rintro font s rfl
  have hV (r : Reg) : (State.resetWith font).getV r = 0 := by simp [State.getV, State.resetWith]
  have hstack (j : Fin 16) : (State.resetWith font).getStack j = 0 := by simp [State.getStack, State.resetWith]
  have hcell (c : Nat) : (State.resetWith font).cell c = false := by simp [State.cell, State.resetWith]
  have hkey (k : Nat) : (State.resetWith font).key k = false := by simp [State.key, State.resetWith]
  exact ⟨fun a h => (Memory.read_nothing_listed font a).trans (dif_pos h),
    fun a h => (Memory.read_nothing_listed font a).trans (dif_neg (Nat.not_lt.2 h)),
    hV, rfl, rfl, hstack, rfl, rfl, rfl, hcell, hkey, rfl, rfl, rfl⟩

variable {s : State}

/-! ### The host's image loads -/

/-- Loading an image is allowed exactly before the first step, and for an image that fits (R201, R210). -/
theorem loadImage_allowed_iff (image : List Byte) (fresh : Bool) :
    (HostAction.loadImage image).allowed fresh = true ↔ fresh = true ∧ image.length ≤ 3584 := by
  rw [HostAction.allowed, Bool.and_eq_true, imageFits_iff]

theorem Event.host_apply_of_not_allowed {a : HostAction} {c : Session} (h : ¬ a.allowed c.fresh = true) :
    (Event.host a).apply c = none := if_neg h

theorem Event.host_apply_of_allowed {a : HostAction} {c : Session} (h : a.allowed c.fresh = true) :
    (Event.host a).apply c = some (.next { block := a.apply c.block, fresh := a.freshAfter c.fresh }) := if_pos h

theorem HostAction.freshAfter_of_ne_reset {a : HostAction} (h : a ≠ .reset) (fresh : Bool) :
    a.freshAfter fresh = fresh := by
  cases a with
  | reset => exact absurd rfl h
  | _ => rfl

theorem boot_eq_some {font : Vector Byte 80} {image : List Byte} (h : boot font image = some s) :
    image.length ≤ 3584 ∧ s = (State.resetWith font).placeImage image := by
  unfold boot State.loadImage at h
  split at h
  · next hfit => cases h; exact ⟨(imageFits_iff image).1 hfit, rfl⟩
  · cases h

theorem runSchedule_cons {ev : Event} {es : List Event} {c d : Session} (h : ev.apply c = some (.next d)) :
    runSchedule (ev :: es) c = runSchedule es d := by
  rw [runSchedule, h]

/-- Settles O58: the events' own laws, and for the last clause a reset and then a load, each with its next session. -/
theorem imageLoadsOnlyBetweenResetAndFirstStep : Obligations.ImageLoadsOnlyBetweenResetAndFirstStep := by
  refine ⟨fun c image => ⟨fun h => ?_, fun hc hl => ?_⟩, fun c d h => ?_, fun c d a h => ?_, fun c image s h => ?_⟩
  · refine Event.host_apply_of_not_allowed fun ha => ?_
    obtain ⟨hc, hl⟩ := (loadImage_allowed_iff image c.fresh).1 ha
    rcases h with h | h
    · rw [hc] at h; cases h
    · omega
  · have hload := (loadImage_allowed_iff image c.fresh).2 ⟨hc, hl⟩
    exact Event.host_eq_next.2 ⟨hload, rfl, hc.symm⟩
  · exact Session.step_eq_next.1 (Option.some.inj h)
  · obtain ⟨-, hb, hf⟩ := Event.host_eq_next.1 h
    exact ⟨hb, fun hr => by rw [hf, hr]; rfl, fun hr => hf.trans (HostAction.freshAfter_of_ne_reset hr c.fresh)⟩
  · obtain ⟨hl, rfl⟩ := boot_eq_some h
    have hload : (HostAction.loadImage image).allowed true = true := (loadImage_allowed_iff image true).2 ⟨rfl, hl⟩
    rw [runSchedule_cons (Event.host_apply_of_allowed rfl), runSchedule_cons (Event.host_apply_of_allowed hload)]
    rfl

end Sys2Proof.Machine
end

section
/-! PROOFS. What an instruction reads (R23), by two runs side by side: from states that agree on the "reads" column both runs do
the same checks in the same order, and every field they end with agrees or was left alone by both. -/

namespace Sys2Proof.Machine

variable {s s' t t' u u' : State} {c : Field → Prop} {e : Raise}

/-! ### Agreement of two states on some fields -/

/-- Two states hold the same in every field of `c`. -/
def AgreeOn (c : Field → Prop) (s s' : State) : Prop := ∀ f, c f → f.same s s'

theorem AgreeOn.getV (h : AgreeOn c s s') {r : Reg} (hr : c (.V r)) : s'.getV r = s.getV r := h _ hr
theorem AgreeOn.mem (h : AgreeOn c s s') {a : Nat} (ha : c (.mem a)) : s'.mem.read a = s.mem.read a := h _ ha
theorem AgreeOn.getStack (h : AgreeOn c s s') {j : Fin 16} (hj : c (.stack j)) : s'.getStack j = s.getStack j := h _ hj
theorem AgreeOn.I (h : AgreeOn c s s') (hI : c .I) : s'.I = s.I := h _ hI
theorem AgreeOn.pc (h : AgreeOn c s s') (hp : c .pc) : s'.pc = s.pc := h _ hp
theorem AgreeOn.sp (h : AgreeOn c s s') (hp : c .sp) : s'.sp = s.sp := h _ hp
theorem AgreeOn.DT (h : AgreeOn c s s') (hd : c .DT) : s'.DT = s.DT := h _ hd
theorem AgreeOn.rnd (h : AgreeOn c s s') (hr : c .rnd) : s'.rnd = s.rnd := h _ hr
theorem AgreeOn.rndDraws (h : AgreeOn c s s') (hr : c .rndDraws) : s'.rndDraws = s.rndDraws := h _ hr

theorem AgreeOn.key (h : AgreeOn c s s') (hk : ∀ k, c (.key k)) (k : Nat) : s'.key k = s.key k := h _ (hk k)

/-- Agreement on every cell is agreement of the framebuffer. -/
theorem AgreeOn.disp (h : AgreeOn c s s') (hc : ∀ k, c (.disp k)) : s'.disp = s.disp :=
  BitVec.eq_of_getLsbD_eq fun k _ => h _ (hc k)

/-! ### Two runs side by side -/

/-- From `s` and `s'` two runs went on to `t` and `t'`, and each field agrees at their ends, or both runs left it alone. -/
def Tracks (s s' t t' : State) : Prop := ∀ f : Field, f.same t t' ∨ (f.same s t ∧ f.same s' t')

theorem Tracks.refl (s s' : State) : Tracks s s' s s' := fun f => .inr ⟨f.same_refl s, f.same_refl s'⟩

theorem Tracks.trans (h : Tracks s s' u u') (h2 : Tracks u u' t t') : Tracks s s' t t' := by
  intro f
  rcases h2 f with heq | ⟨hu, hu'⟩
  · exact .inl heq
  · rcases h f with heq | ⟨hs, hs'⟩
    · exact .inl (Field.same_trans (Field.same_trans (Field.same_symm hu) heq) hu')
    · exact .inr ⟨Field.same_trans hs hu, Field.same_trans hs' hu'⟩

/-- A field that agrees at the start agrees at the ends. -/
theorem Tracks.same (h : Tracks s s' u u') {f : Field} (hf : f.same s s') : f.same u u' := by
  rcases h f with heq | ⟨hs, hs'⟩
  · exact heq
  · exact Field.same_trans (Field.same_trans (Field.same_symm hs) hf) hs'

theorem Tracks.agreeOn (h : Tracks s s' u u') (ha : AgreeOn c s s') : AgreeOn c u u' := fun f hf => h.same (ha f hf)

/-- Two updates with one frame, and the same values in it. -/
theorem Tracks.of_frame (h : Frame c s t) (h' : Frame c s' t') (hc : AgreeOn c t t') : Tracks s s' t t' := by
  intro f
  by_cases hf : c f
  · exact .inl (hc f hf)
  · exact .inr ⟨h f hf, h' f hf⟩

/-! ### The same update on both sides -/

theorem Tracks.setV {x : Reg} {v v' : Byte} (h : v' = v) : Tracks s s' (s.setV x v) (s'.setV x v') := by
  refine .of_frame (frame_setV s x v) (frame_setV s' x v') ?_
  rintro f rfl
  simp [Field.same, h]

theorem Tracks.setI {v v' : Word} (h : v' = v) : Tracks s s' (s.setI v) (s'.setI v') := by
  refine .of_frame (frame_setI s v) (frame_setI s' v') ?_
  rintro f rfl
  exact h

theorem Tracks.setPc {v v' : Word} (h : v' = v) : Tracks s s' (s.setPc v) (s'.setPc v') := by
  refine .of_frame (frame_setPc s v) (frame_setPc s' v') ?_
  rintro f rfl
  exact h

theorem Tracks.setSp {v v' : Fin 16} (h : v' = v) : Tracks s s' (s.setSp v) (s'.setSp v') := by
  refine .of_frame (frame_setSp s v) (frame_setSp s' v') ?_
  rintro f rfl
  exact h

theorem Tracks.setDT {v v' : Byte} (h : v' = v) : Tracks s s' (s.setDT v) (s'.setDT v') := by
  refine .of_frame (frame_setDT s v) (frame_setDT s' v') ?_
  rintro f rfl
  exact h

theorem Tracks.setST {v v' : Byte} (h : v' = v) : Tracks s s' (s.setST v) (s'.setST v') := by
  refine .of_frame (frame_setST s v) (frame_setST s' v') ?_
  rintro f rfl
  exact h

theorem Tracks.setStack {j j' : Fin 16} {v v' : Word} (hj : j' = j) (h : v' = v) :
    Tracks s s' (s.setStack j v) (s'.setStack j' v') := by
  subst hj
  refine .of_frame (frame_setStack s j' v) (frame_setStack s' j' v') ?_
  rintro f rfl
  simp [Field.same, h]

theorem Tracks.setByte {a a' : Nat} {v v' : Byte} (ha : a' = a) (h : v' = v) :
    Tracks s s' (s.setByte a v) (s'.setByte a' v') := by
  subst ha
  refine .of_frame (frame_setByte s a' v) (frame_setByte s' a' v') ?_
  rintro f rfl
  simp [Field.same, h]

theorem Tracks.requestDraw : Tracks s s' s.requestDraw s'.requestDraw := by
  refine .of_frame (frame_requestDraw s) (frame_requestDraw s') ?_
  rintro f rfl
  rfl

theorem Tracks.clearDisp : Tracks s s' s.clearDisp s'.clearDisp := by
  refine .of_frame (frame_clearDisp s) (frame_clearDisp s') ?_
  rintro f ⟨k, rfl⟩
  rfl

theorem Tracks.toggleCell {k k' : Nat} (hk : k' = k) (h : s'.disp = s.disp) :
    Tracks s s' (s.toggleCell k) (s'.toggleCell k') := by
  refine .of_frame (frame_toggleCell s k) (frame_toggleCell s' k') ?_
  rintro f ⟨j, rfl⟩
  simp only [Field.same, State.toggleCell, State.cell, hk, h]

theorem Tracks.drawRnd (h : s'.rndDraws = s.rndDraws) : Tracks s s' s.drawRnd s'.drawRnd := by
  refine .of_frame (frame_drawRnd s) (frame_drawRnd s') ?_
  rintro f (rfl | rfl)
  · simp only [Field.same, State.drawRnd_rnd, h]
  · simp only [Field.same, State.drawRnd_rndDraws, h]

theorem Tracks.pushPc (hsp : s'.sp = s.sp) (hpc : s'.pc = s.pc) : Tracks s s' s.pushPc s'.pushPc := by
  have hnew : s'.sp + 1 = s.sp + 1 := congrArg (· + 1) hsp
  exact (Tracks.setSp hnew).trans (.setStack hnew hpc)

theorem Tracks.bumpI {k : Nat} (h : s'.I = s.I) : Tracks s s' (s.bumpI k) (s'.bumpI k) :=
  .setI (congrArg (· + BitVec.ofNat 16 k) h)

theorem Tracks.takeFault (h : s'.pc = s.pc) : Tracks s s' (s.takeFault e) (s'.takeFault e) := by
  refine .of_frame (frame_takeFault s e) (frame_takeFault s' e) ?_
  rintro f rfl
  simp only [Field.same, State.takeFault_fault, h]

theorem Tracks.epilogue (h : AgreeOn epilogueField s s') : Tracks s s' s.epilogue s'.epilogue := by
  have hD : s'.DT = s.DT := h .DT (.inl rfl)
  have hS : s'.ST = s.ST := h .ST (.inr (.inl rfl))
  have hB : s'.playBeep = s.playBeep := h .playBeep (.inr (.inr (.inl rfl)))
  have hP : s'.pc = s.pc := h .pc (.inr (.inr (.inr rfl)))
  refine .of_frame (frame_epilogue s) (frame_epilogue s') ?_
  rintro f (rfl | rfl | rfl | rfl)
  · simp only [Field.same, epilogue_eq, hD]
  · simp only [Field.same, epilogue_eq, hS]
  · simp only [Field.same, epilogue_playBeep, hB, hS]
  · simp only [Field.same, epilogue_pc, hP]

/-! ### The same result on both sides -/

/-- Two computations succeed with related values, or raise the same fault. -/
inductive SameResult {α : Type} (R : α → α → Prop) : Except Raise α → Except Raise α → Prop where
  | ok {a a' : α} (h : R a a') : SameResult R (.ok a) (.ok a')
  | error (e : Raise) : SameResult R (.error e) (.error e)

theorem SameResult.bind {α β : Type} {R : α → α → Prop} {Q : β → β → Prop} {r r' : Except Raise α}
    {f f' : α → Except Raise β} (h : SameResult R r r') (hf : ∀ a a', R a a' → SameResult Q (f a) (f' a')) :
    SameResult Q (r >>= f) (r' >>= f') := by
  cases h with
  | ok h => exact hf _ _ h
  | error e => exact .error e

theorem SameResult.mono {α : Type} {R Q : α → α → Prop} {r r' : Except Raise α} (h : SameResult R r r')
    (hRQ : ∀ a a', R a a' → Q a a') : SameResult Q r r' := by
  cases h with
  | ok h => exact .ok (hRQ _ _ h)
  | error e => exact .error e

/-- Two loops whose iterations keep a relation, each from related states. -/
theorem SameResult.forUp {R : State → State → Prop} {f f' : Nat → State → Except Raise State} {k i : Nat}
    (hs : ∀ j u u', j < i + k → R u u' → SameResult R (f j u) (f' j u')) (h0 : R s s') :
    SameResult R (forUp f k i s) (forUp f' k i s') := by
  induction k generalizing i s s' with
  | zero => exact .ok h0
  | succ k ih =>
    have hstep := hs i s s' (by omega) h0
    cases hf : f i s with
    | error e =>
      rw [hf] at hstep
      cases hf' : f' i s' with
      | error e' =>
        rw [hf'] at hstep
        cases hstep
        rw [forUp_succ_error hf, forUp_succ_error hf']
        exact .error e
      | ok t' => rw [hf'] at hstep; cases hstep
    | ok t =>
      rw [hf] at hstep
      cases hf' : f' i s' with
      | error e' => rw [hf'] at hstep; cases hstep
      | ok t' =>
        rw [hf'] at hstep
        cases hstep with
        | ok ht =>
          rw [forUp_succ_ok hf, forUp_succ_ok hf']
          exact ih (fun j u u' hj => hs j u u' (by omega)) ht

/-- Two outcomes are of one kind, with states that track `s` and `s'`. -/
inductive SameEnd (s s' : State) : ExecOutcome → ExecOutcome → Prop where
  | advanced {u u' : State} (h : Tracks s s' u u') : SameEnd s s' (.advanced u) (.advanced u')
  | jumped {u u' : State} (h : Tracks s s' u u') : SameEnd s s' (.jumped u) (.jumped u')
  | waiting {u u' : State} (h : Tracks s s' u u') : SameEnd s s' (.waiting u) (.waiting u')

theorem SameEnd.skipIf {b b' : Bool} (hb : b' = b) (h : s'.pc = s.pc) : SameEnd s s' (skipIf s b) (skipIf s' b') := by
  subst hb
  cases b' with
  | true => exact .advanced (.setPc (congrArg (· + 2) h))
  | false => exact .advanced (.refl s s')

theorem SameEnd.endState {o o' : ExecOutcome} (h : SameEnd s s' o o') (he : AgreeOn epilogueField s s') :
    Tracks s s' o.endState o'.endState := by
  cases h with
  | advanced h => exact h.trans (.epilogue (h.agreeOn he))
  | jumped h => exact h
  | waiting h => exact h

/-- The end of the step: with the epilogue's fields agreeing, the same result ends in states that track. -/
theorem SameResult.finish {r r' : Except Raise ExecOutcome} (h : SameResult (SameEnd s s') r r')
    (he : AgreeOn epilogueField s s') (ht : finish s r = .next t) (ht' : finish s' r' = .next t') : Tracks s s' t t' := by
  cases h with
  | ok h =>
    rw [finish_ok] at ht ht'
    cases ht
    cases ht'
    exact h.endState he
  | error e =>
    rw [finish_error] at ht ht'
    cases ht
    cases ht'
    exact .takeFault (he.pc (.inr (.inr (.inr rfl))))

/-! ### The same checked access on both sides -/

theorem SameResult.memRead {a a' : Nat} (ha : a' = a) (h : s'.mem.read a = s.mem.read a) :
    SameResult (fun b b' => b' = b) (s.memRead a) (s'.memRead a') := by
  subst ha
  by_cases hle : a' ≤ 0xFFF
  · rw [memRead_of_le hle, memRead_of_le hle]; exact .ok h
  · rw [memRead_of_gt (Nat.lt_of_not_le hle), memRead_of_gt (Nat.lt_of_not_le hle)]; exact .error _

theorem SameResult.memWrite {a a' : Nat} {v v' : Byte} (ha : a' = a) (hv : v' = v) :
    SameResult (Tracks s s') (s.memWrite a v) (s'.memWrite a' v') := by
  subst ha hv
  by_cases hle : a' ≤ 0xFFF
  · by_cases hlow : 0x200 ≤ a'
    · rw [memWrite_of_mem _ hlow hle, memWrite_of_mem _ hlow hle]; exact .ok (.setByte rfl rfl)
    · rw [memWrite_of_lt _ (Nat.lt_of_not_le hlow), memWrite_of_lt _ (Nat.lt_of_not_le hlow)]; exact .error _
  · rw [memWrite_of_gt _ (Nat.lt_of_not_le hle), memWrite_of_gt _ (Nat.lt_of_not_le hle)]; exact .error _

theorem SameResult.keyOf {v v' : Byte} (hv : v' = v) (hk : ∀ k, s'.key k = s.key k) :
    SameResult (fun b b' => b' = b) (s.keyOf v) (s'.keyOf v') := by
  subst hv
  by_cases hle : v'.toNat ≤ 15
  · rw [keyOf_of_le hle, keyOf_of_le hle]; exact .ok (hk _)
  · rw [keyOf_of_gt (Nat.lt_of_not_le hle), keyOf_of_gt (Nat.lt_of_not_le hle)]; exact .error _

theorem firstKeyFrom_congr (hk : ∀ k, s'.key k = s.key k) (m k : Nat) : firstKeyFrom s' m k = firstKeyFrom s m k := by
  induction m generalizing k with
  | zero => rfl
  | succ m ih => simp only [firstKeyFrom, hk, ih]

/-! ### The loops -/

/-- What a loop that reads memory keeps: the runs track, and the first still has the `I` its row's addresses start from. -/
def TracksAtI (s s' u u' : State) : Prop := Tracks s s' u u' ∧ u.I = s.I

theorem TracksAtI.refl (s s' : State) : TracksAtI s s' s s' := ⟨.refl s s', rfl⟩

theorem TracksAtI.trans (h : TracksAtI s s' u u') (h2 : TracksAtI u u' t t') : TracksAtI s s' t t' :=
  ⟨h.1.trans h2.1, h2.2.trans h.2⟩

theorem sameResult_storeReg {k : Nat} (hI : u'.I = u.I) (hV : u'.getV (listReg k) = u.getV (listReg k)) :
    SameResult (Tracks u u') (storeReg k u) (storeReg k u') :=
  .memWrite (congrArg (·.toNat + k) hI) hV

theorem sameResult_loadReg {k : Nat} (hI : u'.I = u.I)
    (hm : u'.mem.read (effectiveAddr u k) = u.mem.read (effectiveAddr u k)) :
    SameResult (TracksAtI u u') (loadReg k u) (loadReg k u') :=
  (SameResult.memRead (congrArg (·.toNat + k) hI) hm).bind fun _ _ hb => .ok ⟨.setV hb, rfl⟩

section
variable {x y : Reg}

theorem Tracks.pixelState {k k' : Nat} (hk : k' = k) (hd : s'.disp = s.disp) :
    Tracks s s' (pixelState s k) (pixelState s' k') := by
  have hflag : collisionFlag s' k' = collisionFlag s k := by simp only [collisionFlag, State.cell, hk, hd]
  exact (Tracks.setV hflag).trans (.toggleCell hk hd)

theorem sameResult_drawColumn {Y X : Nat} {row row' : Byte} (hrow : row' = row) (hx : u'.getV x = u.getV x)
    (hy : u'.getV y = u.getV y) (hd : u'.disp = u.disp) :
    SameResult (TracksAtI u u') (drawColumn x y Y row X u) (drawColumn x y Y row' X u') := by
  subst hrow
  unfold drawColumn
  split
  · rw [drawPixel_eq, drawPixel_eq, hx, hy]
    split
    · exact .error _
    · exact .ok ⟨.pixelState rfl hd, rfl⟩
  · exact .ok ⟨.refl u u', rfl⟩

/-- The rows a draw reads are fixed by `I`. -/
theorem reads_drw_of_I {n : Nibble} (h : u.I = s.I) : (Instr.drw x y n).reads u = (Instr.drw x y n).reads s := by
  funext f
  simp only [Instr.reads, h]

theorem sameResult_drawRow {n : Nibble} {Y : Nat} (hr : AgreeOn ((Instr.drw x y n).reads u) u u') (hY : Y < n.toNat) :
    SameResult (TracksAtI u u') (drawRow x y Y u) (drawRow x y Y u') := by
  have hI : u'.I = u.I := hr.I (.inl rfl)
  have hrow : u'.mem.read (effectiveAddr u Y) = u.mem.read (effectiveAddr u Y) :=
    hr.mem (.inr (.inr (.inr (.inl ⟨Y, hY, rfl⟩))))
  refine (SameResult.memRead (congrArg (·.toNat + Y) hI) hrow).bind fun _ _ hb =>
    .forUp (R := TracksAtI u u') (fun X v v' _ hv => ?_) (.refl u u')
  have hrv := hv.1.agreeOn hr
  exact (sameResult_drawColumn hb (hrv.getV (.inr (.inl rfl))) (hrv.getV (.inr (.inr (.inl rfl))))
    (hrv.disp fun k => .inr (.inr (.inr (.inr ⟨k, rfl⟩))))).mono fun _ _ => hv.trans

theorem sameResult_drawRows {n : Nibble} (hr : AgreeOn ((Instr.drw x y n).reads s) s s') :
    SameResult (TracksAtI s s') (forUp (drawRow x y) n.toNat 0 s) (forUp (drawRow x y) n.toNat 0 s') := by
  refine .forUp (fun Y u u' hY hu => ?_) (.refl s s')
  have hru : AgreeOn ((Instr.drw x y n).reads u) u u' := reads_drw_of_I hu.2 ▸ hu.1.agreeOn hr
  exact (sameResult_drawRow hru (by omega)).mono fun _ _ => hu.trans

theorem sameResult_storeRegs (hr : AgreeOn ((Instr.ldMemV x).reads s) s s') :
    SameResult (Tracks s s') (forUp storeReg (x.val + 1) 0 s) (forUp storeReg (x.val + 1) 0 s') := by
  refine .forUp (fun k u u' hk hu => ?_) (.refl s s')
  have hru := hu.agreeOn hr
  have hkx : listReg k ≤ x := by
    rw [listReg_of_lt (by omega)]
    exact Fin.mk_le_of_le_val (by omega)
  exact (sameResult_storeReg (hru.I (.inl rfl)) (hru.getV (.inr ⟨_, hkx, rfl⟩))).mono fun _ _ => hu.trans

theorem sameResult_loadRegs (hr : AgreeOn ((Instr.ldVMem x).reads s) s s') :
    SameResult (TracksAtI s s') (forUp loadReg (x.val + 1) 0 s) (forUp loadReg (x.val + 1) 0 s') := by
  refine .forUp (fun k u u' hk hu => ?_) (.refl s s')
  have hru := hu.1.agreeOn hr
  have haddr : effectiveAddr u k = s.I.toNat + k := congrArg (·.toNat + k) hu.2
  exact (sameResult_loadReg (hru.I (.inl rfl)) (hru.mem (.inr ⟨k, by omega, by rw [haddr]⟩))).mono fun _ _ => hu.trans

end

/-! ### Every instruction -/

/-- The execute stage of Fx33: three writes, of digits of one register. -/
theorem sameResult_executeLdBV {x : Reg} (hI : s'.I = s.I) (hx : s'.getV x = s.getV x) :
    SameResult (SameEnd s s') (executeLdBV x s) (executeLdBV x s') := by
  have haddr {u u' : State} (h : Tracks s s' u u') (k : Nat) : effectiveAddr u' k = effectiveAddr u k :=
    congrArg (·.toNat + k) (show u'.I = u.I from h.same (f := .I) hI)
  unfold executeLdBV
  refine (SameResult.memWrite (haddr (.refl s s') 0) (congrArg hundreds hx)).bind fun u u' hu => ?_
  refine (SameResult.memWrite (haddr hu 1) (congrArg tens hx)).bind fun v v' hv => ?_
  have hv := hu.trans hv
  exact (SameResult.memWrite (haddr hv 2) (congrArg ones hx)).bind fun _ _ hw => .ok (.advanced (hv.trans hw))

theorem sameResult_executeLdVK {x : Reg} (hk : ∀ k, s'.key k = s.key k) :
    SameResult (SameEnd s s') (executeLdVK x s) (executeLdVK x s') := by
  unfold executeLdVK
  rw [show firstKey s' = firstKey s from firstKeyFrom_congr hk 16 0]
  split
  · exact .ok (.advanced (.setV rfl))
  · exact .ok (.waiting (.refl s s'))

theorem sameResult_executeRet (hsp : s'.sp = s.sp) (htop : s'.getStack s.sp = s.getStack s.sp) :
    SameResult (SameEnd s s') (executeRet s) (executeRet s') := by
  unfold executeRet
  rw [hsp]
  split
  · exact .error _
  · exact .ok (.advanced ((Tracks.setPc htop).trans (.setSp rfl)))

theorem sameResult_executeCall (nnn : Addr12) (hsp : s'.sp = s.sp) (hpc : s'.pc = s.pc) :
    SameResult (SameEnd s s') (executeCall nnn s) (executeCall nnn s') := by
  unfold executeCall
  rw [hsp]
  split
  · exact .error _
  · exact .ok (.jumped ((Tracks.pushPc hsp hpc).trans (.setPc rfl)))

/-- The execute stage depends on the "reads" column of its instruction, and on `pc`, an epilogue field, where it skips. -/
theorem executeStage_sameResult {i : Instr} (hr : AgreeOn (i.reads s) s s') (hpc : s'.pc = s.pc) :
    SameResult (SameEnd s s') (executeStage i s) (executeStage i s') := by
  cases i with
  | cls => exact .ok (.advanced (Tracks.clearDisp.trans .requestDraw))
  | ret => exact sameResult_executeRet (hr.sp (.inl rfl)) (hr.getStack (.inr rfl))
  | jp nnn => exact .ok (.jumped (.setPc rfl))
  | call nnn => exact sameResult_executeCall nnn (hr.sp (.inr rfl)) hpc
  | seImm x nn => exact .ok (.skipIf (congrArg (· == nn) (hr.getV rfl)) hpc)
  | sneImm x nn => exact .ok (.skipIf (congrArg (· != nn) (hr.getV rfl)) hpc)
  | seReg x y => exact .ok (.skipIf (congrArg₂ (· == ·) (hr.getV (.inl rfl)) (hr.getV (.inr rfl))) hpc)
  | sneReg x y => exact .ok (.skipIf (congrArg₂ (· != ·) (hr.getV (.inl rfl)) (hr.getV (.inr rfl))) hpc)
  | ldImm x nn => exact .ok (.advanced (.setV rfl))
  | addImm x nn => exact .ok (.advanced (.setV (congrArg (· + nn) (hr.getV rfl))))
  | ldReg x y => exact .ok (.advanced (.setV (hr.getV rfl)))
  | or x y => exact .ok (.advanced (.setV (congrArg₂ (· ||| ·) (hr.getV (.inl rfl)) (hr.getV (.inr rfl)))))
  | and x y => exact .ok (.advanced (.setV (congrArg₂ (· &&& ·) (hr.getV (.inl rfl)) (hr.getV (.inr rfl)))))
  | xor x y => exact .ok (.advanced (.setV (congrArg₂ (· ^^^ ·) (hr.getV (.inl rfl)) (hr.getV (.inr rfl)))))
  | addReg x y =>
    have hx := hr.getV (r := x) (.inl rfl)
    have hy := hr.getV (r := y) (.inr rfl)
    exact .ok (.advanced ((Tracks.setV (congrArg₂ carryFlag hx hy)).trans (.setV (congrArg₂ (· + ·) hx hy))))
  | sub x y =>
    have hx := hr.getV (r := x) (.inl rfl)
    have hy := hr.getV (r := y) (.inr rfl)
    have hflag : Tracks s s' _ _ := .setV (x := VF) (congrArg₂ notBorrowFlag hx hy)
    have hf := hflag.agreeOn hr
    exact .ok (.advanced (hflag.trans (.setV (congrArg₂ (· - ·) (hf.getV (.inl rfl)) (hf.getV (.inr rfl))))))
  | subn x y =>
    have hx := hr.getV (r := x) (.inl rfl)
    have hy := hr.getV (r := y) (.inr rfl)
    have hflag : Tracks s s' _ _ := .setV (x := VF) (congrArg₂ notBorrowFlag hy hx)
    have hf := hflag.agreeOn hr
    exact .ok (.advanced (hflag.trans (.setV (congrArg₂ (· - ·) (hf.getV (.inr rfl)) (hf.getV (.inl rfl))))))
  | shr x y =>
    have hflag : Tracks s s' _ _ := .setV (x := VF) (congrArg shiftOutLow (hr.getV (r := x) rfl))
    exact .ok (.advanced (hflag.trans (.setV (congrArg (fun b : Byte => b >>> 1) ((hflag.agreeOn hr).getV rfl)))))
  | shl x y =>
    have hflag : Tracks s s' _ _ := .setV (x := VF) (congrArg shiftOutHigh (hr.getV (r := x) rfl))
    exact .ok (.advanced (hflag.trans (.setV (congrArg (fun b : Byte => b <<< 1) ((hflag.agreeOn hr).getV rfl)))))
  | ldI nnn => exact .ok (.advanced (.setI rfl))
  | jpV0 nnn => exact .ok (.jumped (.setPc (congrArg (offsetTarget · nnn) (hr.getV rfl))))
  | rnd x nn =>
    exact .ok (.advanced ((Tracks.setV (congrArg (· &&& nn) (hr.rnd (.inl rfl)))).trans (.drawRnd (hr.rndDraws (.inr rfl)))))
  | drw x y n =>
    exact (sameResult_drawRows hr).bind fun _ _ hu => .ok (.advanced (hu.1.trans .requestDraw))
  | skp x =>
    exact (SameResult.keyOf (hr.getV (.inl rfl)) (hr.key fun k => .inr ⟨k, rfl⟩)).bind fun _ _ hb => .ok (.skipIf hb hpc)
  | sknp x =>
    exact (SameResult.keyOf (hr.getV (.inl rfl)) (hr.key fun k => .inr ⟨k, rfl⟩)).bind fun _ _ hb =>
      .ok (.skipIf (congrArg (!·) hb) hpc)
  | ldVDt x => exact .ok (.advanced (.setV (hr.DT rfl)))
  | ldVK x => exact sameResult_executeLdVK (hr.key fun k => ⟨k, rfl⟩)
  | ldDtV x => exact .ok (.advanced (.setDT (hr.getV rfl)))
  | ldStV x => exact .ok (.advanced (.setST (hr.getV rfl)))
  | addIV x =>
    have hflag : Tracks s s' _ _ :=
      .setV (x := VF) (congrArg₂ indexOverflowFlag (hr.I (.inl rfl)) (hr.getV (r := x) (.inr rfl)))
    have hf := hflag.agreeOn hr
    exact .ok (.advanced (hflag.trans
      (.setI (congrArg₂ (fun i v => i + byteWord v) (hf.I (.inl rfl)) (hf.getV (.inr rfl))))))
  | ldFV x => exact .ok (.advanced (.setI (congrArg glyphAddr (hr.getV rfl))))
  | ldBV x => exact sameResult_executeLdBV (hr.I (.inl rfl)) (hr.getV (.inr rfl))
  | ldMemV x =>
    exact (sameResult_storeRegs hr).bind fun _ _ hu =>
      .ok (.advanced (hu.trans (.bumpI ((hu.agreeOn hr).I (.inl rfl)))))
  | ldVMem x =>
    exact (sameResult_loadRegs hr).bind fun _ _ hu =>
      .ok (.advanced (hu.1.trans (.bumpI ((hu.1.agreeOn hr).I (.inl rfl)))))

/-- Settles O49: two runs that agree on the row and the epilogue's fields have the same result, and the end of the step keeps them
side by side. -/
theorem instructionsReadOnlyTheirRow : Obligations.InstructionsReadOnlyTheirRow := by
  intro i s s' t t' hagree ht ht'
  have hr : AgreeOn (i.reads s) s s' := fun f hf => hagree f (.inl hf)
  have he : AgreeOn epilogueField s s' := fun f hf => hagree f (.inr hf)
  rw [exec_eq_finish] at ht ht'
  exact (executeStage_sameResult hr (he.pc (.inr (.inr (.inr rfl))))).finish he ht ht'

end Sys2Proof.Machine
end

section
/-! PROOFS. Memory (R50 to R55, R61): the checks of an access, the fetch after a write, the bytes below 0x200, and the canonical
form. -/

namespace Sys2Proof.Machine

variable {i : Instr} {s t : State} {o : ExecOutcome} {m : Memory} {c : List Host.Cell}

/-! ### The checks of an access (R53 to R55) -/

/-- Settles O33: one law of `memRead` or `memWrite` for each range of addresses. -/
theorem memoryAccessChecks : Obligations.MemoryAccessChecks := by
  intro s a v
  refine ⟨fun h => ⟨memRead_of_gt h, memWrite_of_gt v h⟩, memWrite_of_lt v, memRead_of_le, fun hlow hhigh => ?_⟩
  exact ⟨s.setByte a v, memWrite_of_mem v hlow hhigh, Memory.read_write_self s.mem a v, frame_setByte s a v⟩

/-! ### The fetch after a write (R61, R205) -/

/-- The big-endian word is its two bytes side by side (R52). -/
theorem wordOfBytes_eq_append (hi lo : Byte) : wordOfBytes hi lo = hi ++ lo :=
  BitVec.eq_of_toNat_eq ((wordOfBytes_toNat hi lo).trans (append_toNat hi lo).symm)

/-- The fetch of a `pc` it accepts is the two bytes there. -/
theorem fetch_of_fetchPasses (h : s.fetchPasses) :
    s.fetch = .ok (s.mem.read s.pc.toNat ++ s.mem.read (s.pc.toNat + 1)) := by
  rw [fetch_of_fetchable (fetchable_iff.2 h), wordOfBytes_eq_append]

/-- Settles O34: both fetches are the two bytes at the same `pc`, and the write replaced at most one of them. -/
theorem writeSeenByNextFetch : Obligations.WriteSeenByNextFetch := by
  intro s t a v hw hp
  obtain ⟨-, -, rfl⟩ := memWrite_eq_ok.1 hw
  rw [fetch_of_fetchPasses hp, fetch_of_fetchPasses (s := s.setByte a v) hp, State.setByte_mem, State.setByte_pc]
  refine ⟨?_, ?_, fun h0 h1 => ?_⟩
  · rintro rfl
    rw [Memory.read_write_self, Memory.read_write_ne _ _ (Nat.succ_ne_self _)]
  · rintro rfl
    rw [Memory.read_write_self, Memory.read_write_ne _ _ (Nat.succ_ne_self _).symm]
  · rw [Memory.read_write_ne _ _ h0.symm, Memory.read_write_ne _ _ h1.symm]

/-! ### The bytes below 0x200 (R51, R54) -/

/-- A store loop of at least one store that succeeds began at a writable address: its first store passed the check. -/
theorem I_ge_of_forUp_storeReg_ok {k : Nat} (h : forUp storeReg (k + 1) 0 s = .ok t) : 0x200 ≤ s.I.toNat := by
  cases hfirst : storeReg 0 s with
  | ok u => exact (memWrite_eq_ok.1 hfirst).1
  | error e => rw [forUp_succ_error hfirst] at h; cases h

theorem I_ge_of_executeLdBV_ok {x : Reg} (h : executeLdBV x s = .ok o) : 0x200 ≤ s.I.toNat := by
  rcases executeLdBV_cases x s with ⟨hI, -, -⟩ | ⟨-, hx⟩ | ⟨-, hx⟩
  · exact hI
  · rw [hx] at h; cases h
  · rw [hx] at h; cases h

/-- The memory bytes in the "writes" column of an instruction that does not fault are at 0x200 or above. -/
theorem executeStage_writes_mem_ge {a : Nat} (h : executeStage i s = .ok o) (hw : i.writes s (.mem a)) : 0x200 ≤ a := by
  cases i with
  | ldBV x =>
    have hI := I_ge_of_executeLdBV_ok h
    obtain ⟨k, -, ha⟩ := hw
    cases ha
    omega
  | ldMemV x =>
    obtain ⟨u, hu, -⟩ := executeLdMemV_ok h
    have hI := I_ge_of_forUp_storeReg_ok hu
    obtain ha | ⟨k, -, ha⟩ := hw
    · cases ha
    · cases ha
      omega
  | _ => simp [Instr.writes] at hw

/-- Settles O35: a fault leaves memory alone, and an instruction that ends without one writes no byte outside its row. -/
theorem lowMemoryIsNeverWritten : Obligations.LowMemoryIsNeverWritten := by
  intro s t h a ha
  obtain ⟨-, ⟨i, -, hx⟩ | ⟨e, -, rfl⟩⟩ := step_cases h
  · rcases exec_cases hx with ⟨o, ho, rfl⟩ | ⟨e, -, rfl⟩
    · rw [endState_mem]
      exact executeStage_frame ho (.mem a) fun hw => Nat.not_le.2 ha (executeStage_writes_mem_ge ho hw)
    · rfl
  · rfl

/-! ### The canonical form is determined by what it reads (log entry 3) -/

/-- The order in which a canonical list holds its cells: by address. -/
def cellBefore (p q : Host.Cell) : Prop := p.1 < q.1

theorem cellsSorted_iff_pairwise : cellsSorted c = true ↔ c.Pairwise cellBefore := by
  induction c with
  | nil => simp [cellsSorted]
  | cons p t ih => rw [cellsSorted_cons, List.pairwise_cons, ih]; rfl

/-- A byte other than 0 is read only where it is listed. -/
theorem mem_of_cellsRead {p : Host.Cell} (h : cellsRead c p.1 = p.2) (hne : p.2 ≠ 0) : p ∈ c := by
  induction c with
  | nil => exact absurd h.symm hne
  | cons q t ih =>
    by_cases hq : q.1 = p.1
    · have hv : q.2 = p.2 := (if_pos hq).symm.trans h
      exact List.mem_cons.2 (.inl (Prod.ext hq hv).symm)
    · exact List.mem_cons_of_mem _ (ih ((if_neg hq).symm.trans h))

/-- In a list that rises in address, every cell is read at its address. -/
theorem cellsRead_of_mem {p : Host.Cell} (hs : cellsSorted c = true) (hp : p ∈ c) : cellsRead c p.1 = p.2 := by
  induction c with
  | nil => cases hp
  | cons q t ih =>
    obtain ⟨habove, ht⟩ := (cellsSorted_cons q t).1 hs
    rcases List.mem_cons.1 hp with rfl | hp
    · exact if_pos rfl
    · exact (if_neg (Nat.ne_of_lt (habove p hp))).trans (ih ht hp)

theorem Memory.wf_iff : m.wf = true ↔
    cellsSorted m.cells = true ∧ ∀ p ∈ m.cells, 80 ≤ p.1 ∧ p.1 < Config.memSize ∧ p.2 ≠ 0 := by
  simp [Memory.wf, and_assoc]

theorem Memory.read_of_lt_80 {a : Nat} (h : a < 80) : m.read a = m.font[a] := dif_pos h

theorem Memory.read_of_ge_80 {a : Nat} (h : 80 ≤ a) : m.read a = cellsRead m.cells a := dif_neg (Nat.not_lt.2 h)

/-- The cells of a canonical memory are the bytes other than 0 that it reads from 0x050 on. -/
theorem Memory.mem_cells_iff (h : m.wf = true) {p : Host.Cell} :
    p ∈ m.cells ↔ 80 ≤ p.1 ∧ p.2 ≠ 0 ∧ m.read p.1 = p.2 := by
  obtain ⟨hsorted, hcells⟩ := Memory.wf_iff.1 h
  constructor
  · intro hp
    obtain ⟨hlow, -, hne⟩ := hcells p hp
    exact ⟨hlow, hne, (Memory.read_of_ge_80 hlow).trans (cellsRead_of_mem hsorted hp)⟩
  · rintro ⟨hlow, hne, hread⟩
    exact mem_of_cellsRead ((Memory.read_of_ge_80 hlow).symm.trans hread) hne

/-- Settles O36: equal reads give equal fonts, and lists with the same cells, which are in the order of their addresses. -/
theorem equalReadsAreEqualMemories : Obligations.EqualReadsAreEqualMemories := by
  intro m m' h h' hread
  have hfont : m.font = m'.font := by
    apply Vector.ext
    intro a ha
    rw [← Memory.read_of_lt_80 ha, ← Memory.read_of_lt_80 ha, hread]
  have hmem (p : Host.Cell) : p ∈ m.cells ↔ p ∈ m'.cells := by
    rw [Memory.mem_cells_iff h, Memory.mem_cells_iff h', hread]
  have hirrefl : Std.Irrefl cellBefore := ⟨fun p => Nat.lt_irrefl p.1⟩
  have hantisymm : Std.Antisymm cellBefore := ⟨fun _ _ h1 h2 => absurd h2 (Nat.lt_asymm h1)⟩
  have hcells : m.cells = m'.cells :=
    (cellsSorted_iff_pairwise.1 (Memory.wf_iff.1 h).1).eq_of_mem_iff
      (cellsSorted_iff_pairwise.1 (Memory.wf_iff.1 h').1) hmem
  cases m
  cases m'
  cases hfont
  cases hcells
  rfl

end Sys2Proof.Machine
end


section
/-! PROOFS. The encoding (R70 to R80): the decoder and the encoder undo each other, the opcode table selects exactly the words
that decode, the other words are unknown, and the assembler line of an instruction stands for it. -/

namespace Sys2Proof

variable {op : Word} {i : Instr}

/-! ### Every instruction decodes back from its word (R74) -/

/-- One constructor per row of the opcode map, taken together by the shape of the word (R72) and the decoder's dispatch (R74). -/
theorem decode_encode (i : Instr) : decode (encode i) = .ok i := by
  cases i with
  | cls | ret => rfl
  | jp | call | ldI | jpV0 => simp [encode, decode]
  | seImm | sneImm | ldImm | addImm | rnd => simp [encode, decode]
  | seReg | sneReg | drw => simp [encode, decode]
  | ldReg | or | and | xor | addReg | sub | shr | subn | shl => simp [encode, decode, decodeGroup8]
  | skp | sknp => simp [encode, decode, decodeGroupE]
  | ldVDt | ldVK | ldDtV | ldStV | addIV | ldFV | ldBV | ldMemV | ldVMem => simp [encode, decode, decodeGroupF]

theorem decodeBytes_encodeBytes_append (i : Instr) (rest : List Byte) :
    decodeBytes (encodeBytes i ++ rest) = .ok (i, rest) := by
  simp [encodeBytes, decodeBytes, decode_encode]

/-- Settles O4: every constructor decodes back from its word, and the two bytes of a word put together are the word. -/
theorem decodeOfEncode : Obligations.DecodeOfEncode :=
  fun i rest => ⟨decode_encode i, decodeBytes_encodeBytes_append i rest⟩

/-! ### A word that decodes is the word of what it decodes to (R74) -/

section
variable {g : BitVec 4} {nn : Byte} {n : Nibble}

theorem encA_of_group (hg : group op = g) : encA g (nnnField op) = op := hg ▸ encA_fields op

theorem encXNN_of_group (hg : group op = g) : encXNN g (xField op) (nnField op) = op := hg ▸ encXNN_fields op

theorem encXYN_of_group (hg : group op = g) : encXYN g (xField op) (yField op) (nField op) = op := hg ▸ encXYN_fields op

theorem encXNN_of_group_nn (hg : group op = g) (hnn : nnField op = nn) : encXNN g (xField op) nn = op :=
  hnn ▸ encXNN_of_group hg

theorem encXYN_of_group_n (hg : group op = g) (hn : nField op = n) : encXYN g (xField op) (yField op) n = op :=
  hn ▸ encXYN_of_group hg
end

theorem encode_of_decodeGroup0 (h : decodeGroup0 op = .ok i) : encode i = op := by
  unfold decodeGroup0 at h
  split at h
  · next hop => cases h; exact hop.symm
  · split at h
    · next hop => cases h; exact hop.symm
    · cases h

theorem encode_of_decodeGroup8 (hg : group op = 0x8) (h : decodeGroup8 op = .ok i) : encode i = op := by
  unfold decodeGroup8 at h
  split at h <;> cases h
  all_goals next hn => exact encXYN_of_group_n hg (BitVec.eq_of_toNat_eq hn)

theorem encode_of_decodeGroupE (hg : group op = 0xE) (h : decodeGroupE op = .ok i) : encode i = op := by
  unfold decodeGroupE at h
  split at h <;> cases h
  all_goals next hnn => exact encXNN_of_group_nn hg (BitVec.eq_of_toNat_eq hnn)

theorem encode_of_decodeGroupF (hg : group op = 0xF) (h : decodeGroupF op = .ok i) : encode i = op := by
  unfold decodeGroupF at h
  split at h <;> cases h
  all_goals next hnn => exact encXNN_of_group_nn hg (BitVec.eq_of_toNat_eq hnn)

/-- One case per group of the decoder, in its order. -/
theorem encode_of_decode (h : decode op = .ok i) : encode i = op := by
  unfold decode at h
  split at h
  case h_1 => exact encode_of_decodeGroup0 h
  case h_2 hg | h_3 hg | h_11 hg | h_12 hg => cases h; exact encA_of_group (BitVec.eq_of_toNat_eq hg)
  case h_4 hg | h_5 hg | h_7 hg | h_8 hg | h_13 hg => cases h; exact encXNN_of_group (BitVec.eq_of_toNat_eq hg)
  case h_6 hg | h_10 hg =>
    split at h <;> cases h
    next hn => exact encXYN_of_group_n (BitVec.eq_of_toNat_eq hg) hn
  case h_9 hg => exact encode_of_decodeGroup8 (BitVec.eq_of_toNat_eq hg) h
  case h_14 hg => cases h; exact encXYN_of_group (BitVec.eq_of_toNat_eq hg)
  case h_15 hg => exact encode_of_decodeGroupE (BitVec.eq_of_toNat_eq hg) h
  case h_16 =>
    have hlt := (group op).isLt
    simp only [imp_false] at *
    have hg : (group op).toNat = 15 := by omega
    exact encode_of_decodeGroupF (BitVec.eq_of_toNat_eq hg) h

/-- The decoder reads exactly the words the encoder writes. -/
theorem decode_eq_ok_iff : decode op = .ok i ↔ encode i = op :=
  ⟨encode_of_decode, fun h => h ▸ decode_encode i⟩

/-- Settles O5: by the decoder's answer; its one error records the word. -/
theorem encodeOfDecode : Obligations.EncodeOfDecode := by
  intro op
  cases h : decode op with
  | ok i => exact .inl ⟨i, rfl, encode_of_decode h⟩
  | error e => exact .inr (by rw [decode_error h])

/-! ### The opcode table selects the words that decode (R76) -/

/-- The instruction of the same row whose operands are the fields of a word (R71). -/
def Instr.withFields (op : Word) : Instr → Instr
  | .cls => .cls
  | .ret => .ret
  | .jp _ => .jp (nnnField op)
  | .call _ => .call (nnnField op)
  | .seImm _ _ => .seImm (xField op) (nnField op)
  | .sneImm _ _ => .sneImm (xField op) (nnField op)
  | .seReg _ _ => .seReg (xField op) (yField op)
  | .ldImm _ _ => .ldImm (xField op) (nnField op)
  | .addImm _ _ => .addImm (xField op) (nnField op)
  | .ldReg _ _ => .ldReg (xField op) (yField op)
  | .or _ _ => .or (xField op) (yField op)
  | .and _ _ => .and (xField op) (yField op)
  | .xor _ _ => .xor (xField op) (yField op)
  | .addReg _ _ => .addReg (xField op) (yField op)
  | .sub _ _ => .sub (xField op) (yField op)
  | .shr _ _ => .shr (xField op) (yField op)
  | .subn _ _ => .subn (xField op) (yField op)
  | .shl _ _ => .shl (xField op) (yField op)
  | .sneReg _ _ => .sneReg (xField op) (yField op)
  | .ldI _ => .ldI (nnnField op)
  | .jpV0 _ => .jpV0 (nnnField op)
  | .rnd _ _ => .rnd (xField op) (nnField op)
  | .drw _ _ _ => .drw (xField op) (yField op) (nField op)
  | .skp _ => .skp (xField op)
  | .sknp _ => .sknp (xField op)
  | .ldVDt _ => .ldVDt (xField op)
  | .ldVK _ => .ldVK (xField op)
  | .ldDtV _ => .ldDtV (xField op)
  | .ldStV _ => .ldStV (xField op)
  | .addIV _ => .addIV (xField op)
  | .ldFV _ => .ldFV (xField op)
  | .ldBV _ => .ldBV (xField op)
  | .ldMemV _ => .ldMemV (xField op)
  | .ldVMem _ => .ldVMem (xField op)

@[simp] theorem row_withFields (op : Word) (i : Instr) : (i.withFields op).row = i.row := by cases i <;> rfl

section
variable {g : BitVec 4} {nn : Byte} {n : Nibble}
open Laws.TableRow

/-- The mask of shape A selects by the group. -/
theorem group_of_and (h : op &&& 0xF000 = encA g 0) : group op = g := by
  rw [← encA_fields op, encA_and] at h
  simpa using congrArg group h

/-- The mask 0xF0FF selects by the group and `nn`. -/
theorem encXNN_of_and_nn (h : op &&& 0xF0FF = encXNN g 0 nn) : encXNN g (xField op) nn = op := by
  rw [← encXNN_fields op, encXNN_and_nn] at h
  exact encXNN_of_group_nn (by simpa using congrArg group h) (by simpa using congrArg nnField h)

/-- The mask 0xF00F selects by the group and `n`. -/
theorem encXYN_of_and_n (h : op &&& 0xF00F = encXYN g 0 0 n) : encXYN g (xField op) (yField op) n = op := by
  rw [← encXYN_fields op, encXYN_and_n] at h
  exact encXYN_of_group_n (by simpa using congrArg group h) (by simpa using congrArg nField h)
end

/-- A word that a row selects is the word of that row's instruction with the word's own fields as operands. -/
theorem encode_withFields (h : i.row.selects op = true) : encode (i.withFields op) = op := by
  have h := beq_iff_eq.1 h
  cases i with
  | cls | ret => exact h.symm.trans (BitVec.and_allOnes (x := op))
  | jp | call | ldI | jpV0 => exact encA_of_group (group_of_and h)
  | seImm | sneImm | ldImm | addImm | rnd => exact encXNN_of_group (group_of_and h)
  | drw => exact encXYN_of_group (group_of_and h)
  | seReg | sneReg | ldReg | or | and | xor | addReg | sub | shr | subn | shl =>
    exact encXYN_of_and_n h
  | skp | sknp | ldVDt | ldVK | ldDtV | ldStV | addIV | ldFV | ldBV | ldMemV | ldVMem =>
    exact encXNN_of_and_nn h

theorem row_mem_opcodeTable (i : Instr) : i.row ∈ opcodeTable := by
  cases i <;> simp [opcodeTable, Instr.row]

/-- Every instruction's word belongs to its row; the constructors' lemmas, in the order of the table. -/
theorem Laws.TableRow.statement (i : Instr) : Statement i := by
  cases i
  exacts [cls, ret, jp _, call _, seImm _ _, sneImm _ _, seReg _ _, ldImm _ _, addImm _ _, ldReg _ _, or _ _, and _ _, xor _ _,
    addReg _ _, sub _ _, shr _ _, subn _ _, shl _ _, sneReg _ _, ldI _, jpV0 _, rnd _ _, drw _ _ _, skp _, sknp _, ldVDt _,
    ldVK _, ldDtV _, ldStV _, addIV _, ldFV _, ldBV _, ldMemV _, ldVMem _]

/-- Settles O6: a word that decodes is a word of its instruction's row; a word a row selects is the word of that row's
instruction with the word's own fields. -/
theorem decoderSelectsByTheTable : Obligations.DecoderSelectsByTheTable := by
  refine fun op => ⟨fun i h => ⟨row_mem_opcodeTable i, ?_⟩, fun r hr h => ?_⟩
  · rw [← encode_of_decode h]
    exact Laws.TableRow.statement i
  · obtain ⟨i, -, rfl⟩ := List.mem_map.1 hr
    exact ⟨i.withFields op, decode_eq_ok_iff.2 (encode_withFields h), row_withFields op i⟩

/-! ### The words that are no instruction (R75, R77) -/

theorem decodeGroup0_unknown (hcls : op ≠ 0x00E0) (hret : op ≠ 0x00EE) : decodeGroup0 op = .error (.unknownOpcode op) := by
  rw [decodeGroup0, if_neg hcls, if_neg hret]

theorem decodeGroup8_unknown (h8 : 8 ≤ (nField op).toNat) (hE : nField op ≠ 0xE) :
    decodeGroup8 op = .error (.unknownOpcode op) := by
  have hE' : (nField op).toNat ≠ 0xE := fun h => hE (BitVec.eq_of_toNat_eq h)
  unfold decodeGroup8
  split
  case h_10 => rfl
  all_goals omega

theorem decodeGroupE_unknown (hskp : nnField op ≠ 0x9E) (hsknp : nnField op ≠ 0xA1) :
    decodeGroupE op = .error (.unknownOpcode op) := by
  unfold decodeGroupE
  split
  case h_1 h => exact absurd (BitVec.eq_of_toNat_eq h) hskp
  case h_2 h => exact absurd (BitVec.eq_of_toNat_eq h) hsknp
  case h_3 => rfl

theorem decodeGroupF_unknown (h : (nnField op).toNat ∉ [0x07, 0x0A, 0x15, 0x18, 0x1E, 0x29, 0x33, 0x55, 0x65]) :
    decodeGroupF op = .error (.unknownOpcode op) := by
  unfold decodeGroupF
  split
  case h_10 => rfl
  all_goals next hnn => simp [hnn] at h

/-- Four fields side by side are a word in shape XYN (R72). -/
theorem append_eq_encXYN (g x y n : BitVec 4) : g ++ x ++ y ++ n = encXYN g (regOfBits x) (regOfBits y) n := by
  simp [encXYN]

/-- A group, `x` and `nn` side by side are a word in shape XNN (R72). -/
theorem append_eq_encXNN (g x : BitVec 4) (nn : Byte) : g ++ x ++ nn = encXNN g (regOfBits x) nn := by
  simp [encXNN]

theorem decode_encA_unknown {nnn : Addr12} (hcls : nnn ≠ 0x0E0) (hret : nnn ≠ 0x0EE) :
    decode (encA 0 nnn) = .error (.unknownOpcode (encA 0 nnn)) := by
  have h (a : Addr12) (ha : nnn ≠ a) : encA 0 nnn ≠ encA 0 a := fun he => ha (by simpa using congrArg nnnField he)
  simpa [decode] using decodeGroup0_unknown (h _ hcls) (h _ hret)

/-- Settles O7: each clause is its group's dispatch on the field the clause is about. -/
theorem unknownWordsByGroup : Obligations.UnknownWordsByGroup := by
  refine ⟨fun nnn => decode_encA_unknown, fun x y n hn => ?_, fun x y n h8 hE => ?_, fun x nn hskp hsknp => ?_, fun x nn h => ?_⟩
  · rw [append_eq_encXYN, append_eq_encXYN]
    simpa [decode] using hn
  · rw [append_eq_encXYN]
    simpa [decode] using decodeGroup8_unknown (by simpa using h8) (by simpa using hE)
  · rw [append_eq_encXNN]
    simpa [decode] using decodeGroupE_unknown (by simpa using hskp) (by simpa using hsknp)
  · rw [append_eq_encXNN]
    simpa [decode] using decodeGroupF_unknown (by simpa using h)

/-! ### Assembler lines (R79, R80) -/

@[simp] theorem reg?_val (x : Reg) : reg? x.val = some x := by simp [reg?]

@[simp] theorem nibble?_toNat (n : Nibble) : nibble? n.toNat = some n := by
  rw [nibble?, if_pos n.isLt, BitVec.ofNat_toNat, BitVec.setWidth_eq]

@[simp] theorem byte?_toNat (nn : Byte) : byte? nn.toNat = some nn := by
  rw [byte?, if_pos nn.isLt, BitVec.ofNat_toNat, BitVec.setWidth_eq]

@[simp] theorem addr?_toNat (nnn : Addr12) : addr? nnn.toNat = some nnn := by
  rw [addr?, if_pos nnn.isLt, BitVec.ofNat_toNat, BitVec.setWidth_eq]

theorem asmX_val (f : Reg → Instr) (x : Reg) : asmX f x.val = some (.instr (f x)) := by simp [asmX]

theorem asmXY_val (f : Reg → Reg → Instr) (x y : Reg) : asmXY f x.val y.val = some (.instr (f x y)) := by simp [asmXY]

theorem asmXNN_val (f : Reg → Byte → Instr) (x : Reg) (nn : Byte) : asmXNN f x.val nn.toNat = some (.instr (f x nn)) := by
  simp [asmXNN]

theorem asmA_toNat (f : Addr12 → Instr) (nnn : Addr12) : asmA f nnn.toNat = some (.instr (f nnn)) := by simp [asmA]

/-- The line of an instruction stands for that instruction: one case per operand form of rule R79. -/
theorem item?_asm (i : Instr) : i.asm.item? = some (.instr i) := by
  cases i with
  | cls | ret => rfl
  | jp a | call a | ldI a | jpV0 a => exact asmA_toNat _ a
  | seImm x nn | sneImm x nn | ldImm x nn | addImm x nn | rnd x nn => exact asmXNN_val _ x nn
  | seReg x y | sneReg x y | ldReg x y | or x y | and x y | xor x y | addReg x y | sub x y | shr x y | subn x y | shl x y =>
    exact asmXY_val _ x y
  | drw x y n => simp [Instr.asm, AsmLine.item?]
  | skp x | sknp x | ldVDt x | ldVK x | ldDtV x | ldStV x | addIV x | ldFV x | ldBV x | ldMemV x | ldVMem x =>
    exact asmX_val _ x

/-- Settles O8: the line stands for the instruction, so it is well-formed and places the instruction's bytes. -/
theorem assemblerLineOfEveryInstruction : Obligations.AssemblerLineOfEveryInstruction := by
  intro i
  simp [AsmLine.wf, assemble, item?_asm]

/-! ### A word of each group -/

/-- Settles O9: closed words, evaluated. -/
theorem wordsOfEachGroupDecode : Obligations.WordsOfEachGroupDecode := by
  unfold Obligations.WordsOfEachGroupDecode
  decide

end Sys2Proof
end

section
/-! PROOFS. The step cycle (R90 to R101): fetch, decode and execute, the epilogue and the timers, and the outputs a step
only sets. -/

namespace Sys2Proof.Machine

variable {i : Instr} {s : State} {o : ExecOutcome}

/-! ### A running block steps (R90, R180, R184) -/

theorem exists_exec_next (i : Instr) (s : State) : ∃ t, exec i s = .next t := by
  rw [exec_eq_finish]
  cases executeStage i s with
  | ok o => exact ⟨o.endState, finish_ok s o⟩
  | error e => exact ⟨s.takeFault e, finish_error s e⟩

theorem step_of_fetchDecode_ok (hf : s.fault = none) (h : s.fetchDecode = .ok i) : step s = exec i s := by
  rw [step, hf, h]

theorem step_of_fetchDecode_error {e : Raise} (hf : s.fault = none) (h : s.fetchDecode = .error e) :
    step s = .next (s.takeFault e) := by
  rw [step, hf, h]

/-- Settles O3: whatever fetch and decode answer, the step runs an instruction or takes a fault, and both have a next state. -/
theorem runningBlockAlwaysSteps : Obligations.RunningBlockAlwaysSteps := by
  intro s
  refine ⟨fun hf => ?_, fun i => exists_exec_next i s⟩
  cases hd : s.fetchDecode with
  | ok i => rw [step_of_fetchDecode_ok hf hd]; exact exists_exec_next i s
  | error e => exact ⟨_, step_of_fetchDecode_error hf hd⟩

/-! ### Fetch, decode, execute (R91 to R93) -/

/-- The big-endian word the fetch answers is the one the rules describe (R52, R92). -/
theorem wordOfBytes_eq_opcodeAt (s : State) :
    wordOfBytes (s.mem.read s.pc.toNat) (s.mem.read (s.pc.toNat + 1)) = s.opcodeAt := by
  rw [State.opcodeAt, ← wordOfBytes_toNat, BitVec.ofNat_toNat, BitVec.setWidth_eq]

theorem fetchDecode_of_fetchPasses (h : s.fetchPasses) : s.fetchDecode = decodeOrRaise s.opcodeAt := by
  rw [fetchDecode_of_fetchable (fetchable_iff.2 h), wordOfBytes_eq_opcodeAt]

theorem fetchable_eq_false (h : ¬ s.fetchPasses) : fetchable s.pc = false :=
  Bool.eq_false_iff.2 fun hp => h (fetchable_iff.1 hp)

/-- Settles O1: by what fetch and decode answer in each case. -/
theorem stepFetchesDecodesExecutes : Obligations.StepFetchesDecodesExecutes := by
  intro s hf
  refine ⟨fun hp => ?_, fun hp => ⟨fun i hd => ?_, fun d hd => ?_⟩⟩
  · exact step_of_fetchDecode_error hf (fetchDecode_of_not_fetchable (fetchable_eq_false hp))
  · exact step_of_fetchDecode_ok hf (by rw [fetchDecode_of_fetchPasses hp, decodeOrRaise, hd])
  · exact step_of_fetchDecode_error hf (e := ⟨.unknownOpcode, s.opcodeAt.toNat⟩)
      (by rw [fetchDecode_of_fetchPasses hp, decodeOrRaise, hd])

/-! ### The epilogue and the timers (R95 to R98) -/

/-- Settles O44: the epilogue of an execute stage that changed nothing more, and the two ends without one. -/
theorem epilogueRunsExactlyWhenAdvanced : Obligations.EpilogueRunsExactlyWhenAdvanced := by
  intro s₀ s
  exact ⟨⟨s.epilogue, finish_advanced s₀ s, advanced_epilogue (Frame.refl _ s) nofun⟩,
    finish_jumped s₀ s, finish_waiting s₀ s⟩

theorem not_writes_DT (h : ∀ x, i ≠ .ldDtV x) (s : State) : ¬ i.writes s .DT := by
  cases i with
  | ldDtV x => exact absurd rfl (h x)
  | _ => simp [Instr.writes]

theorem not_writes_ST (h : ∀ x, i ≠ .ldStV x) (s : State) : ¬ i.writes s .ST := by
  cases i with
  | ldStV x => exact absurd rfl (h x)
  | _ => simp [Instr.writes]

/-- No instruction's row names `play_beep`: only the epilogue sets it. -/
theorem not_writes_playBeep (i : Instr) (s : State) : ¬ i.writes s .playBeep := by
  cases i <;> simp [Instr.writes]

/-- An instruction that is no jump and does not fault ends Advanced, unless it waits for a key (R95). -/
theorem executeStage_advanced (hj : ¬ i.jumps) (hw : ¬ ∃ x, i = .ldVK x ∧ ∀ k, s.key k = false)
    (h : executeStage i s = .ok o) : ∃ u, o = .advanced u := by
  cases i with
  | jp | call | jpV0 => exact absurd trivial hj
  | ret => exact ⟨_, (executeRet_ok h).2⟩
  | skp x => exact ⟨_, executeSkp_ok h⟩
  | sknp x => exact ⟨_, executeSknp_ok h⟩
  | drw x y n =>
    obtain ⟨u, -, rfl⟩ := executeDrw_ok h
    exact ⟨_, rfl⟩
  | ldVK x =>
    rcases executeLdVK_ok h with ⟨k, -, rfl⟩ | ⟨hnone, -⟩
    · exact ⟨_, rfl⟩
    · exact absurd ⟨x, rfl, firstKey_eq_none.1 hnone⟩ hw
  | ldBV x => exact ⟨_, (executeLdBV_ok h).2⟩
  | ldMemV x =>
    obtain ⟨u, -, rfl⟩ := executeLdMemV_ok h
    exact ⟨_, rfl⟩
  | ldVMem x =>
    obtain ⟨u, -, rfl⟩ := executeLdVMem_ok h
    exact ⟨_, rfl⟩
  | _ => cases h; exact ⟨_, rfl⟩

/-- With every key released, LD Vx, K ends Waiting in the state it began in (R173). -/
theorem executeLdVK_waiting {x : Reg} (hk : ∀ k, s.key k = false) (h : executeLdVK x s = .ok o) : o = .waiting s := by
  rcases executeLdVK_ok h with ⟨k, hsome, -⟩ | ⟨-, rfl⟩
  · rw [firstKey_eq_none.2 hk] at hsome; cases hsome
  · rfl

/-- A jump leaves the timers and the beep alone: its row does not name them, and no epilogue runs. -/
theorem timers_of_jumps (hj : i.jumps) (h : executeStage i s = .ok o) :
    o.endState.DT = s.DT ∧ o.endState.ST = s.ST ∧ o.endState.playBeep = s.playBeep := by
  have hrow := executeStage_frame h
  obtain ⟨u, rfl⟩ := executeStage_of_jumps hj h
  have hDT (x : Reg) : i ≠ .ldDtV x := by rintro rfl; exact hj
  have hST (x : Reg) : i ≠ .ldStV x := by rintro rfl; exact hj
  exact ⟨hrow .DT (not_writes_DT hDT s), hrow .ST (not_writes_ST hST s), hrow .playBeep (not_writes_playBeep i s)⟩

/-- Settles O45: a fault changes its record alone, a jump and a wait run no epilogue, and every other instruction hands the timers
it does not write to the epilogue. -/
theorem timersMoveOnlyWhenAdvanced : Obligations.TimersMoveOnlyWhenAdvanced := by
  intro i s t hf ht
  rcases exec_cases ht with ⟨o, ho, rfl⟩ | ⟨e, -, rfl⟩
  · have hnone : o.endState.fault = none := (endState_fault o).trans ((executeStage_fault ho).trans hf)
    have hrow := executeStage_frame ho
    refine ⟨?_, fun hj _ hw => ?_⟩
    · rintro (hj | hfault | ⟨x, rfl, hk⟩)
      · exact timers_of_jumps hj ho
      · exact absurd hnone hfault
      · rw [executeLdVK_waiting hk ho]; exact ⟨rfl, rfl, rfl⟩
    · obtain ⟨u, rfl⟩ := executeStage_advanced hj hw ho
      refine ⟨fun hi => ?_, fun hi => ?_⟩
      · rw [← show u.DT = s.DT from hrow .DT (not_writes_DT hi s)]; exact epilogue_DT_toNat u
      · rw [← show u.ST = s.ST from hrow .ST (not_writes_ST hi s)]; exact epilogue_ST_toNat u
  · exact ⟨fun _ => ⟨rfl, rfl, rfl⟩, nofun⟩

/-! ### The outputs and the keys (R101) -/

/-- No instruction's row names a key latch: they are the host's. -/
theorem not_writes_key (i : Instr) (s : State) (k : Nat) : ¬ i.writes s (.key k) := by
  cases i <;> simp [Instr.writes]

/-- The two instructions that write `need_draw` set it; the others leave it. -/
theorem executeStage_needDraw (h : executeStage i s = .ok o) (hd : s.needDraw = true) : o.state.needDraw = true := by
  cases i with
  | cls => cases h; rfl
  | drw x y n =>
    obtain ⟨u, -, rfl⟩ := executeDrw_ok h
    rfl
  | _ => exact (executeStage_frame h .needDraw (by simp [Instr.writes])).trans hd

@[simp] theorem endState_needDraw (o : ExecOutcome) : o.endState.needDraw = o.state.needDraw :=
  frame_endState o .needDraw (by simp [epilogueField])

@[simp] theorem endState_key (o : ExecOutcome) (k : Nat) : o.endState.key k = o.state.key k :=
  frame_endState o (.key k) (by simp [epilogueField])

/-- The end of a step sets `play_beep` or leaves it. -/
theorem endState_playBeep (h : o.state.playBeep = true) : o.endState.playBeep = true := by
  cases o with
  | advanced u => exact (epilogue_playBeep u).trans (by rw [show u.playBeep = true from h, Bool.true_or])
  | jumped u => exact h
  | waiting u => exact h

theorem endState_keys_of_executeStage (h : executeStage i s = .ok o) : o.endState.keys = s.keys :=
  BitVec.eq_of_getLsbD_eq fun k _ =>
    (endState_key o k).trans (executeStage_frame h (.key k) (not_writes_key i s k))

/-- Settles O50: a fault changes its record alone, and for an instruction that ends without one by its row and the epilogue. -/
theorem stepNeverClearsOutputsOrWritesKeys : Obligations.StepNeverClearsOutputsOrWritesKeys := by
  intro s t h
  obtain ⟨-, ⟨i, -, hx⟩ | ⟨e, -, rfl⟩⟩ := step_cases h
  · rcases exec_cases hx with ⟨o, ho, rfl⟩ | ⟨e, -, rfl⟩
    · have hbeep : o.state.playBeep = s.playBeep := executeStage_frame ho .playBeep (not_writes_playBeep i s)
      exact ⟨fun hd => (endState_needDraw o).trans (executeStage_needDraw ho hd),
        fun hb => endState_playBeep (hbeep.trans hb), endState_keys_of_executeStage ho⟩
    · exact ⟨id, id, rfl⟩
  · exact ⟨id, id, rfl⟩

end Sys2Proof.Machine
end

section
/-! PROOFS. The random byte (R100): the run from another random byte is the same run with that byte in every state, a relation that
each checked access, each loop, each execute stage but RND's, and the end of the step keeps.  Whole states are compared, and so
memories as data, which `Tracks` (equal reads) does not give. -/

namespace Sys2Proof.Machine

variable {i : Instr} {s t : State} {b : Byte}

/-! ### The relation -/

/-- The state with another random byte presented (log entry 1). -/
def State.withRnd (s : State) (b : Byte) : State := { s with rnd := b }

/-- The outcome with another random byte in its state. -/
def ExecOutcome.withRnd (b : Byte) : ExecOutcome → ExecOutcome
  | .advanced u => .advanced (u.withRnd b)
  | .jumped u => .jumped (u.withRnd b)
  | .waiting u => .waiting (u.withRnd b)

/-- The second state is the first but for the random byte, which is `b`. -/
def SameButRnd (b : Byte) (u u' : State) : Prop := u' = u.withRnd b

/-- The second outcome is the first but for the random byte, which is `b`. -/
def SameEndButRnd (b : Byte) (o o' : ExecOutcome) : Prop := o' = o.withRnd b

/-! ### Checked accesses and loops -/

/-- Two computations that take the same branch. -/
theorem SameResult.ite {α : Type} {R : α → α → Prop} {p : Prop} [Decidable p] {r₁ r₁' r₂ r₂' : Except Raise α}
    (h₁ : SameResult R r₁ r₁') (h₂ : SameResult R r₂ r₂') :
    SameResult R (if p then r₁ else r₂) (if p then r₁' else r₂') := by
  split
  · exact h₁
  · exact h₂

theorem memWrite_withRnd (a : Nat) (v : Byte) (s : State) :
    SameResult (SameButRnd b) (s.memWrite a v) ((s.withRnd b).memWrite a v) :=
  .ite (.error _) (.ite (.error _) (.ok rfl))

theorem storeReg_withRnd (k : Nat) (s : State) : SameResult (SameButRnd b) (storeReg k s) (storeReg k (s.withRnd b)) :=
  memWrite_withRnd _ _ s

theorem loadReg_withRnd (k : Nat) (s : State) : SameResult (SameButRnd b) (loadReg k s) (loadReg k (s.withRnd b)) :=
  (SameResult.memRead rfl rfl).bind fun _ _ hv => .ok (by rw [hv]; rfl)

/-- A loop whose iterations keep the relation keeps it. -/
theorem forUp_withRnd {f : Nat → State → Except Raise State}
    (hf : ∀ j u, SameResult (SameButRnd b) (f j u) (f j (u.withRnd b))) (k j : Nat) (s : State) :
    SameResult (SameButRnd b) (forUp f k j s) (forUp f k j (s.withRnd b)) :=
  .forUp (fun j u _ _ hu => by cases hu; exact hf j u) rfl

theorem drawColumn_withRnd (x y : Reg) (Y : Nat) (row : Byte) (X : Nat) (s : State) :
    SameResult (SameButRnd b) (drawColumn x y Y row X s) (drawColumn x y Y row X (s.withRnd b)) :=
  .ite (.ite (.error _) (.ok rfl)) (.ok rfl)

theorem drawRow_withRnd (x y : Reg) (Y : Nat) (s : State) :
    SameResult (SameButRnd b) (drawRow x y Y s) (drawRow x y Y (s.withRnd b)) :=
  (SameResult.memRead rfl rfl).bind fun row _ hrow => by
    rw [hrow]
    exact forUp_withRnd (drawColumn_withRnd x y Y row) 8 0 s

/-! ### Every instruction but RND -/

theorem executeLdBV_withRnd (x : Reg) (s : State) :
    SameResult (SameEndButRnd b) (executeLdBV x s) (executeLdBV x (s.withRnd b)) := by
  refine (memWrite_withRnd _ _ s).bind fun u₁ u₁' h₁ => ?_
  cases h₁
  refine (memWrite_withRnd _ _ u₁).bind fun u₂ u₂' h₂ => ?_
  cases h₂
  refine (memWrite_withRnd _ _ u₂).bind fun u₃ u₃' h₃ => ?_
  cases h₃
  exact .ok rfl

theorem executeLdVK_withRnd (x : Reg) (s : State) :
    SameResult (SameEndButRnd b) (executeLdVK x s) (executeLdVK x (s.withRnd b)) := by
  have hkey : firstKey (s.withRnd b) = firstKey s := firstKeyFrom_congr (fun _ => rfl) 16 0
  unfold executeLdVK
  rw [hkey]
  cases firstKey s with
  | some k => exact .ok rfl
  | none => exact .ok rfl

theorem skipIf_withRnd (s : State) (c : Bool) : SameEndButRnd b (skipIf s c) (skipIf (s.withRnd b) c) := by
  cases c <;> rfl

/-- The execute stage of every instruction but RND does the same from another random byte. -/
theorem executeStage_withRnd (hi : ∀ x nn, i ≠ .rnd x nn) (s : State) :
    SameResult (SameEndButRnd b) (executeStage i s) (executeStage i (s.withRnd b)) := by
  cases i with
  | rnd x nn => exact absurd rfl (hi x nn)
  | ret => exact .ite (.error _) (.ok rfl)
  | call nnn => exact .ite (.error _) (.ok rfl)
  | seImm | sneImm | seReg | sneReg => exact .ok (skipIf_withRnd s _)
  | skp x => exact (SameResult.keyOf rfl fun _ => rfl).bind fun _ _ hb => .ok (hb ▸ skipIf_withRnd s _)
  | sknp x => exact (SameResult.keyOf rfl fun _ => rfl).bind fun _ _ hb => .ok (hb ▸ skipIf_withRnd s _)
  | drw x y n =>
    exact (forUp_withRnd (drawRow_withRnd x y) n.toNat 0 s).bind fun _ _ hu => .ok (by cases hu; rfl)
  | ldVK x => exact executeLdVK_withRnd x s
  | ldBV x => exact executeLdBV_withRnd x s
  | ldMemV x => exact (forUp_withRnd storeReg_withRnd (x.val + 1) 0 s).bind fun _ _ hu => .ok (by cases hu; rfl)
  | ldVMem x => exact (forUp_withRnd loadReg_withRnd (x.val + 1) 0 s).bind fun _ _ hu => .ok (by cases hu; rfl)
  | _ => exact .ok rfl

/-! ### The end of the step -/

theorem epilogue_withRnd (s : State) (b : Byte) : (s.withRnd b).epilogue = s.epilogue.withRnd b := by
  rw [epilogue_eq, epilogue_eq]
  rfl

theorem endState_withRnd (o : ExecOutcome) (b : Byte) : (o.withRnd b).endState = o.endState.withRnd b := by
  cases o with
  | advanced u => exact epilogue_withRnd u b
  | jumped u => rfl
  | waiting u => rfl

/-- The end of the step keeps the relation: the epilogue and the fault record do not depend on the random byte. -/
theorem finish_withRnd {r r' : Except Raise ExecOutcome} (h : SameResult (SameEndButRnd b) r r')
    (ht : finish s r = .next t) : finish (s.withRnd b) r' = .next (t.withRnd b) := by
  cases h with
  | ok h =>
    cases h
    rw [finish_ok] at ht ⊢
    cases ht
    rw [endState_withRnd]
  | error e => cases ht; rfl

/-- Settles O27: the execute stage does the same from the other byte, and so does the end of the step. -/
theorem onlyRndReadsTheRandomByte : Obligations.OnlyRndReadsTheRandomByte := by
  intro i s t b hi ht
  rw [exec_eq_finish] at ht ⊢
  exact finish_withRnd (executeStage_withRnd hi s) ht

end Sys2Proof.Machine
end

section
/-! PROOFS. Control transfer (R110 to R115): what RET, JP, CALL and JP V0 answer, the fetch of a target it does not accept, and a
call with its return. -/

namespace Sys2Proof.Machine

variable {i : Instr} {s : State} {o : ExecOutcome} {e : Raise}

/-! ### The step an execute stage ends in (R95, R183) -/

theorem exec_of_executeStage_ok (h : executeStage i s = .ok o) : exec i s = .next o.endState := by
  rw [exec_eq_finish, h, finish_ok]

theorem exec_of_executeStage_error (h : executeStage i s = .error e) :
    exec i s = .next (FaultedWith s e.kind e.info) := by
  rw [exec_eq_finish, h, finish_error]
  rfl

/-! ### Push and pop (R24, R110, R112) -/

/-- Take `pc` from the top entry and decrement `sp`; the entry is not cleared (R24, R110). -/
def State.popPc (s : State) : State := (s.setPc (s.getStack s.sp)).setSp (s.sp - 1)

@[simp] theorem State.pushPc_sp (s : State) : s.pushPc.sp = s.sp + 1 := rfl

@[simp] theorem State.pushPc_getStack_top (s : State) : s.pushPc.getStack (s.sp + 1) = s.pc :=
  State.setStack_getStack_self _ _ _

/-- The pop undoes the push, wherever `pc` went in between, but for the entry that was pushed. -/
theorem popPc_setPc_pushPc (s : State) (v : Word) : (s.pushPc.setPc v).popPc = s.setStack (s.sp + 1) s.pc := by
  have htop : (s.pushPc.setPc v).getStack (s.sp + 1) = s.pc := s.pushPc_getStack_top
  have hsp : s.sp + 1 - 1 = s.sp := add_sub_cancel_right _ _
  rw [State.popPc, State.setPc_sp, State.pushPc_sp, htop, hsp]
  rfl

/-! ### The execute stage by the stack pointer (R110, R112) -/

theorem executeRet_of_sp_eq_zero (h : s.sp = 0) : executeRet s = .error ⟨.stackUnderflow, 0⟩ := by
  rw [executeRet, h]
  rfl

theorem executeRet_of_sp_ne_zero (h : s.sp ≠ 0) : executeRet s = .ok (.advanced s.popPc) := if_neg h

theorem executeCall_of_sp_eq (nnn : Addr12) (h : s.sp = 15) : executeCall nnn s = .error ⟨.stackOverflow, 15⟩ := by
  rw [executeCall, h]
  rfl

theorem executeCall_of_sp_lt (nnn : Addr12) (h : s.sp.val < 15) :
    executeCall nnn s = .ok (.jumped (s.pushPc.setPc (addrWord nnn))) :=
  if_neg fun h15 => Nat.ne_of_lt h (congrArg Fin.val h15)

theorem exec_ret_of_sp_ne_zero (h : s.sp ≠ 0) : exec .ret s = .next s.popPc.epilogue :=
  exec_of_executeStage_ok (i := .ret) (executeRet_of_sp_ne_zero h)

theorem exec_call_of_sp_lt (nnn : Addr12) (h : s.sp.val < 15) :
    exec (.call nnn) s = .next (s.pushPc.setPc (addrWord nnn)) :=
  exec_of_executeStage_ok (i := .call nnn) (executeCall_of_sp_lt nnn h)

/-- A jump does not look at its target: its execute stage ends Jumped, unless it is a call with no room on the stack. -/
theorem executeStage_jumped (hj : i.jumps) (hroom : (∃ nnn, i = .call nnn) → s.sp.val < 15) :
    ∃ u, executeStage i s = .ok (.jumped u) := by
  cases i with
  | jp | jpV0 => exact ⟨_, rfl⟩
  | call nnn => exact ⟨_, executeCall_of_sp_lt nnn (hroom ⟨nnn, rfl⟩)⟩
  | _ => exact hj.elim

/-! ### The target, and the fetch after the jump (R113, R115) -/

/-- The target of Bnnn is the exact sum: it does not wrap. -/
theorem offsetTarget_toNat (v : Byte) (nnn : Addr12) : (offsetTarget v nnn).toNat = v.toNat + nnn.toNat := by
  have := nnn.isLt
  have := v.isLt
  simp only [offsetTarget, byteWord, BitVec.toNat_add, addrWord_toNat, BitVec.toNat_setWidth]
  omega

theorem step_of_not_fetchPasses (hf : s.fault = none) (hp : ¬ s.fetchPasses) :
    step s = .next (FaultedWith s .fetchFault s.pc.toNat) := (stepFetchesDecodesExecutes s hf).1 hp

/-! ### Each instruction -/

/-- Settles O11: JP is one write of `pc`. -/
theorem jpJumpsWithNoEpilogue : Obligations.JpJumpsWithNoEpilogue := by
  refine fun nnn => ⟨decode_encode (.jp nnn), fun s => ⟨s.setPc (addrWord nnn), rfl, ?_⟩⟩
  exact ⟨addrWord_toNat nnn, frame_setPc s _, step_of_not_fetchPasses (s := s.setPc (addrWord nnn))⟩

/-- Settles O13: JP V0 is one write of `pc`, with the exact sum. -/
theorem jpV0AddsV0 : Obligations.JpV0AddsV0 := by
  refine fun nnn => ⟨decode_encode (.jpV0 nnn), fun s => ⟨s.setPc (offsetTarget (s.getV 0) nnn), rfl, ?_⟩⟩
  exact ⟨offsetTarget_toNat _ nnn, offsetTarget_le _ nnn, frame_setPc s _,
    step_of_not_fetchPasses (s := s.setPc (offsetTarget (s.getV 0) nnn))⟩

/-- Settles O12: at `sp = 15` the call faults; with room it is the push of its own `pc` and then the jump. -/
theorem callPushesItsOwnAddress : Obligations.CallPushesItsOwnAddress := by
  refine fun nnn => ⟨decode_encode (.call nnn), fun s => ⟨fun h => ?_, fun j hj => ?_⟩⟩
  · exact exec_of_executeStage_error (i := .call nnn) (executeCall_of_sp_eq nnn (Fin.ext h))
  · have hroom : s.sp.val < 15 := by omega
    obtain rfl : j = s.sp + 1 := Fin.ext (hj.trans (Fin.val_add_one_of_lt hroom).symm)
    have hrow := executeStage_frame (i := .call nnn) (executeCall_of_sp_lt nnn hroom)
    exact ⟨_, exec_call_of_sp_lt nnn hroom, rfl, s.pushPc_getStack_top, addrWord_toNat nnn, hrow.mono fun _ => or_rotate.1,
      step_of_not_fetchPasses (s := s.pushPc.setPc _)⟩

/-- Settles O10: at `sp = 0` the return faults; otherwise it is the pop and then the epilogue. -/
theorem retPopsAndRunsTheEpilogue : Obligations.RetPopsAndRunsTheEpilogue := by
  refine ⟨decode_encode .ret, fun s => ⟨fun h => ?_, fun h => ?_⟩⟩
  · exact exec_of_executeStage_error (i := .ret) (executeRet_of_sp_eq_zero h)
  · have hrow : Frame (fun f => f = .pc ∨ f = .sp) s s.popPc :=
      executeStage_frame (i := .ret) (executeRet_of_sp_ne_zero h)
    have hframe : Frame (fun f => f = .sp ∨ epilogueField f) s s.popPc := hrow.mono fun f hf => by
      rcases hf with hpc | hsp
      · exact .inr (.inr (.inr (.inr hpc)))
      · exact .inl hsp
    have hsp : s.popPc.epilogue.sp = s.sp - 1 := epilogue_sp _
    exact ⟨_, exec_ret_of_sp_ne_zero h, by rw [hsp, Fin.val_sub_one_of_ne_zero h],
      advancedTo_epilogue hframe rfl rfl rfl rfl⟩

/-! ### Every jump (R115) -/

/-- Settles O14: the jump ends Jumped with the writes of its row, and its target is left to the next fetch. -/
theorem badJumpTargetFaultsOneStepLate : Obligations.BadJumpTargetFaultsOneStepLate := by
  intro i s hj hf hroom
  obtain ⟨u, hu⟩ := executeStage_jumped hj hroom
  have hfu : u.fault = none := (executeStage_fault hu).trans hf
  refine ⟨u, exec_of_executeStage_ok hu, hfu, executeStage_frame hu, ?_, ?_, ?_, step_of_not_fetchPasses hfu⟩
  · rintro nnn rfl
    cases hu
    exact addrWord_toNat nnn
  · rintro nnn rfl
    obtain ⟨-, hcall⟩ := executeCall_ok hu
    cases hcall
    exact ⟨addrWord_toNat nnn, Fin.val_add_one_of_lt (hroom ⟨nnn, rfl⟩), s.pushPc_getStack_top⟩
  · rintro nnn rfl
    cases hu
    exact offsetTarget_toNat _ nnn

/-! ### A call and its return (R110, R112, R206) -/

/-- Settles O15: the pop undoes the push but for the entry, so the return's epilogue runs as after an instruction that wrote only
that entry, at the `pc` of the call. -/
theorem callThenReturnIsSequential : Obligations.CallThenReturnIsSequential := by
  intro nnn p s hroom
  have hsp : (s.sp + 1).val = s.sp.val + 1 := Fin.val_add_one_of_lt hroom
  have hne : s.sp + 1 ≠ 0 := fun h0 => Nat.succ_ne_zero _ (hsp.symm.trans (congrArg Fin.val h0))
  have hret := exec_ret_of_sp_ne_zero (s := s.pushPc.setPc (p.setWidth 16)) hne
  rw [popPc_setPc_pushPc] at hret
  refine ⟨_, exec_call_of_sp_lt nnn hroom, _, hret, ?_⟩
  refine advanced_epilogue ((frame_setStack s _ _).mono fun _ hf => ⟨_, hsp, hf⟩) ?_
  rintro _ ⟨j, -, rfl⟩
  simp [epilogueField]

end Sys2Proof.Machine
end

section
/-! PROOFS. Conditional skips (R120 to R124): the ends of a skip taken and not taken, the rule for an instruction that is one skip,
and the four comparisons. -/

namespace Sys2Proof.Machine

variable {i : Instr} {a b : Byte}

/-! ### The two ends of a skip (R120) -/

/-- A taken skip moves `pc` by 2 itself, and its epilogue by 2 again. -/
theorem advancedTo_skipIf_true (s : State) :
    AdvancedTo s (skipIf s true).endState (s.pcPlus 4) s.DT s.ST (fun _ => False) := by
  have hpc : s.advancePc.pcPlus 2 = s.pcPlus 4 := by
    simp only [State.pcPlus, State.advancePc_pc, BitVec.toNat_add, BitVec.reduceToNat]
    omega
  exact advancedTo_epilogue ((frame_setPc s _).mono fun _ hf => .inr (.inr (.inr (.inr hf)))) rfl rfl rfl hpc

/-- A skip that is not taken leaves the whole state to the epilogue. -/
theorem advancedTo_skipIf_false (s : State) :
    AdvancedTo s (skipIf s false).endState (s.pcPlus 2) s.DT s.ST (fun _ => False) :=
  advanced_epilogue (Frame.refl _ s) fun _ => False.elim

/-- An instruction whose execute stage is a skip on a test skips when what the test decides holds. -/
theorem skipsWhen_of_executeStage {test : State → Bool} {cond : State → Prop}
    (h : ∀ s, executeStage i s = .ok (skipIf s (test s))) (htest : ∀ s, test s = true ↔ cond s) : SkipsWhen i cond := by
  refine fun s => ⟨_, exec_of_executeStage_ok (h s), fun hc => ?_, fun hc => ?_⟩
  · rw [(htest s).2 hc]
    exact advancedTo_skipIf_true s
  · rw [Bool.eq_false_iff.2 fun ht => hc ((htest s).1 ht)]
    exact advancedTo_skipIf_false s

/-! ### The comparisons (R121 to R124) -/

theorem byte_beq_iff_toNat_eq : (a == b) = true ↔ a.toNat = b.toNat := beq_iff_eq.trans BitVec.toNat_inj.symm

theorem byte_bne_iff_toNat_ne : (a != b) = true ↔ a.toNat ≠ b.toNat := bne_iff_ne.trans BitVec.toNat_inj.symm.not

/-- Settles O16: each of the four is one skip, on a comparison of two bytes, and a byte is its number. -/
theorem comparisonSkips : Obligations.ComparisonSkips := by
  refine ⟨fun x nn => ⟨decode_encode (.seImm x nn), ?_, decode_encode (.sneImm x nn), ?_⟩,
    fun x y => ⟨decode_encode (.seReg x y), ?_, decode_encode (.sneReg x y), ?_⟩⟩
  · exact skipsWhen_of_executeStage (fun _ => rfl) fun _ => byte_beq_iff_toNat_eq
  · exact skipsWhen_of_executeStage (fun _ => rfl) fun _ => byte_bne_iff_toNat_ne
  · exact skipsWhen_of_executeStage (fun _ => rfl) fun _ => byte_beq_iff_toNat_eq
  · exact skipsWhen_of_executeStage (fun _ => rfl) fun _ => byte_bne_iff_toNat_ne

end Sys2Proof.Machine
end

section
/-! PROOFS. Loads and the ALU (R130 to R144): the step of an instruction that is one register write, the step of one that writes
the flag and then its destination, the values of the flags, and what a difference or a shift taken after the flag write reads. -/

namespace Sys2Proof.Machine

variable {i : Instr} {s : State} {p q x : Reg} {v w : Byte}

/-! ### The two shapes of a step (R11, R97, R131) -/

theorem not_epilogueField_V (r : Reg) : ¬ epilogueField (.V r) := by simp [epilogueField]

/-- An instruction that is one register write: its value, and everything else by the epilogue. -/
theorem exec_of_setV (h : executeStage i s = .ok (.advanced (s.setV x v))) :
    ∃ t, exec i s = .next t ∧ t.getV x = v ∧ Advanced s t (fun f => f = .V x) := by
  refine ⟨(s.setV x v).epilogue, exec_of_executeStage_ok h, by simp, advanced_epilogue (frame_setV s x v) ?_⟩
  rintro _ rfl
  exact not_epilogueField_V x

/-- An instruction that writes the flag and then its destination: a destination `VF` ends as the result, not the flag. -/
theorem exec_of_setVF_setV (h : executeStage i s = .ok (.advanced ((s.setV VF v).setV x w))) :
    ∃ t, exec i s = .next t ∧ t.getV x = w ∧ (x ≠ VF → t.getV VF = v) ∧
      Advanced s t (fun f => f = .V x ∨ f = .V VF) := by
  refine ⟨((s.setV VF v).setV x w).epilogue, exec_of_executeStage_ok h, by simp, fun hx => ?_,
    advanced_epilogue (frame_setVF_setV s x v w) ?_⟩
  · rw [epilogue_getV, State.setV_getV_ne _ w hx.symm, State.setV_getV_self]
  · rintro _ (rfl | rfl)
    · exact not_epilogueField_V x
    · exact not_epilogueField_V VF

/-! ### The flags as numbers (R22, R138 to R142) -/

theorem bitByte_decide_toNat (c : Prop) [Decidable c] : (bitByte (decide c)).toNat = if c then 1 else 0 := by
  by_cases h : c <;> simp [bitByte, h]

theorem carryFlag_toNat (a b : Byte) : (carryFlag a b).toNat = if a.toNat + b.toNat > 255 then 1 else 0 :=
  bitByte_decide_toNat _

theorem notBorrowFlag_toNat (a b : Byte) : (notBorrowFlag a b).toNat = if a.toNat > b.toNat then 1 else 0 :=
  bitByte_decide_toNat _

theorem shiftOutLow_toNat (a : Byte) : (shiftOutLow a).toNat = a.toNat % 2 := by
  rw [shiftOutLow, BitVec.toNat_and]
  exact Nat.and_one_is_mod _

theorem shiftOutHigh_toNat (a : Byte) : (shiftOutHigh a).toNat = a.toNat / 128 := by
  rw [shiftOutHigh, BitVec.toNat_ushiftRight, Nat.shiftRight_eq_div_pow]

theorem byte_shiftRight_one_toNat (a : Byte) : (a >>> 1).toNat = a.toNat / 2 := by
  rw [BitVec.toNat_ushiftRight, Nat.shiftRight_eq_div_pow]

theorem byte_shiftLeft_one_toNat (a : Byte) : (a <<< 1).toNat = a.toNat * 2 % 256 := by
  rw [BitVec.toNat_shiftLeft, Nat.shiftLeft_eq]

/-! ### The difference after the flag write (R139, R141) -/

/-- `V[p] - V[q]` as the flag write of `v` left the two registers (R11, R131). -/
def State.diffAfterFlag (s : State) (v : Byte) (p q : Reg) : Byte := (s.setV VF v).getV p - (s.setV VF v).getV q

theorem executeSub_eq (x y : Reg) (s : State) :
    executeSub x y s = .ok (.advanced ((s.setV VF (notBorrowFlag (s.getV x) (s.getV y))).setV x
      (s.diffAfterFlag (notBorrowFlag (s.getV x) (s.getV y)) x y))) := rfl

theorem executeSubn_eq (x y : Reg) (s : State) :
    executeSubn x y s = .ok (.advanced ((s.setV VF (notBorrowFlag (s.getV y) (s.getV x))).setV x
      (s.diffAfterFlag (notBorrowFlag (s.getV y) (s.getV x)) y x))) := rfl

theorem diffAfterFlag_self (s : State) (v : Byte) (p : Reg) : (s.diffAfterFlag v p p).toNat = 0 := by
  rw [State.diffAfterFlag, BitVec.sub_self, BitVec.toNat_ofNat]

/-- With `VF` no operand, the difference is that of the old values. -/
theorem diffAfterFlag_of_ne (v : Byte) (hp : p ≠ VF) (hq : q ≠ VF) :
    (s.diffAfterFlag v p q).toNat = ((s.getV p).toNat + (256 - (s.getV q).toNat)) % 256 := by
  rw [State.diffAfterFlag, State.setV_getV_ne s v hp, State.setV_getV_ne s v hq, BitVec.toNat_sub']

/-- With `VF` the minuend, the flag takes its place. -/
theorem diffAfterFlag_VF_left (v : Byte) (hq : q ≠ VF) :
    (s.diffAfterFlag v VF q).toNat = (v.toNat + (256 - (s.getV q).toNat)) % 256 := by
  rw [State.diffAfterFlag, State.setV_getV_self, State.setV_getV_ne s v hq, BitVec.toNat_sub']

/-- With `VF` the subtrahend, the flag takes its place. -/
theorem diffAfterFlag_VF_right (v : Byte) (hp : p ≠ VF) :
    (s.diffAfterFlag v p VF).toNat = ((s.getV p).toNat + (256 - v.toNat)) % 256 := by
  rw [State.diffAfterFlag, State.setV_getV_self, State.setV_getV_ne s v hp, BitVec.toNat_sub']

/-! ### Loads, the immediate sum, and the bitwise instructions (R132 to R137) -/

/-- Settles O18: each load is one register write. -/
theorem registerLoads : Obligations.RegisterLoads :=
  ⟨fun x nn => ⟨decode_encode (.ldImm x nn), fun _ => exec_of_setV rfl⟩,
    fun x y => ⟨decode_encode (.ldReg x y), fun _ => exec_of_setV rfl⟩⟩

/-- Settles O19: one register write, of a byte sum. -/
theorem addImmediateWrapsWithNoFlag : Obligations.AddImmediateWrapsWithNoFlag := by
  refine fun x nn => ⟨decode_encode (.addImm x nn), fun s => ?_⟩
  obtain ⟨t, ht, hx, hadv⟩ := exec_of_setV (i := .addImm x nn) (s := s) rfl
  exact ⟨t, ht, by rw [hx, BitVec.toNat_add], hadv⟩

/-- Settles O20: each is one register write, of a byte whose bits are the operation's. -/
theorem bitwiseInstructions : Obligations.BitwiseInstructions := by
  refine fun x y => ⟨decode_encode (.or x y), decode_encode (.and x y), decode_encode (.xor x y), fun s => ⟨?_, ?_, ?_⟩⟩
  · obtain ⟨t, ht, hx, hadv⟩ := exec_of_setV (i := .or x y) (s := s) rfl
    exact ⟨t, ht, hadv, fun k => by rw [hx, BitVec.getLsbD_or]⟩
  · obtain ⟨t, ht, hx, hadv⟩ := exec_of_setV (i := .and x y) (s := s) rfl
    exact ⟨t, ht, hadv, fun k => by rw [hx, BitVec.getLsbD_and]⟩
  · obtain ⟨t, ht, hx, hadv⟩ := exec_of_setV (i := .xor x y) (s := s) rfl
    exact ⟨t, ht, hadv, fun k => by rw [hx, BitVec.getLsbD_xor]⟩

/-! ### The instructions that write a flag (R138 to R142) -/

/-- Settles O21: the sum is taken before the flag write, so it is of the old values whatever x and y are. -/
theorem addSetsCarry : Obligations.AddSetsCarry := by
  refine fun x y => ⟨decode_encode (.addReg x y), fun s => ?_⟩
  obtain ⟨t, ht, hx, hVF, hadv⟩ := exec_of_setVF_setV (i := .addReg x y) (s := s) rfl
  exact ⟨t, ht, by rw [hx, BitVec.toNat_add], fun hne => by rw [hVF hne, carryFlag_toNat], hadv⟩

/-- Settles O22: the result is the difference `V[x] - V[y]` after the flag write. -/
theorem subSetsNotBorrowFirst : Obligations.SubSetsNotBorrowFirst := by
  refine fun x y => ⟨decode_encode (.sub x y), fun s => ?_⟩
  obtain ⟨t, ht, hx, hVF, hadv⟩ := exec_of_setVF_setV (i := .sub x y) (executeSub_eq x y s)
  refine ⟨t, ht, hadv, ?_⟩
  rintro a b f rfl rfl rfl
  rw [hx, ← notBorrowFlag_toNat]
  refine ⟨fun hne => by rw [hVF hne], ?_, fun _ => diffAfterFlag_of_ne _, ?_, ?_⟩
  · rintro rfl
    exact diffAfterFlag_self _ _ _
  · rintro hne rfl
    exact diffAfterFlag_VF_left _ hne.symm
  · rintro hne rfl
    exact diffAfterFlag_VF_right _ hne

/-- Settles O23: the result is the difference `V[y] - V[x]` after the flag write, so x is the subtrahend. -/
theorem subnSetsNotBorrowFirst : Obligations.SubnSetsNotBorrowFirst := by
  refine fun x y => ⟨decode_encode (.subn x y), fun s => ?_⟩
  obtain ⟨t, ht, hx, hVF, hadv⟩ := exec_of_setVF_setV (i := .subn x y) (executeSubn_eq x y s)
  refine ⟨t, ht, hadv, ?_⟩
  rintro a b f rfl rfl rfl
  rw [hx, ← notBorrowFlag_toNat]
  refine ⟨fun hne => by rw [hVF hne], ?_, fun _ hxVF hyVF => diffAfterFlag_of_ne _ hyVF hxVF, ?_, ?_⟩
  · rintro rfl
    exact diffAfterFlag_self _ _ _
  · rintro hne rfl
    exact diffAfterFlag_VF_right _ hne.symm
  · rintro hne rfl
    exact diffAfterFlag_VF_left _ hne

/-- Settles O24: the shift reads `V[x]` after the flag write, which for x = `VF` is one bit, and halves to 0. -/
theorem shrShiftsInPlace : Obligations.ShrShiftsInPlace := by
  refine fun x y => ⟨decode_encode (.shr x y), fun s => ?_⟩
  obtain ⟨t, ht, hx, hVF, hadv⟩ := exec_of_setVF_setV (i := .shr x y) (s := s) rfl
  refine ⟨t, ht, fun hne => ⟨?_, ?_⟩, ?_, hadv⟩
  · rw [hx, State.setV_getV_ne s _ hne, byte_shiftRight_one_toNat]
  · rw [hVF hne, shiftOutLow_toNat]
  · rintro rfl
    rw [hx, State.setV_getV_self, byte_shiftRight_one_toNat, shiftOutLow_toNat]
    omega

/-- Settles O25: the shift reads `V[x]` after the flag write, which for x = `VF` is one bit, and doubles to 0 or 2. -/
theorem shlShiftsInPlace : Obligations.ShlShiftsInPlace := by
  refine fun x y => ⟨decode_encode (.shl x y), fun s => ?_⟩
  obtain ⟨t, ht, hx, hVF, hadv⟩ := exec_of_setVF_setV (i := .shl x y) (s := s) rfl
  refine ⟨t, ht, fun hne => ⟨?_, ?_⟩, ?_, hadv⟩
  · rw [hx, State.setV_getV_ne s _ hne, byte_shiftLeft_one_toNat]
  · rw [hVF hne, shiftOutHigh_toNat]
  · rintro rfl
    rw [hx, State.setV_getV_self, byte_shiftLeft_one_toNat, shiftOutHigh_toNat]
    have := (s.getV VF).isLt
    omega

/-! ### The random byte (R100, R143) -/

theorem frame_withRnd (s : State) (b : Byte) : Frame (fun f => f = .rnd) s (s.withRnd b) := by
  intro f hf
  cases f with
  | rnd => exact absurd rfl hf
  | _ => rfl

/-- Settles O26: presenting the byte writes `rnd`, and the execute stage then writes its row, which leaves the epilogue's fields
alone. -/
theorem rndMasksTheRandomByte : Obligations.RndMasksTheRandomByte := by
  refine fun x nn => ⟨decode_encode (.rnd x nn), fun s b => ?_⟩
  have hstage : executeStage (.rnd x nn) (s.withRnd b) = .ok (.advanced ((s.withRnd b).setV x (b &&& nn)).drawRnd) := rfl
  have hframe : Frame ((Instr.rnd x nn).writes s) s ((s.withRnd b).setV x (b &&& nn)).drawRnd :=
    ((frame_withRnd s b).mono fun _ hf => .inr (.inl hf)).trans (executeStage_frame hstage)
  refine ⟨_, exec_of_executeStage_ok hstage, fun k => ?_, advanced_epilogue hframe ?_⟩
  · rw [ExecOutcome.endState, epilogue_getV, State.drawRnd_getV, State.setV_getV_self, BitVec.getLsbD_and]
  · rintro _ (rfl | rfl | rfl) <;> simp [epilogueField]

end Sys2Proof.Machine
end

section
/-! PROOFS. The index register and memory transfers (R150 to R156): the step of an instruction whose execute stage leaves the
epilogue's fields alone, the value of `I` and of the digits, and each transfer by the addresses it touches: the fault of the first one
that fails, or the whole transfer. -/

namespace Sys2Proof.Machine

variable {i : Instr} {s t u : State} {x : Reg} {k : Nat}

/-! ### An Advanced step by its row (R23, R97) -/

theorem not_epilogueField_I : ¬ epilogueField .I := by simp [epilogueField]

theorem not_epilogueField_mem (a : Nat) : ¬ epilogueField (.mem a) := by simp [epilogueField]

/-- When the row names no field of the epilogue, the step changes the row's fields and runs the epilogue. -/
theorem advanced_of_executeStage (h : executeStage i s = .ok (.advanced u)) (hrow : ∀ f, i.writes s f → ¬ epilogueField f) :
    Advanced s u.epilogue (i.writes s) := advanced_epilogue (executeStage_frame h) hrow

/-- An instruction that is one write of `I`: its value, and everything else by the epilogue. -/
theorem exec_of_setI {v : Word} (h : executeStage i s = .ok (.advanced (s.setI v))) :
    ∃ t, exec i s = .next t ∧ t.I = v ∧ Advanced s t (fun f => f = .I) := by
  refine ⟨(s.setI v).epilogue, exec_of_executeStage_ok h, epilogue_I _, advanced_epilogue (frame_setI s v) ?_⟩
  rintro _ rfl
  exact not_epilogueField_I

/-! ### Values (R150 to R155) -/

/-- The glyph address does not wrap. -/
theorem glyphAddr_toNat (v : Byte) : (glyphAddr v).toNat = v.toNat * 5 := by
  have := v.isLt
  simp only [glyphAddr, byteWord, Config.glyphSize, BitVec.toNat_mul, BitVec.toNat_setWidth, BitVec.toNat_ofNat]
  omega

theorem add_byteWord_toNat (w : Word) (v : Byte) : (w + byteWord v).toNat = (w.toNat + v.toNat) % 65536 := by
  rw [BitVec.toNat_add, byteWord, BitVec.toNat_setWidth_of_le (by decide)]

theorem indexOverflowFlag_toNat (w : Word) (v : Byte) :
    (indexOverflowFlag w v).toNat = if w.toNat + v.toNat > 0xFFF then 1 else 0 := bitByte_decide_toNat _

theorem hundreds_toNat (v : Byte) : (hundreds v).toNat = v.toNat / 100 := by
  have := v.isLt
  rw [hundreds, BitVec.toNat_ofNat]
  omega

theorem tens_toNat (v : Byte) : (tens v).toNat = v.toNat / 10 % 10 := by
  rw [tens, BitVec.toNat_ofNat]
  omega

theorem ones_toNat (v : Byte) : (ones v).toNat = v.toNat % 10 := by
  rw [ones, BitVec.toNat_ofNat]
  omega

@[simp] theorem State.bumpI_mem (s : State) (k : Nat) : (s.bumpI k).mem = s.mem := rfl

@[simp] theorem State.bumpI_getV (s : State) (k : Nat) (r : Reg) : (s.bumpI k).getV r = s.getV r := rfl

/-- After a transfer that stayed in memory, the post-increment of `I` does not wrap. -/
theorem bumpI_I_toNat (hI : u.I = s.I) (hk : s.I.toNat + k ≤ 0x1000) : (u.bumpI k).I.toNat = s.I.toNat + k := by
  rw [State.bumpI, State.setI_I, BitVec.toNat_add, BitVec.toNat_ofNat, hI]
  omega

/-! ### A transfer loop that succeeds stays in memory (R154, R155) -/

/-- A transfer loop that succeeds had its last address in memory. -/
theorem I_add_le_of_forUp_ok {f : Nat → State → Except Raise State}
    (hf : ∀ {j u v}, f j u = .ok v → v.I = u.I ∧ effectiveAddr u j ≤ 0xFFF) (h : forUp f (k + 1) 0 s = .ok t) :
    s.I.toNat + k ≤ 0xFFF := by
  have hend := forUp_ok_induct (P := fun j u => u.I = s.I ∧ ∀ m < j, s.I.toNat + m ≤ 0xFFF) h ⟨rfl, fun _ hm => by omega⟩
    fun j u v _ _ ⟨hI, hle⟩ hv => by
      obtain ⟨hvI, hj⟩ := hf hv
      rw [effectiveAddr, hI] at hj
      refine ⟨hvI.trans hI, fun m hm => ?_⟩
      rcases Nat.lt_succ_iff_lt_or_eq.1 hm with hlt | rfl
      · exact hle m hlt
      · exact hj
  exact hend.2 k (by omega)

theorem storeReg_ok_le {j : Nat} (h : storeReg j u = .ok t) : t.I = u.I ∧ effectiveAddr u j ≤ 0xFFF := by
  obtain ⟨-, hle, rfl⟩ := memWrite_eq_ok.1 h
  exact ⟨rfl, hle⟩

theorem loadReg_ok_le {j : Nat} (h : loadReg j u = .ok t) : t.I = u.I ∧ effectiveAddr u j ≤ 0xFFF := by
  obtain ⟨hle, rfl⟩ := loadReg_eq_ok.1 h
  exact ⟨rfl, hle⟩

/-! ### Fx33 by its addresses (R153) -/

/-- The state after the three writes of Fx33. -/
def State.storeDigits (s : State) (v : Byte) : State :=
  ((s.setByte s.I.toNat (hundreds v)).setByte (s.I.toNat + 1) (tens v)).setByte (s.I.toNat + 2) (ones v)

theorem executeLdBV_of_lt (hI : s.I.toNat < 0x200) : executeLdBV x s = .error ⟨.reservedWrite, s.I.toNat⟩ := by
  rcases executeLdBV_cases x s with ⟨h, -, -⟩ | ⟨-, hx⟩ | ⟨h, -⟩
  · omega
  · exact hx
  · omega

theorem executeLdBV_of_gt (hI : 0xFFF < s.I.toNat + 2) :
    executeLdBV x s = .error ⟨.memoryOutOfRange, max s.I.toNat 0x1000⟩ := by
  rcases executeLdBV_cases x s with ⟨-, h, -⟩ | ⟨h, -⟩ | ⟨-, hx⟩
  · omega
  · omega
  · exact hx

theorem executeLdBV_of_mem (h1 : 0x200 ≤ s.I.toNat) (h2 : s.I.toNat + 2 ≤ 0xFFF) :
    executeLdBV x s = .ok (.advanced (s.storeDigits (s.getV x))) := by
  rcases executeLdBV_cases x s with ⟨-, -, hx⟩ | ⟨h, -⟩ | ⟨h, -⟩
  · exact hx
  · omega
  · omega

theorem storeDigits_read (s : State) (v : Byte) :
    (s.storeDigits v).mem.read (effectiveAddr s 0) = hundreds v ∧
      (s.storeDigits v).mem.read (effectiveAddr s 1) = tens v ∧
      (s.storeDigits v).mem.read (effectiveAddr s 2) = ones v := by
  simp [State.storeDigits, effectiveAddr, Memory.read_write]

/-! ### Fx55 by its addresses (R154) -/

theorem executeLdMemV_of_lt (hI : s.I.toNat < 0x200) : executeLdMemV x s = .error ⟨.reservedWrite, s.I.toNat⟩ := by
  refine executeLdMemV_error.2 (forUp_succ_error ?_)
  exact memWrite_of_lt _ hI

theorem executeLdMemV_of_gt (hI : 0xFFF < s.I.toNat + x.val) :
    executeLdMemV x s = .error ⟨.memoryOutOfRange, max s.I.toNat 0x1000⟩ := by
  cases hloop : forUp storeReg (x.val + 1) 0 s with
  | ok u => exact absurd (I_add_le_of_forUp_ok storeReg_ok_le hloop) (Nat.not_le.2 hI)
  | error e =>
    rcases forUp_storeReg_error x.isLt hloop with ⟨hlow, -, -⟩ | ⟨-, -, rfl⟩
    · omega
    · exact executeLdMemV_error.2 hloop

theorem executeLdMemV_of_mem (h1 : 0x200 ≤ s.I.toNat) (h2 : s.I.toNat + x.val ≤ 0xFFF) :
    ∃ u, executeLdMemV x s = .ok (.advanced (u.bumpI (x.val + 1))) ∧ Stored s (x.val + 1) u := by
  obtain ⟨u, hu, hstored⟩ := forUp_storeReg_of_mem (k := x.val + 1) x.isLt h1 (by omega)
  exact ⟨u, by rw [executeLdMemV, hu]; rfl, hstored⟩

/-! ### Fx65 by its addresses (R155) -/

theorem executeLdVMem_of_gt (hI : 0xFFF < s.I.toNat + x.val) :
    executeLdVMem x s = .error ⟨.memoryOutOfRange, max s.I.toNat 0x1000⟩ := by
  cases hloop : forUp loadReg (x.val + 1) 0 s with
  | ok u => exact absurd (I_add_le_of_forUp_ok loadReg_ok_le hloop) (Nat.not_le.2 hI)
  | error e =>
    obtain ⟨-, rfl⟩ := forUp_loadReg_error x.isLt hloop
    exact executeLdVMem_error.2 hloop

theorem executeLdVMem_of_mem (hI : s.I.toNat + x.val ≤ 0xFFF) :
    ∃ u, executeLdVMem x s = .ok (.advanced (u.bumpI (x.val + 1))) ∧ Loaded s (x.val + 1) u := by
  obtain ⟨u, hu, hloaded⟩ := forUp_loadReg_of_mem (s := s) (k := x.val + 1) x.isLt (by omega)
  exact ⟨u, by rw [executeLdVMem, hu]; rfl, hloaded⟩

/-! ### The instructions -/

/-- Settles O28: each load is one write of `I`. -/
theorem indexLoads : Obligations.IndexLoads := by
  refine ⟨fun nnn => ⟨decode_encode (.ldI nnn), fun s => ?_⟩, fun x => ⟨decode_encode (.ldFV x), fun s => ?_⟩⟩
  · obtain ⟨t, ht, hI, hadv⟩ := exec_of_setI (i := .ldI nnn) (s := s) rfl
    exact ⟨t, ht, by rw [hI, addrWord_toNat], hadv⟩
  · obtain ⟨t, ht, hI, hadv⟩ := exec_of_setI (i := .ldFV x) (s := s) rfl
    exact ⟨t, ht, by rw [hI, glyphAddr_toNat], hadv⟩

/-- Settles O29: `I` advances by `V[x]` after the flag write, which for x = `VF` is the flag itself. -/
theorem addIndexFlagsPast0xFFF : Obligations.AddIndexFlagsPast0xFFF := by
  refine fun x => ⟨decode_encode (.addIV x), fun s => ?_⟩
  have hstage : executeStage (.addIV x) s = .ok (.advanced ((s.setV VF (indexOverflowFlag s.I (s.getV x))).setI
    (s.I + byteWord ((s.setV VF (indexOverflowFlag s.I (s.getV x))).getV x)))) := rfl
  refine ⟨_, exec_of_executeStage_ok hstage, advanced_of_executeStage hstage ?_, ?_⟩
  · rintro _ (rfl | rfl)
    · exact not_epilogueField_V VF
    · exact not_epilogueField_I
  · rintro _ rfl
    rw [← indexOverflowFlag_toNat, ExecOutcome.endState, epilogue_getV, epilogue_I, State.setI_getV, State.setI_I,
      add_byteWord_toNat]
    refine ⟨by rw [State.setV_getV_self], fun hne => by rw [State.setV_getV_ne s _ hne], ?_⟩
    rintro rfl
    rw [State.setV_getV_self]

/-- Settles O30: the first write that fails faults; with none the three digits are in place. -/
theorem bcdStoresThreeDigits : Obligations.BcdStoresThreeDigits := by
  refine fun x => ⟨decode_encode (.ldBV x), fun s => ⟨fun hI => ?_, fun hI => ?_, fun h1 h2 => ?_⟩⟩
  · exact exec_of_executeStage_error (i := .ldBV x) (executeLdBV_of_lt hI)
  · exact exec_of_executeStage_error (i := .ldBV x) (executeLdBV_of_gt hI)
  · have hstage : executeStage (.ldBV x) s = .ok (.advanced (s.storeDigits (s.getV x))) := executeLdBV_of_mem h1 h2
    obtain ⟨h100, h10, hone⟩ := storeDigits_read s (s.getV x)
    refine ⟨_, exec_of_executeStage_ok hstage, ?_, ?_, ?_, advanced_of_executeStage hstage ?_⟩
    · rw [endState_mem, ExecOutcome.state, h100, hundreds_toNat]
    · rw [endState_mem, ExecOutcome.state, h10, tens_toNat]
    · rw [endState_mem, ExecOutcome.state, hone, ones_toNat]
    · rintro _ ⟨k, -, rfl⟩
      exact not_epilogueField_mem _

/-- Settles O31: the first store that fails faults; with none the loop stored the list, and `I` is bumped past it. -/
theorem storeRegistersAscending : Obligations.StoreRegistersAscending := by
  refine fun x => ⟨decode_encode (.ldMemV x), fun s => ⟨fun hI => ?_, fun hI => ?_, fun h1 h2 => ?_⟩⟩
  · exact exec_of_executeStage_error (i := .ldMemV x) (executeLdMemV_of_lt hI)
  · exact exec_of_executeStage_error (i := .ldMemV x) (executeLdMemV_of_gt hI)
  · obtain ⟨u, hu, hstored⟩ := executeLdMemV_of_mem h1 h2
    have hstage : executeStage (.ldMemV x) s = .ok (.advanced (u.bumpI (x.val + 1))) := hu
    refine ⟨_, exec_of_executeStage_ok hstage, fun r hr => ?_, ?_, advanced_of_executeStage hstage ?_⟩
    · rw [endState_mem, ExecOutcome.state, State.bumpI_mem]
      exact hstored.stored r (Nat.lt_succ_of_le hr)
    · rw [ExecOutcome.endState, epilogue_I, bumpI_I_toNat hstored.I (by omega), Nat.add_assoc]
    · rintro _ (rfl | ⟨k, -, rfl⟩)
      · exact not_epilogueField_I
      · exact not_epilogueField_mem _

/-- Settles O32: the first load that fails faults; with none the loop loaded the list, and `I` is bumped past it. -/
theorem loadRegistersAscending : Obligations.LoadRegistersAscending := by
  refine fun x => ⟨decode_encode (.ldVMem x), fun s => ⟨fun hI => ?_, fun hI => ?_⟩⟩
  · exact exec_of_executeStage_error (i := .ldVMem x) (executeLdVMem_of_gt hI)
  · obtain ⟨u, hu, hloaded⟩ := executeLdVMem_of_mem hI
    have hstage : executeStage (.ldVMem x) s = .ok (.advanced (u.bumpI (x.val + 1))) := hu
    refine ⟨_, exec_of_executeStage_ok hstage, fun r hr => ?_, ?_, advanced_of_executeStage hstage ?_⟩
    · rw [ExecOutcome.endState, epilogue_getV, State.bumpI_getV]
      exact hloaded.loaded r (Nat.lt_succ_of_le hr)
    · rw [ExecOutcome.endState, epilogue_I, bumpI_I_toNat hloaded.I (by omega), Nat.add_assoc]
    · rintro _ (rfl | ⟨r, -, rfl⟩)
      · exact not_epilogueField_I
      · exact not_epilogueField_V r

end Sys2Proof.Machine
end

section
/-! PROOFS. The display (R160 to R165): drawing a list of set bits as a computation of the execute stage, a row's columns and the rows
that can be read as such lists, and CLS. -/

namespace Sys2Proof.Machine

variable {s t u : State} {x y : Reg} {n : Nibble} {e : Raise}

/-! ### Loops, cut in two -/

theorem forUp_add (f : Nat → State → Except Raise State) (k m i : Nat) (s : State) :
    forUp f (k + m) i s = (forUp f k i s).bind (forUp f m (i + k)) := by
  induction k generalizing i s with
  | zero => rw [Nat.zero_add]; rfl
  | succ k ih =>
    rw [Nat.succ_add]
    cases hf : f i s with
    | error e => rw [forUp_succ_error hf, forUp_succ_error hf]; rfl
    | ok v => rw [forUp_succ_ok hf, forUp_succ_ok hf, ih, Nat.succ_add_eq_add_succ]

/-- The last iteration of a loop comes after the others. -/
theorem forUp_succ_last (f : Nat → State → Except Raise State) (k : Nat) (s : State) :
    forUp f (k + 1) 0 s = (forUp f k 0 s).bind (f k) := by
  rw [forUp_add, Nat.zero_add]
  congr 1
  funext u
  cases hf : f k u with
  | error e => exact forUp_succ_error hf
  | ok v => exact forUp_succ_ok hf

/-! ### Drawing a list of set bits (R161, R164, R165) -/

/-- `drawPixels` with the cell past 2047 raised as the fault it is (R164). -/
def drawing (x y : Reg) (ps : List (Nat × Nat)) (s : State) : Except Raise State :=
  (drawPixels x y ps s).mapError (⟨.displayOutOfRange, ·⟩)

@[simp] theorem drawing_nil (x y : Reg) (s : State) : drawing x y [] s = .ok s := rfl

theorem drawing_cons_of_le {p : Nat × Nat} {ps : List (Nat × Nat)} (h : s.pixelCell x y p.1 p.2 ≤ 2047) :
    drawing x y (p :: ps) s = drawing x y ps (pixelState s (s.pixelCell x y p.1 p.2)) := by
  simp only [drawing, drawPixels, if_neg (Nat.not_lt.2 h)]
  rfl

theorem drawing_cons_of_gt {p : Nat × Nat} {ps : List (Nat × Nat)} (h : 2047 < s.pixelCell x y p.1 p.2) :
    drawing x y (p :: ps) s = .error ⟨.displayOutOfRange, s.pixelCell x y p.1 p.2⟩ := by
  simp only [drawing, drawPixels, if_pos h]
  rfl

theorem drawing_append (x y : Reg) (ps qs : List (Nat × Nat)) (s : State) :
    drawing x y (ps ++ qs) s = (drawing x y ps s).bind (drawing x y qs) := by
  induction ps generalizing s with
  | nil => rfl
  | cons p ps ih =>
    rw [List.cons_append]
    rcases Nat.lt_or_ge 2047 (s.pixelCell x y p.1 p.2) with h | h
    · rw [drawing_cons_of_gt h, drawing_cons_of_gt h]
      rfl
    · rw [drawing_cons_of_le h, drawing_cons_of_le h, ih]

theorem cellIndex_getV (s : State) (x y : Reg) (Y X : Nat) :
    cellIndex (s.getV x) (s.getV y) Y X = s.pixelCell x y Y X := rfl

theorem drawPixel_eq_drawing (x y : Reg) (Y X : Nat) (s : State) : drawPixel x y Y X s = drawing x y [(Y, X)] s := by
  rw [drawPixel_eq, cellIndex_getV]
  split
  · next h => rw [drawing_cons_of_gt (p := (Y, X)) h]
  · next h => rw [drawing_cons_of_le (p := (Y, X)) (Nat.not_lt.1 h), drawing_nil]

/-! ### A row, and the rows that can be read, as lists of set bits (R161, R186) -/

/-- The set bits of the first `k` columns of row Y, whose byte is `row`, columns ascending (R161). -/
def rowPixels (row : Byte) (Y k : Nat) : List (Nat × Nat) :=
  ((List.range k).filter fun X => row.getMsbD X).map fun X => (Y, X)

theorem rowPixels_succ (row : Byte) (Y k : Nat) :
    rowPixels row Y (k + 1) = rowPixels row Y k ++ if row.getMsbD k then [(Y, k)] else [] := by
  cases hbit : row.getMsbD k with
  | true => simp [rowPixels, List.range_succ, hbit]
  | false => simp [rowPixels, List.range_succ, hbit]

theorem rasterPixels_succ (s : State) (k : Nat) :
    s.rasterPixels (k + 1) = s.rasterPixels k ++ rowPixels (s.spriteRow k) k 8 := by
  simp only [State.rasterPixels, List.range_succ, List.flatMap_append, List.flatMap_singleton]
  rfl

theorem spriteBit_eq_getMsbD (row : Byte) {X : Nat} (hX : X < 8) : spriteBit row X = row.getMsbD X := by
  rw [spriteBit, BitVec.getMsbD, decide_eq_true hX, Bool.true_and]

theorem drawColumn_eq_drawing (Y : Nat) (row : Byte) {X : Nat} (hX : X < 8) (s : State) :
    drawColumn x y Y row X s = drawing x y (if row.getMsbD X then [(Y, X)] else []) s := by
  rw [drawColumn, spriteBit_eq_getMsbD row hX, drawPixel_eq_drawing]
  split <;> rfl

theorem drawColumns_eq_drawing (Y : Nat) (row : Byte) {k : Nat} (hk : k ≤ 8) (s : State) :
    forUp (drawColumn x y Y row) k 0 s = drawing x y (rowPixels row Y k) s := by
  induction k with
  | zero => rfl
  | succ k ih =>
    rw [forUp_succ_last, ih (by omega), rowPixels_succ, drawing_append]
    congr 1
    funext u
    exact drawColumn_eq_drawing Y row hk u

/-- The rows that can be read are drawn as one list of set bits. -/
theorem drawRows_eq_drawing {k : Nat} (hread : ∀ Y, Y < k → s.I.toNat + Y ≤ 0xFFF) :
    forUp (drawRow x y) k 0 s = drawing x y (s.rasterPixels k) s := by
  induction k with
  | zero => rfl
  | succ k ih =>
    rw [forUp_succ_last, rasterPixels_succ, drawing_append, ← ih fun Y hY => hread Y (by omega)]
    cases hloop : forUp (drawRow x y) k 0 s with
    | error e => rfl
    | ok u =>
      obtain ⟨hdrawn, -⟩ := drawRows_ok hloop
      have haddr : effectiveAddr u k = s.I.toNat + k := by rw [effectiveAddr, hdrawn.I]
      change drawRow x y k u = drawing x y (rowPixels (s.spriteRow k) k 8) u
      rw [drawRow_of_le (haddr ▸ hread k (by omega)), drawColumns_eq_drawing k _ le_rfl, haddr, hdrawn.mem]
      rfl

/-! ### The step of a draw, by its loop over the rows (R97, R161, R183) -/

theorem exec_drw_of_rows_error (h : forUp (drawRow x y) n.toNat 0 s = .error e) :
    exec (.drw x y n) s = .next (FaultedWith s e.kind e.info) :=
  exec_of_executeStage_error (i := .drw x y n) (executeDrw_error.2 h)

theorem exec_drw_of_rows_ok (h : forUp (drawRow x y) n.toNat 0 s = .ok u) :
    exec (.drw x y n) s = .next u.requestDraw.epilogue ∧
      Advanced s u.requestDraw.epilogue (fun f => f = .V VF ∨ f = .needDraw ∨ ∃ c, f = .disp c) := by
  have hstage : executeStage (.drw x y n) s = .ok (.advanced u.requestDraw) := by
    rw [executeStage, executeDrw, h]
    rfl
  refine ⟨exec_of_executeStage_ok hstage, advanced_of_executeStage hstage ?_⟩
  rintro _ (rfl | rfl | ⟨c, rfl⟩) <;> simp [epilogueField]

/-! ### The instructions -/

/-- Settles O37: the framebuffer is 0 and the execute stage leaves the epilogue's fields alone. -/
theorem clsClearsTheDisplay : Obligations.ClsClearsTheDisplay := by
  refine ⟨decode_encode .cls, fun s => ?_⟩
  have hstage : executeStage .cls s = .ok (.advanced s.clearDisp.requestDraw) := rfl
  refine ⟨_, exec_of_executeStage_ok hstage, fun c _ => ?_, ?_, advanced_of_executeStage hstage ?_⟩
  · rw [ExecOutcome.endState, epilogue_cell, State.requestDraw_cell, State.clearDisp_cell]
  · rw [endState_needDraw]
    rfl
  · rintro _ (rfl | ⟨c, rfl⟩) <;> simp [epilogueField]

/-- Settles O38: the rows that can be read are one list of set bits, and the row after them, when the sprite has one, is past
0xFFF. -/
theorem drwDrawsSetBitsInRasterOrder : Obligations.DrwDrawsSetBitsInRasterOrder := by
  refine fun x y n => ⟨decode_encode (.drw x y n), fun s rows hrows => ?_⟩
  have hloop : forUp (drawRow x y) rows 0 s = drawing x y (s.rasterPixels rows) s :=
    drawRows_eq_drawing fun Y hY => by omega
  have hsplit : forUp (drawRow x y) n.toNat 0 s =
      (drawing x y (s.rasterPixels rows) s).bind (forUp (drawRow x y) (n.toNat - rows) rows) := by
    have hadd := forUp_add (drawRow x y) rows (n.toNat - rows) 0 s
    rwa [Nat.add_sub_of_le (by omega), Nat.zero_add, hloop] at hadd
  refine ⟨fun c hc => ?_, fun u hu => ?_⟩
  · refine exec_drw_of_rows_error (e := ⟨.displayOutOfRange, c⟩) ?_
    rw [hsplit, drawing, hc]
    rfl
  · have hdraw : drawing x y (s.rasterPixels rows) s = .ok u := by rw [drawing, hu]; rfl
    refine ⟨fun hlt => ?_, ?_⟩
    · obtain ⟨hdrawn, -⟩ := drawRows_ok (hloop.trans hdraw)
      have haddr : effectiveAddr u rows = s.I.toNat + rows := by rw [effectiveAddr, hdrawn.I]
      refine exec_drw_of_rows_error (e := ⟨.memoryOutOfRange, s.I.toNat + rows⟩) ?_
      rw [hsplit, hdraw, ← haddr, ← Nat.succ_pred_eq_of_pos (Nat.sub_pos_of_lt hlt)]
      exact forUp_succ_error (drawRow_of_gt (by omega))
    · rintro rfl
      obtain ⟨hexec, hadv⟩ := exec_drw_of_rows_ok (hloop.trans hdraw)
      exact ⟨_, hexec, fun r => epilogue_getV _ r, fun c => epilogue_cell _ c, epilogue_needDraw _, hadv⟩

end Sys2Proof.Machine
end

section
/-! PROOFS. Sprites with no `VF` operand (R161 to R166): a draw flips a list of cells fixed at its start, the cells of the set bits in
strictly ascending order, so each is flipped once and the last one's old value is the flag. -/

namespace Sys2Proof.Machine

variable {s t u : State} {x y : Reg} {n : Nibble} {Y X c : Nat} {cs : List Nat} {ps : List (Nat × Nat)}

/-! ### Flipping a list of cells (R161, R162) -/

/-- Flip the cells of a list one after the other, each one's old value going to `VF`. -/
def flipCells (cs : List Nat) (s : State) : State := cs.foldl pixelState s

theorem drawn_flipCells (cs : List Nat) (s : State) : Drawn s (flipCells cs s) := by
  induction cs generalizing s with
  | nil => exact Drawn.refl s
  | cons c cs ih => exact (drawn_pixelState s c).trans (ih _)

theorem pixelState_cell (hc : c < 2048) (k : Nat) : (pixelState s c).cell k = (s.cell k ^^ decide (k = c)) :=
  State.toggleCell_cell _ c k hc

theorem collisionFlag_toNat (s : State) (c : Nat) : (collisionFlag s c).toNat = if s.cell c then 1 else 0 := by
  rw [← bitByte_decide_toNat, Bool.decide_eq_true, collisionFlag]

/-- Cells that differ are flipped once each. -/
theorem flipCells_cell (hnodup : cs.Nodup) (hlt : ∀ c ∈ cs, c < 2048) (k : Nat) :
    (flipCells cs s).cell k = (s.cell k ^^ decide (k ∈ cs)) := by
  induction cs generalizing s with
  | nil => simp [flipCells]
  | cons c cs ih =>
    obtain ⟨hc, hnodup⟩ := List.nodup_cons.1 hnodup
    have hstep : (flipCells (c :: cs) s).cell k = ((pixelState s c).cell k ^^ decide (k ∈ cs)) :=
      ih hnodup fun d hd => hlt d (List.mem_cons_of_mem c hd)
    rw [hstep, pixelState_cell (hlt c List.mem_cons_self)]
    by_cases hk : k = c
    · subst hk
      simp [hc]
    · simp [hk]

/-- The flag is the old value of the last cell. -/
theorem flipCells_concat_VF (hnodup : (cs ++ [c]).Nodup) (hlt : ∀ d ∈ cs, d < 2048) :
    (flipCells (cs ++ [c]) s).getV VF = collisionFlag s c := by
  obtain ⟨hcs, -, hne⟩ := List.nodup_append.1 hnodup
  have hc : c ∉ cs := fun hmem => hne c hmem c List.mem_cons_self rfl
  have hold : (flipCells cs s).cell c = s.cell c := by
    rw [flipCells_cell hcs hlt, decide_eq_false hc, Bool.xor_false]
  calc (flipCells (cs ++ [c]) s).getV VF = (pixelState (flipCells cs s) c).getV VF := by
        rw [flipCells, List.foldl_concat]; rfl
    _ = collisionFlag (flipCells cs s) c := State.setV_getV_self _ VF _
    _ = collisionFlag s c := by rw [collisionFlag, hold]; rfl

/-! ### Drawing with no `VF` operand is flipping the cells fixed at its start (R161, R163, R164) -/

section
variable (hx : x ≠ VF) (hy : y ≠ VF)
include hx hy

theorem Drawn.pixelCell (h : Drawn s u) (Y X : Nat) : u.pixelCell x y Y X = s.pixelCell x y Y X := by
  rw [State.pixelCell, State.pixelCell, h.getV x hx, h.getV y hy]

theorem drawing_eq_flipCells (hfit : ∀ p ∈ ps, s.pixelCell x y p.1 p.2 ≤ 2047) :
    drawing x y ps s = .ok (flipCells (ps.map fun p => s.pixelCell x y p.1 p.2) s) := by
  induction ps generalizing s with
  | nil => rfl
  | cons p ps ih =>
    have hcell (q : Nat × Nat) := (drawn_pixelState s (s.pixelCell x y p.1 p.2)).pixelCell hx hy q.1 q.2
    rw [drawing_cons_of_le (hfit p List.mem_cons_self),
      ih fun q hq => (hcell q).trans_le (hfit q (List.mem_cons_of_mem p hq))]
    simp only [hcell]
    rfl

theorem drawing_eq_error {p : Nat × Nat} {qs : List (Nat × Nat)} (hfit : ∀ q ∈ ps, s.pixelCell x y q.1 q.2 ≤ 2047)
    (hp : 2047 < s.pixelCell x y p.1 p.2) :
    drawing x y (ps ++ p :: qs) s = .error ⟨.displayOutOfRange, s.pixelCell x y p.1 p.2⟩ := by
  have hcell := (drawn_flipCells (ps.map fun q => s.pixelCell x y q.1 q.2) s).pixelCell hx hy p.1 p.2
  rw [drawing_append, drawing_eq_flipCells hx hy hfit]
  exact (drawing_cons_of_gt (hcell ▸ hp)).trans (by rw [hcell])

theorem pixelCell_le_of_drawing_ok (h : drawing x y ps s = .ok u) : ∀ p ∈ ps, s.pixelCell x y p.1 p.2 ≤ 2047 := by
  induction ps generalizing s with
  | nil => exact fun p hp => absurd hp List.not_mem_nil
  | cons p ps ih =>
    have hp : s.pixelCell x y p.1 p.2 ≤ 2047 := by
      by_contra hgt
      rw [drawing_cons_of_gt (Nat.lt_of_not_le hgt)] at h
      cases h
    rw [drawing_cons_of_le hp] at h
    refine List.forall_mem_cons.2 ⟨hp, fun q hq => ?_⟩
    rw [← (drawn_pixelState s (s.pixelCell x y p.1 p.2)).pixelCell hx hy]
    exact ih h q hq

end

/-! ### The set bits in raster order (R161) -/

/-- Raster order: rows ascending, then columns ascending. -/
def RasterBefore (p q : Nat × Nat) : Prop := p.1 < q.1 ∨ p.1 = q.1 ∧ p.2 < q.2

theorem mem_rowPixels {row : Byte} {k : Nat} {p : Nat × Nat} :
    p ∈ rowPixels row Y k ↔ p.1 = Y ∧ p.2 < k ∧ row.getMsbD p.2 = true := by
  simp only [rowPixels, List.mem_map, List.mem_filter, List.mem_range]
  constructor
  · rintro ⟨X, hX, rfl⟩
    exact ⟨rfl, hX⟩
  · rintro ⟨rfl, hX⟩
    exact ⟨p.2, hX, rfl⟩

theorem rasterPixels_eq_flatMap (s : State) (k : Nat) :
    s.rasterPixels k = (List.range k).flatMap fun Y => rowPixels (s.spriteRow Y) Y 8 := rfl

theorem mem_rasterPixels {p : Nat × Nat} : p ∈ s.rasterPixels n.toNat ↔ s.spriteSet n p.1 p.2 := by
  simp only [rasterPixels_eq_flatMap, List.mem_flatMap, List.mem_range, mem_rowPixels]
  constructor
  · rintro ⟨Y, hY, rfl, hX⟩
    exact ⟨hY, hX⟩
  · rintro ⟨hY, hX⟩
    exact ⟨p.1, hY, rfl, hX⟩

theorem pairwise_rowPixels (row : Byte) (Y k : Nat) : (rowPixels row Y k).Pairwise RasterBefore :=
  List.pairwise_map.2 ((List.pairwise_lt_range.filter _).imp fun hlt => .inr ⟨rfl, hlt⟩)

theorem pairwise_rasterPixels (s : State) (k : Nat) : (s.rasterPixels k).Pairwise RasterBefore := by
  rw [rasterPixels_eq_flatMap, List.pairwise_flatMap]
  refine ⟨fun Y _ => pairwise_rowPixels _ Y 8, List.pairwise_lt_range.imp fun hlt p hp q hq => .inl ?_⟩
  obtain ⟨hpY, -⟩ := mem_rowPixels.1 hp
  obtain ⟨hqY, -⟩ := mem_rowPixels.1 hq
  rwa [hpY, hqY]

/-- A set bit splits the list into the set bits before it and the set bits after it. -/
theorem rasterPixels_split (h : s.spriteSet n Y X) : ∃ ps qs, s.rasterPixels n.toNat = ps ++ (Y, X) :: qs ∧
    (∀ p ∈ ps, s.spriteSet n p.1 p.2 ∧ RasterBefore p (Y, X)) ∧
    (∀ q ∈ qs, s.spriteSet n q.1 q.2 ∧ RasterBefore (Y, X) q) := by
  obtain ⟨ps, qs, hsplit⟩ := List.append_of_mem (mem_rasterPixels (p := (Y, X)).2 h)
  have hset (p : Nat × Nat) (hp : p ∈ ps ++ (Y, X) :: qs) : s.spriteSet n p.1 p.2 := mem_rasterPixels.1 (hsplit ▸ hp)
  have hpair : (ps ++ (Y, X) :: qs).Pairwise RasterBefore := hsplit ▸ pairwise_rasterPixels s n.toNat
  obtain ⟨-, hpq, hbefore⟩ := List.pairwise_append.1 hpair
  obtain ⟨hafter, -⟩ := List.pairwise_cons.1 hpq
  exact ⟨ps, qs, hsplit, fun p hp => ⟨hset p (by simp [hp]), hbefore p hp _ List.mem_cons_self⟩,
    fun q hq => ⟨hset q (by simp [hq]), hafter q hq⟩⟩

/-- In raster order the cells ascend: a row is 64 cells and a column below 8. -/
theorem pixelCell_lt_of_rasterBefore {p q : Nat × Nat} (h : RasterBefore p q) (hp : p.2 < 8) :
    s.pixelCell x y p.1 p.2 < s.pixelCell x y q.1 q.2 := by
  simp only [State.pixelCell]
  rcases h with h | ⟨h, hX⟩ <;> omega

/-! ### The cells of a sprite (R161, R163) -/

/-- The cells of a sprite's set bits, in raster order. -/
def State.spriteCells (s : State) (x y : Reg) (n : Nibble) : List Nat :=
  (s.rasterPixels n.toNat).map fun p => s.pixelCell x y p.1 p.2

theorem mem_spriteCells : c ∈ s.spriteCells x y n ↔ s.spriteHits x y n c := by
  simp only [State.spriteCells, List.mem_map, mem_rasterPixels]
  constructor
  · rintro ⟨p, hp, rfl⟩
    exact ⟨p.1, p.2, hp, rfl⟩
  · rintro ⟨Y, X, hset, rfl⟩
    exact ⟨(Y, X), hset, rfl⟩

theorem nodup_spriteCells (s : State) (x y : Reg) (n : Nibble) : (s.spriteCells x y n).Nodup := by
  refine List.pairwise_map.2 ((pairwise_rasterPixels s n.toNat).imp_of_mem fun hp _ hpq => Nat.ne_of_lt ?_)
  obtain ⟨-, hX, -⟩ := mem_rasterPixels.1 hp
  exact pixelCell_lt_of_rasterBefore hpq hX

theorem spriteCells_of_lastSet (h : s.lastSet n Y X) : ∃ cs, s.spriteCells x y n = cs ++ [s.pixelCell x y Y X] := by
  obtain ⟨hset, hlast⟩ := h
  obtain ⟨ps, qs, hsplit, -, hafter⟩ := rasterPixels_split hset
  have hnil : qs = [] := List.eq_nil_iff_forall_not_mem.2 fun q hq => by
    obtain ⟨hq, hlt⟩ := hafter q hq
    have hle := hlast q.1 q.2 hq
    simp only [RasterBefore] at hlt
    omega
  subst hnil
  exact ⟨_, by rw [State.spriteCells, hsplit, List.map_append]; rfl⟩

theorem spriteCells_of_no_set (h : ∀ Y X, ¬ s.spriteSet n Y X) : s.spriteCells x y n = [] := by
  rw [State.spriteCells, List.eq_nil_iff_forall_not_mem.2 fun p hp => h p.1 p.2 (mem_rasterPixels.1 hp)]
  rfl

/-! ### The instruction with no `VF` operand -/

/-- A sprite that fits is drawn by flipping its cells. -/
theorem drawRows_of_spriteFits (hx : x ≠ VF) (hy : y ≠ VF) (hfit : s.spriteFits x y n) :
    forUp (drawRow x y) n.toNat 0 s = .ok (flipCells (s.spriteCells x y n) s) := by
  obtain ⟨hread, hcells⟩ := hfit
  rw [drawRows_eq_drawing hread]
  exact drawing_eq_flipCells hx hy fun p hp => hcells p.1 p.2 (mem_rasterPixels.1 hp)

/-- A sprite is drawn only when it fits. -/
theorem spriteFits_of_drawRows_ok (hx : x ≠ VF) (hy : y ≠ VF) (h : forUp (drawRow x y) n.toNat 0 s = .ok u) :
    s.spriteFits x y n := by
  obtain ⟨-, hread⟩ := drawRows_ok h
  rw [drawRows_eq_drawing hread] at h
  exact ⟨hread, fun Y X hset => pixelCell_le_of_drawing_ok hx hy h (Y, X) (mem_rasterPixels.2 hset)⟩

/-- Settles O39: the cells of a sprite that fits are flipped, once each, and the last one's old value is the flag. -/
theorem drwFlipsExactlyTheSprite : Obligations.DrwFlipsExactlyTheSprite := by
  intro x y n s hx hy hfit
  obtain ⟨hexec, hadv⟩ := exec_drw_of_rows_ok (drawRows_of_spriteFits hx hy hfit)
  have hlt : ∀ c ∈ s.spriteCells x y n, c < 2048 := by
    intro c hc
    obtain ⟨-, hcells⟩ := hfit
    obtain ⟨Y, X, hset, rfl⟩ := mem_spriteCells.1 hc
    exact Nat.lt_succ_of_le (hcells Y X hset)
  have hnodup := nodup_spriteCells s x y n
  refine ⟨_, hexec, fun c hc => ?_, fun c hc => ?_, fun Y X hlast => ?_, fun hnone => ?_, epilogue_needDraw _, hadv⟩
  · rw [epilogue_cell, State.requestDraw_cell, flipCells_cell hnodup hlt, decide_eq_true (mem_spriteCells.2 hc),
      Bool.xor_true]
  · rw [epilogue_cell, State.requestDraw_cell, flipCells_cell hnodup hlt,
      decide_eq_false fun hmem => hc (mem_spriteCells.1 hmem), Bool.xor_false]
  · obtain ⟨cs, hcs⟩ := spriteCells_of_lastSet (x := x) (y := y) hlast
    rw [hcs] at hnodup hlt
    rw [epilogue_getV, State.requestDraw_getV, hcs,
      flipCells_concat_VF hnodup fun d hd => hlt d (List.mem_append_left _ hd), collisionFlag_toNat]
  · rw [epilogue_getV, State.requestDraw_getV, spriteCells_of_no_set hnone]
    rfl

/-- Settles O40: the set bits before the first whose cell is past 2047 are drawn, and that one is the fault. -/
theorem drwPastTheDisplayFaults : Obligations.DrwPastTheDisplayFaults := by
  intro x y n s Y X hx hy hread hset hpast hfirst
  obtain ⟨ps, qs, hsplit, hbefore, -⟩ := rasterPixels_split hset
  have hfit : ∀ p ∈ ps, s.pixelCell x y p.1 p.2 ≤ 2047 := by
    intro p hp
    obtain ⟨hset, hlt⟩ := hbefore p hp
    exact hfirst p.1 p.2 hset hlt
  refine exec_drw_of_rows_error (e := ⟨.displayOutOfRange, s.pixelCell x y Y X⟩) ?_
  rw [drawRows_eq_drawing hread, hsplit]
  exact drawing_eq_error hx hy hfit hpast

/-! ### The same sprite at the same place (R166) -/

/-- A draw of x, y in `t` reads the sprite and the place it reads in `s`. -/
structure SameSprite (x y : Reg) (s t : State) : Prop where
  I : t.I = s.I
  spriteRow : ∀ Y, t.spriteRow Y = s.spriteRow Y
  pixelCell : ∀ Y X, t.pixelCell x y Y X = s.pixelCell x y Y X

theorem SameSprite.spriteSet_iff (h : SameSprite x y s t) (Y X : Nat) : t.spriteSet n Y X ↔ s.spriteSet n Y X := by
  simp only [State.spriteSet, h.spriteRow]

theorem SameSprite.lastSet_iff (h : SameSprite x y s t) : t.lastSet n Y X ↔ s.lastSet n Y X := by
  simp only [State.lastSet, h.spriteSet_iff]

theorem SameSprite.spriteHits_iff (h : SameSprite x y s t) : t.spriteHits x y n c ↔ s.spriteHits x y n c := by
  simp only [State.spriteHits, h.spriteSet_iff, h.pixelCell]

theorem SameSprite.spriteFits_iff (h : SameSprite x y s t) : t.spriteFits x y n ↔ s.spriteFits x y n := by
  simp only [State.spriteFits, h.spriteSet_iff, h.pixelCell, h.I]

/-- A draw with no `VF` operand leaves what it reads of the sprite and its place, wherever the block goes on. -/
theorem SameSprite.of_advanced_drw (hx : x ≠ VF) (hy : y ≠ VF)
    (h : Advanced s t (fun f => f = .V VF ∨ f = .needDraw ∨ ∃ c, f = .disp c)) (p : Word) :
    SameSprite x y s (t.setPc p) := by
  obtain ⟨-, -, -, -, hframe⟩ := h
  have hI : t.I = s.I := hframe .I (by simp [epilogueField])
  have hmem (a : Nat) : t.mem.read a = s.mem.read a := hframe (.mem a) (by simp [epilogueField])
  have hV (r : Reg) (hr : r ≠ VF) : t.getV r = s.getV r := hframe (.V r) (by simp [epilogueField, hr])
  refine ⟨hI, fun Y => ?_, fun Y X => ?_⟩
  · rw [State.spriteRow, State.spriteRow, State.setPc_I, State.setPc_mem, hI, hmem]
  · rw [State.pixelCell, State.pixelCell, State.setPc_getV, State.setPc_getV, hV x hx, hV y hy]

/-- An Advanced draw leaves the fault record. -/
theorem fault_of_advanced_drw (h : Advanced s t (fun f => f = .V VF ∨ f = .needDraw ∨ ∃ c, f = .disp c)) :
    t.fault = s.fault := by
  obtain ⟨-, -, -, -, hframe⟩ := h
  exact hframe .fault (by simp [epilogueField])

/-- A draw that does not fault is of a sprite that fits. -/
theorem spriteFits_of_exec_drw (hx : x ≠ VF) (hy : y ≠ VF) (h : exec (.drw x y n) s = .next t) (ht : t.fault = none) :
    s.spriteFits x y n := by
  rcases exec_cases h with ⟨o, ho, -⟩ | ⟨e, -, rfl⟩
  · obtain ⟨u, hu, -⟩ := executeDrw_ok ho
    exact spriteFits_of_drawRows_ok hx hy hu
  · cases ht

/-- Settles O41: the second draw is of the same sprite at the same place, so it flips the same cells back, and the last of them holds
the complement of its first value when its turn comes again. -/
theorem drawingTwiceRestoresTheDisplay : Obligations.DrawingTwiceRestoresTheDisplay := by
  intro x y n s t p hx hy _ hexec ht
  have hfit := spriteFits_of_exec_drw hx hy hexec ht
  obtain ⟨t', hexec', hhit, hmiss, -, hnone, -, hadv⟩ := drwFlipsExactlyTheSprite x y n s hx hy hfit
  obtain rfl : t = t' := Host.Outcome.next.inj (hexec.symm.trans hexec')
  have hsame := SameSprite.of_advanced_drw hx hy hadv p
  obtain ⟨u, hu, hhit', hmiss', hlast', hnone', -, hadv'⟩ :=
    drwFlipsExactlyTheSprite x y n (t.setPc p) hx hy (hsame.spriteFits_iff.2 hfit)
  refine ⟨u, hu, (fault_of_advanced_drw hadv').trans ht, BitVec.eq_of_getLsbD_eq fun c _ => ?_, fun Y X hlast => ?_,
    fun hempty => ?_⟩
  · change u.cell c = s.cell c
    by_cases hc : s.spriteHits x y n c
    · rw [hhit' c (hsame.spriteHits_iff.2 hc), State.setPc_cell, hhit c hc, Bool.not_not]
    · rw [hmiss' c fun h => hc (hsame.spriteHits_iff.1 h), State.setPc_cell, hmiss c hc]
  · have ⟨hset, _⟩ := hlast
    rw [hlast' Y X (hsame.lastSet_iff.2 hlast), hsame.pixelCell, State.setPc_cell, hhit _ ⟨Y, X, hset, rfl⟩]
    cases s.cell (s.pixelCell x y Y X) <;> rfl
  · rw [hnone' fun Y X h => hempty Y X ((hsame.spriteSet_iff Y X).1 h), State.setPc_getV, hnone hempty]

end Sys2Proof.Machine
end

section
/-! PROOFS. Keys and timers (R170 to R175): the key skips by the value of `V[x]`, the key wait by what the scan of the latches
answers, and the timer writes whose value the epilogue of the same step decrements. -/

namespace Sys2Proof.Machine

variable {s : State} {x : Reg} {k : Nat}

/-! ### The key skips by the value of `V[x]` (R170, R171) -/

theorem executeSkp_of_gt (h : 15 < (s.getV x).toNat) :
    executeSkp x s = .error ⟨.keyIndexOutOfRange, (s.getV x).toNat⟩ := (executeSkp_eq x s).trans (if_pos h)

theorem executeSknp_of_gt (h : 15 < (s.getV x).toNat) :
    executeSknp x s = .error ⟨.keyIndexOutOfRange, (s.getV x).toNat⟩ := (executeSknp_eq x s).trans (if_pos h)

theorem executeSkp_of_le (h : (s.getV x).toNat ≤ 15) : executeSkp x s = .ok (skipIf s (s.key (s.getV x).toNat)) :=
  (executeSkp_eq x s).trans (if_neg (Nat.not_lt.2 h))

theorem executeSknp_of_le (h : (s.getV x).toNat ≤ 15) : executeSknp x s = .ok (skipIf s (!s.key (s.getV x).toNat)) :=
  (executeSknp_eq x s).trans (if_neg (Nat.not_lt.2 h))

/-- Settles O17: above 15 both fault; up to 15 each is one skip, on the latch and on its complement. -/
theorem keySkips : Obligations.KeySkips := by
  refine fun x => ⟨decode_encode (.skp x), decode_encode (.sknp x), fun s => ⟨fun h => ?_, fun h => ?_⟩⟩
  · exact ⟨exec_of_executeStage_error (i := .skp x) (executeSkp_of_gt h),
      exec_of_executeStage_error (i := .sknp x) (executeSknp_of_gt h)⟩
  · refine ⟨_, _, exec_of_executeStage_ok (i := .skp x) (executeSkp_of_le h),
      exec_of_executeStage_ok (i := .sknp x) (executeSknp_of_le h), fun hkey => ?_, fun hkey => ?_⟩
    · rw [hkey]
      exact ⟨advancedTo_skipIf_true s, advancedTo_skipIf_false s⟩
    · rw [hkey]
      exact ⟨advancedTo_skipIf_false s, advancedTo_skipIf_true s⟩

/-! ### The key wait by the latches (R173) -/

/-- The scan finds a pressed key that has no pressed key below it. -/
theorem firstKey_eq_some_of_lowest (hkey : s.key k = true) (hlow : ∀ j, j < k → s.key j = false) : firstKey s = some k := by
  cases hscan : firstKey s with
  | none => simp [firstKey_eq_none.1 hscan k] at hkey
  | some j =>
    obtain ⟨-, hj, hjlow⟩ := firstKey_eq_some hscan
    rcases lt_trichotomy j k with hlt | rfl | hgt
    · simp [hlow j hlt] at hj
    · rfl
    · simp [hjlow k hgt] at hkey

theorem executeLdVK_of_none (h : firstKey s = none) : executeLdVK x s = .ok (.waiting s) := by rw [executeLdVK, h]

theorem executeLdVK_of_some (h : firstKey s = some k) :
    executeLdVK x s = .ok (.advanced (s.setV x (BitVec.ofNat 8 k))) := by rw [executeLdVK, h]

/-- Settles O42: with no key the scan answers none and the step ends Waiting; otherwise the step is one register write, of the
lowest key. -/
theorem keyWaitTakesTheLowestKey : Obligations.KeyWaitTakesTheLowestKey := by
  refine fun x => ⟨decode_encode (.ldVK x), fun s => ⟨fun hnone => ?_, fun k hk hkey hlow => ?_⟩⟩
  · have hall (k : Nat) : s.key k = false := (Nat.lt_or_ge k 16).elim (hnone k) key_of_ge
    exact exec_of_executeStage_ok (i := .ldVK x) (executeLdVK_of_none (firstKey_eq_none.2 hall))
  · obtain ⟨t, ht, hx, hadv⟩ :=
      exec_of_setV (i := .ldVK x) (executeLdVK_of_some (firstKey_eq_some_of_lowest hkey hlow))
    exact ⟨t, ht, by rw [hx, BitVec.toNat_ofNat, Nat.mod_eq_of_lt (by omega)], hadv⟩

/-! ### The timers (R172, R174, R175) -/

/-- A new value of `DT` is what the epilogue of the same step decrements. -/
theorem advancedTo_setDT (s : State) (v : Byte) :
    AdvancedTo s (s.setDT v).epilogue (s.pcPlus 2) v s.ST (fun _ => False) :=
  advancedTo_epilogue ((frame_setDT s v).mono fun _ hf => .inr (.inl hf)) rfl rfl rfl rfl

/-- A new value of `ST` is what the epilogue of the same step decrements, and sets `play_beep` by. -/
theorem advancedTo_setST (s : State) (v : Byte) :
    AdvancedTo s (s.setST v).epilogue (s.pcPlus 2) s.DT v (fun _ => False) :=
  advancedTo_epilogue ((frame_setST s v).mono fun _ hf => .inr (.inr (.inl hf))) rfl rfl rfl rfl

/-- Settles O43: the read is one register write, of `DT` before the epilogue; each timer write hands its value to the epilogue. -/
theorem timerReadsAndWrites : Obligations.TimerReadsAndWrites := by
  refine fun x => ⟨decode_encode (.ldVDt x), decode_encode (.ldDtV x), decode_encode (.ldStV x), fun s => ⟨?_, ?_, ?_⟩⟩
  · exact exec_of_setV rfl
  · exact ⟨_, exec_of_executeStage_ok (i := .ldDtV x) rfl, advancedTo_setDT s (s.getV x)⟩
  · exact ⟨_, exec_of_executeStage_ok (i := .ldStV x) rfl, advancedTo_setST s (s.getV x)⟩

end Sys2Proof.Machine
end

section
/-! PROOFS. Faults (R180 to R186): a step that ends in a fault takes one raised by the fetch, the decode or the execute stage, and
what each of the three can raise; a faulted block, and what its host can do with it. -/

namespace Sys2Proof.Machine

variable {i : Instr} {s t : State} {e : Raise}

/-! ### What the fetch and the decode raise (R91 to R93, R180) -/

theorem decodeOrRaise_ok {op : Word} (h : decodeOrRaise op = .ok i) : decode op = .ok i := by
  unfold decodeOrRaise at h
  split at h
  · next hd => cases h; exact hd
  · cases h

theorem fetchPasses_of_fetchDecode_ok (h : s.fetchDecode = .ok i) : s.fetchPasses :=
  fetchable_iff.1 (fetchable_of_fetchDecode_ok h)

theorem decode_of_fetchDecode_ok (h : s.fetchDecode = .ok i) : decode s.opcodeAt = .ok i :=
  decodeOrRaise_ok (fetchDecode_of_fetchPasses (fetchPasses_of_fetchDecode_ok h) ▸ h)

/-- Before an instruction is known, only a `pc` that the fetch does not accept, or an opcode that is unknown, is a fault. -/
theorem fetchDecode_error_cases (h : s.fetchDecode = .error e) :
    (¬ s.fetchPasses ∧ e = ⟨.fetchFault, s.pc.toNat⟩) ∨
    (s.fetchPasses ∧ decode s.opcodeAt = .error (.unknownOpcode s.opcodeAt) ∧ e = ⟨.unknownOpcode, s.opcodeAt.toNat⟩) := by
  by_cases hp : s.fetchPasses
  · rw [fetchDecode_of_fetchPasses hp] at h
    exact .inr ⟨hp, decodeOrRaise_error h⟩
  · rw [fetchDecode_of_not_fetchable (fetchable_eq_false hp)] at h
    cases h
    exact .inl ⟨hp, rfl⟩

/-! ### A step that ends in a fault (R183) -/

/-- The instruction that runs to its end sets no record, so a record found after a step is of a fault that was raised. -/
theorem step_fault_cases (h : step s = .next t) (ht : t.fault ≠ none) :
    ∃ e, t = s.takeFault e ∧
      (s.fetchDecode = .error e ∨ ∃ i, s.fetchDecode = .ok i ∧ executeStage i s = .error e) := by
  obtain ⟨hf, ⟨i, hd, hx⟩ | ⟨e, hd, rfl⟩⟩ := step_cases h
  · rcases exec_cases hx with ⟨o, ho, rfl⟩ | ⟨e, he, rfl⟩
    · exact absurd ((endState_fault o).trans ((executeStage_fault ho).trans hf)) ht
    · exact ⟨e, rfl, .inr ⟨i, hd, he⟩⟩
  · exact ⟨e, rfl, .inl hd⟩

/-- Settles O46: the fault that was taken gives the kind and the info. -/
theorem faultIsPrecise : Obligations.FaultIsPrecise := by
  intro s t _ h ht
  obtain ⟨e, rfl, -⟩ := step_fault_cases h ht
  exact ⟨e.kind, e.info, rfl⟩

/-- Settles O47: by the stage that raised the fault, and for the execute stage by its check that failed. -/
theorem faultCauses : Obligations.FaultCauses := by
  intro s t r _ h hr
  obtain ⟨e, rfl, hstage⟩ := step_fault_cases h (hr ▸ Option.some_ne_none r)
  cases hr
  refine ⟨rfl, ?_⟩
  rcases hstage with hd | ⟨i, hd, he⟩
  · rcases fetchDecode_error_cases hd with ⟨hp, rfl⟩ | ⟨hp, hop, rfl⟩
    · exact .inl ⟨rfl, hp, rfl⟩
    · exact .inr (.inl ⟨rfl, hp, by rw [hop]; exact nofun, rfl⟩)
  · refine .inr (.inr ⟨i, fetchPasses_of_fetchDecode_ok hd, decode_of_fetchDecode_ok hd, ?_⟩)
    cases executeStage_error he with
    | stackOverflow nnn hsp => exact .inl ⟨rfl, ⟨nnn, rfl⟩, congrArg Fin.val hsp, rfl⟩
    | stackUnderflow hsp => exact .inr (.inl ⟨rfl, rfl, congrArg Fin.val hsp, rfl⟩)
    | memoryOutOfRange hi => exact .inr (.inr (.inl ⟨rfl, hi, rfl⟩))
    | reservedWrite hi hI => exact .inr (.inr (.inr (.inl ⟨rfl, hi, rfl, hI⟩)))
    | displayOutOfRange x y n hlow hhigh => exact .inr (.inr (.inr (.inr (.inl ⟨rfl, ⟨x, y, n, rfl⟩, hlow, hhigh⟩))))
    | keyIndexOutOfRange hi hx => exact .inr (.inr (.inr (.inr (.inr ⟨rfl, _, hi, rfl, hx⟩))))

/-! ### A faulted block (R38, R184, R185) -/

theorem step_of_fault {r : FaultRecord} (h : s.fault = some r) : step s = .fault (.halted r) := by rw [step, h]

/-- Of the host's actions only reset touches the record. -/
theorem HostAction.apply_fault {a : HostAction} (h : a ≠ .reset) (s : State) : (a.apply s).fault = s.fault := by
  cases a with
  | reset => exact absurd rfl h
  | loadImage | setKey | consumeRedraw | consumeBeep | supplyRnd => rfl

theorem reset_apply_fault (s : State) : (HostAction.reset.apply s).fault = none := rfl

/-- Settles O2: by what the step and each host action make of the record. -/
theorem faultedBlockStepsOnlyAfterReset : Obligations.FaultedBlockStepsOnlyAfterReset :=
  fun s _ hf => ⟨step_of_fault hf, fun _ ha => (HostAction.apply_fault ha s).trans hf, reset_apply_fault s⟩

end Sys2Proof.Machine
end

section
/-! PROOFS. The stopping points (R206, R213), boot with an image (R201), the host's actions (R210, R211), and what the block and
its host can reach (R209). -/

namespace Sys2Proof.Machine

variable {s t : State} {i : Instr} {c : Session} {font : Vector Byte 80} {image : List Byte}

/-! ### Stopping points (R206, R213) -/

theorem step_of_decode_ok (hf : s.fault = none) (hp : s.fetchPasses) (h : decode s.opcodeAt = .ok i) : step s = exec i s :=
  ((stepFetchesDecodesExecutes s hf).2 hp).1 i h

/-- A jump to its own address writes to `pc` what it holds, and no epilogue runs. -/
theorem step_of_spinning (h : s.spinning) : step s = .next s := by
  obtain ⟨hf, hp, nnn, hop, hself⟩ := h
  have hd : decode s.opcodeAt = .ok (.jp nnn) := hop ▸ decode_encode (.jp nnn)
  have hpc : addrWord nnn = s.pc := BitVec.eq_of_toNat_eq ((addrWord_toNat nnn).trans hself)
  calc step s = exec (.jp nnn) s := step_of_decode_ok hf hp hd
    _ = .next (s.setPc (addrWord nnn)) := exec_of_executeStage_ok (i := .jp nnn) rfl
    _ = .next s := by rw [hpc]; rfl

/-- A key wait with every key released changes nothing. -/
theorem step_of_waiting (h : s.waiting) : step s = .next s := by
  obtain ⟨hf, hp, ⟨b, hop⟩, hkeys⟩ := h
  obtain ⟨hd, hx⟩ := keyWaitTakesTheLowestKey (regOfBits b)
  rw [regBits_regOfBits, ← hop] at hd
  exact (step_of_decode_ok hf hp hd).trans ((hx s).1 fun k _ => hkeys k)

/-- Settles O51: a spinning point is a jump to its own address, a waiting point a key wait with no key. -/
theorem spinningAndWaitingPointsAreFixed : Obligations.SpinningAndWaitingPointsAreFixed :=
  fun _ h => h.elim step_of_spinning step_of_waiting

/-! ### Boot (R201) -/

theorem boot_of_le (h : image.length ≤ 3584) : boot font image = some ((State.resetWith font).placeImage image) :=
  if_pos ((imageFits_iff image).2 h)

theorem boot_of_gt (h : 3584 < image.length) : boot font image = none :=
  if_neg fun hfit => Nat.not_le.2 h ((imageFits_iff image).1 hfit)

theorem State.placeImage_read {k : Nat} (hk : k < image.length) : (s.placeImage image).mem.read (0x200 + k) = image[k] := by
  rw [State.placeImage_mem, Memory.read_writeBytes, Config.progBase, dif_pos ⟨by omega, by omega⟩]
  simp only [Nat.add_sub_cancel_left]

theorem State.placeImage_read_past {a : Nat} (ha : 0x200 + image.length ≤ a) :
    (s.placeImage image).mem.read a = s.mem.read a :=
  frame_placeImage s image (.mem a) fun ⟨k, hk, he⟩ => by cases he; omega

/-- Settles O53: the boot of an image that fits is the reset state with the image placed. -/
theorem bootPlacesTheImage : Obligations.BootPlacesTheImage := by
  refine fun font image => ⟨boot_of_gt, fun hl => ⟨_, boot_of_le hl, fun k hk => State.placeImage_read hk, fun a ha => ?_,
    rfl, rfl, frame_placeImage _ image⟩⟩
  obtain ⟨-, hzero, -⟩ := resetValues.1 font _ rfl
  exact (State.placeImage_read_past ha).trans (hzero a (by omega))

/-! ### What each host action touches (R210, R211) -/

theorem State.setKey_key (s : State) (k : Fin 16) (p : Bool) (j : Nat) :
    (s.setKey k p).key j = if j = k.val then p else s.key j := by
  by_cases hj : j = k.val
  · subst hj
    cases p <;> simp [State.setKey, State.key]
  · cases p with
    | true => simp [State.setKey, State.key, hj, Ne.symm hj]
    | false => simpa [State.setKey, State.key, hj, Ne.symm hj] using fun h => BitVec.lt_of_getLsbD h

theorem frame_setKey (s : State) (k : Fin 16) (p : Bool) : Frame (fun f => f = .key k) s (s.setKey k p) := by
  intro f hf
  cases f with
  | key j => exact (s.setKey_key k p j).trans (if_neg fun h => hf (congrArg Field.key h))
  | _ => rfl

theorem frame_consumeRedraw (s : State) : Frame (fun f => f = .needDraw) s (HostAction.consumeRedraw.apply s) := by
  intro f hf
  cases f with
  | needDraw => exact absurd rfl hf
  | _ => rfl

theorem frame_consumeBeep (s : State) : Frame (fun f => f = .playBeep) s (HostAction.consumeBeep.apply s) := by
  intro f hf
  cases f with
  | playBeep => exact absurd rfl hf
  | _ => rfl

/-- A host reset is the reset state of the block's own font but for the random input, which it keeps. -/
theorem frame_hostReset (s : State) :
    Frame (fun f => f = .rnd ∨ f = .rndDraws) (State.resetWith s.mem.font) (HostAction.reset.apply s) := by
  intro f hf
  cases f with
  | rnd => exact absurd (.inl rfl) hf
  | rndDraws => exact absurd (.inr rfl) hf
  | _ => rfl

/-- Settles O54: the value each action writes, and its frame. -/
theorem hostActionsTouchOnlyTheirFields : Obligations.HostActionsTouchOnlyTheirFields := fun s =>
  ⟨fun k p => ⟨(s.setKey_key k p k).trans (if_pos rfl), frame_setKey s k p⟩,
    ⟨rfl, frame_consumeRedraw s⟩,
    ⟨rfl, frame_consumeBeep s⟩,
    fun b => ⟨rfl, frame_withRnd s b⟩,
    fun image => ⟨fun _ hk => State.placeImage_read hk, frame_placeImage s image⟩,
    ⟨frame_hostReset s, rfl, rfl⟩⟩

/-! ### What the block and its host can reach (R209 to R211) -/

/-- The invariant is about memory, `pc`, the stack and the fault record only. -/
theorem State.Inv.of_eq (h : s.Inv) (hmem : t.mem.wf = true) (hpc : t.pc = s.pc) (hstack : t.stack = s.stack)
    (hsp : t.sp = s.sp) (hfault : t.fault = s.fault) : t.Inv where
  memCanonical := hmem
  pcBound := hpc ▸ h.pcBound
  stackOfCalls j hj hle := by
    rw [State.getStack, hstack]
    exact h.stackOfCalls j hj (hsp ▸ hle)
  faultLegal r hr := by
    rw [hpc]
    exact h.faultLegal r (hfault ▸ hr)

/-- A host action that is allowed keeps the invariant: an image is loaded only when it fits, a reset leaves a state that meets the
invariant whatever was before, and the others write none of its fields. -/
theorem HostAction.apply_inv {a : HostAction} {fresh : Bool} (hi : s.Inv) (ha : a.allowed fresh = true) : (a.apply s).Inv := by
  cases a with
  | reset =>
    have hr : (State.resetWith s.mem.font).Inv := (resetMeetsTheInvariant s.mem.font).1
    exact hr.of_eq hr.memCanonical rfl rfl rfl rfl
  | loadImage image =>
    obtain ⟨-, hl⟩ := (loadImage_allowed_iff image fresh).1 ha
    exact hi.of_eq (State.placeImage_wf hi.memCanonical ((imageFits_iff image).2 hl)) rfl rfl rfl rfl
  | setKey | consumeRedraw | consumeBeep | supplyRnd => exact hi.of_eq hi.memCanonical rfl rfl rfl rfl

/-- Every event that has a next session keeps the invariant. -/
theorem Event.apply_inv {ev : Event} {d : Session} (hi : c.block.Inv) (h : ev.apply c = some (.next d)) : d.block.Inv := by
  cases ev with
  | step =>
    obtain ⟨hstep, -⟩ := Session.step_eq_next.1 (Option.some.inj h)
    exact stepKeepsTheInvariant c.block d.block hi hstep
  | host a =>
    obtain ⟨ha, hb, -⟩ := Event.host_eq_next.1 h
    exact hb ▸ HostAction.apply_inv hi ha

/-- Settles O57, by induction on how the session was reached: it holds at construction, and every event keeps it. -/
theorem reachableStatesMeetTheInvariant : Obligations.ReachableStatesMeetTheInvariant := by
  intro c hc
  induction hc with
  | start font => exact (resetMeetsTheInvariant font).1
  | event ev _ hd ih => exact Event.apply_inv ih hd

end Sys2Proof.Machine
end
